-- ==== Sys2Proof/Word.lean ====
section
/-! DEFINITION. The word types of the block and the trit (spec/00_scope.md R10, R11).

A register, a command word and a byte are bit patterns, so they are bit vectors. A trit is one of
three values and never anything else (spec/10_state.md R26), so it is an inductive type: a memory of
trits cannot hold a non-trit. -/

namespace Sys2Proof

/-- A byte of BM, of the Kerl message or of the host port (R11, R27). -/
abbrev Byte := BitVec 8

/-- The contents of a general register (`XLEN` = 64, R8, R21). -/
abbrev Word := BitVec 64

/-- A command word (R90). -/
abbrev CommandWord := BitVec 32

/-- A trit: an integer in {-1, 0, +1} (R10). -/
inductive Trit where
  /-- the trit -1 -/
  | neg
  /-- the trit 0 -/
  | zero
  /-- the trit +1 -/
  | pos
  deriving DecidableEq, Repr, Inhabited

/-- The integer a trit is (R10). -/
def Trit.toInt : Trit → Int
  | .neg => -1
  | .zero => 0
  | .pos => 1

end Sys2Proof
end

