-- ==== Sys2Proof/Machine/Trits.lean ====
section
/-! DEFINITION. Trit sequences and the integers they denote (spec/00_scope.md R10), the digit loop of
spec/40_codec.md R114 and R123, the tryte table (R111, R112), trytes as values
(spec/44_signing.md R200), and the chunks of 243 trits that both sponges work on. -/

namespace Sys2Proof.Machine

open Sys2Proof

/-- The vector that holds `f i` at place `i`. -/
def tabulate {α : Type} {n : Nat} (f : Fin n → α) : Vector α n := ⟨(List.ofFn f).toArray, by simp⟩

/-- The trit of opposite sign. -/
def negTrit : Trit → Trit
  | .neg => .pos
  | .zero => .zero
  | .pos => .neg

/-- `bt_value(t)`: the sum of `t[i] * 3^i`, by Horner's rule from the most significant trit (R10, R117). -/
def btValue (t : List Trit) : Int := t.foldr (fun d v => d.toInt + 3 * v) 0

/-- `zeros(n)` (R10). -/
def zeros (n : Nat) : List Trit := List.replicate n .zero

/-- The digit of a remainder modulo 3: a remainder 2 becomes -1 (R114, R123). -/
def digitTrit (r : Nat) : Trit := if r = 2 then .neg else if r = 1 then .pos else .zero

/-- What is left of `m` after its lowest digit: `m div 3`, and 1 more where the digit was -1. -/
def digitRest (m : Nat) : Nat := if m % 3 = 2 then m / 3 + 1 else m / 3

/-- The digits of a magnitude `m` until nothing is left (the loop of R114). `m` turns suffice. -/
def minimalDigits : (fuel : Nat) → (m : Nat) → List Trit
  | 0, _ => []
  | fuel + 1, m => if m = 0 then [] else digitTrit (m % 3) :: minimalDigits fuel (digitRest m)

/-- Exactly `n` digits of a magnitude `m` (the loop of R123). -/
def fixedDigits : (n : Nat) → (m : Nat) → List Trit
  | 0, _ => []
  | n + 1, m => digitTrit (m % 3) :: fixedDigits n (digitRest m)

/-- Negating every digit where the integer was negative (R114, R123). -/
def signDigits (v : Int) (digits : List Trit) : List Trit :=
  if v < 0 then digits.map negTrit else digits

/-- `int_to_trits(v)` (R114): the minimal trit sequence of `v`, empty for 0. -/
def intToTrits (v : Int) : List Trit := signDigits v (minimalDigits v.natAbs v.natAbs)

/-- The `n`-trit sequence of `v`, by the digit loop of R123. -/
def fixedTrits (n : Nat) (v : Int) : List Trit := signDigits v (fixedDigits n v.natAbs)

/-- A row of the tryte table: a symbol's ASCII code and its triple, least significant trit first. -/
structure TryteRow where
  /-- the symbol's ASCII code (R112) -/
  ascii : Byte
  /-- the least significant trit -/
  t0 : Trit
  /-- the middle trit -/
  t1 : Trit
  /-- the most significant trit -/
  t2 : Trit
  deriving DecidableEq, Repr

/-- The tryte table (R111): row k is the symbol at position k of `9ABCDEFGHIJKLMNOPQRSTUVWXYZ`. -/
def tryteTable : List TryteRow :=
  [⟨0x39, .zero, .zero, .zero⟩, ⟨0x41, .pos, .zero, .zero⟩, ⟨0x42, .neg, .pos, .zero⟩,
   ⟨0x43, .zero, .pos, .zero⟩, ⟨0x44, .pos, .pos, .zero⟩, ⟨0x45, .neg, .neg, .pos⟩,
   ⟨0x46, .zero, .neg, .pos⟩, ⟨0x47, .pos, .neg, .pos⟩, ⟨0x48, .neg, .zero, .pos⟩,
   ⟨0x49, .zero, .zero, .pos⟩, ⟨0x4A, .pos, .zero, .pos⟩, ⟨0x4B, .neg, .pos, .pos⟩,
   ⟨0x4C, .zero, .pos, .pos⟩, ⟨0x4D, .pos, .pos, .pos⟩, ⟨0x4E, .neg, .neg, .neg⟩,
   ⟨0x4F, .zero, .neg, .neg⟩, ⟨0x50, .pos, .neg, .neg⟩, ⟨0x51, .neg, .zero, .neg⟩,
   ⟨0x52, .zero, .zero, .neg⟩, ⟨0x53, .pos, .zero, .neg⟩, ⟨0x54, .neg, .pos, .neg⟩,
   ⟨0x55, .zero, .pos, .neg⟩, ⟨0x56, .pos, .pos, .neg⟩, ⟨0x57, .neg, .neg, .zero⟩,
   ⟨0x58, .zero, .neg, .zero⟩, ⟨0x59, .pos, .neg, .zero⟩, ⟨0x5A, .neg, .zero, .zero⟩]

/-- Whether a byte is in the alphabet: 0x39, or 0x41 to 0x5A (R112). -/
def inAlphabet (c : Byte) : Bool := c == 0x39 || (0x41 ≤ c.toNat && c.toNat ≤ 0x5A)

/-- The index of the first byte that is not in the alphabet (R113, R120). -/
def firstNonSymbol (s : List Byte) : Option Nat := s.findIdx? (fun c => !inAlphabet c)

/-- `sym_index(c)`: the position of a symbol in the alphabet string (R111). Asked only of symbols; for
another byte it would be 27. -/
def symIndex (c : Byte) : Nat := tryteTable.findIdx (fun row => row.ascii == c)

/-- `ASCII(alphabet[k])` for `k` at most 26 (R118). -/
def symbolAt (k : Nat) : Byte :=
  match tryteTable[k]? with
  | some row => row.ascii
  | none => 0x39

/-- `triple_of(c)` (R111). Asked only of symbols; for another byte it would be three zeros. -/
def tripleOf (c : Byte) : List Trit :=
  match tryteTable.find? (fun row => row.ascii == c) with
  | some row => [row.t0, row.t1, row.t2]
  | none => zeros 3

/-- `tryte_of([t0, t1, t2])` (R111): total, since each triple is in one row. -/
def tryteOf (t0 t1 t2 : Trit) : Byte :=
  match tryteTable.find? (fun row => row.t0 == t0 && row.t1 == t1 && row.t2 == t2) with
  | some row => row.ascii
  | none => 0x39

/-- The value of a tryte: `t0 + 3*t1 + 9*t2` (spec/20_memory.md R64). -/
def tryteValue (t0 t1 t2 : Trit) : Int := t0.toInt + 3 * t1.toInt + 9 * t2.toInt

/-- The symbols of a trit sequence, three trits each (R116). -/
def trytesOf : List Trit → List Byte
  | t0 :: t1 :: t2 :: rest => tryteOf t0 t1 t2 :: trytesOf rest
  | _ => []

/-- The list of `tv(t, e)`: a trit sequence read as trytes (R200). -/
def tryteValues : List Trit → List Int
  | t0 :: t1 :: t2 :: rest => tryteValue t0 t1 t2 :: tryteValues rest
  | _ => []

/-- The storage form of a list of values in [-13, 13]: 3 trits each (R200). -/
def valuesToTrits (v : List Int) : List Trit := v.flatMap (fixedTrits 3)

/-- Piece number `j` of `size` trits of a sequence; the last piece may be shorter. -/
def piece (size : Nat) (t : List Trit) (j : Nat) : List Trit := (t.drop (size * j)).take size

/-- The chunks of 243 trits of a sequence, the last of which may be shorter: `ceil(|t|/243)` of them
(spec/42_curl.md R154, spec/43_kerl.md R174). -/
def chunks243 (t : List Trit) : List (List Trit) :=
  (List.range ((t.length + 242) / 243)).map (piece 243 t)

end Sys2Proof.Machine
end

