-- ==== Sys2Proof/Machine/AddTrits.lean ====
section
/-! DEFINITION. The function of the Ternary Adder (spec/41_adder.md R140, R141). -/

namespace Sys2Proof.Machine

open Sys2Proof

/-- `fold(s)` for an integer `s` in -2..2 (R140): 2 becomes -1 and -2 becomes +1. -/
def foldTrit (s : Int) : Trit :=
  if s = 2 ∨ s = -1 then .neg else if s = -2 ∨ s = 1 then .pos else .zero

/-- `cons(a, b)` (R140): `a` if the digits are equal, else 0. -/
def consTrit (a b : Trit) : Trit := if a = b then a else .zero

/-- `any(a, b)` (R140): the sign of `a + b`. -/
def anyTrit (a b : Trit) : Trit :=
  if a.toInt + b.toInt > 0 then .pos else if a.toInt + b.toInt < 0 then .neg else .zero

/-- The folded digit sum of one position (R141). -/
def digitSum (a b : Trit) : Trit := foldTrit (a.toInt + b.toInt)

/-- The output digit of one position (R141), the carry coming in being `c`. -/
def digitOut (a b c : Trit) : Trit := foldTrit ((digitSum a b).toInt + c.toInt)

/-- The carry going out of one position (R141). -/
def carryOut (a b c : Trit) : Trit := anyTrit (consTrit a b) (consTrit (digitSum a b) c)

/-- The digit loop of R141. The last carry is dropped. -/
def addDigits : List (Trit × Trit) → Trit → List Trit
  | [], _ => []
  | (a, b) :: rest, c => digitOut a b c :: addDigits rest (carryOut a b c)

/-- A sequence made `n` long by zero trits above it: a missing digit is 0 (R141). -/
def extendTo (n : Nat) (t : List Trit) : List Trit := t ++ zeros (n - t.length)

/-- `tadd(a, b)` (R141). -/
def tadd (a b : List Trit) : List Trit :=
  let n := max a.length b.length
  addDigits ((extendTo n a).zip (extendTo n b)) .zero

end Sys2Proof.Machine
end

