-- ==== Sys2Proof/Syntax.lean ====
section
/-! DEFINITION. The 25 commands of spec/opcode_table.json, one constructor each, with the operand fields
of spec/30_encoding.md R97 in field order (ra, rb, rc, rd, re, rf). -/

namespace Sys2Proof

/-- A register number, 0 to 15, naming `x0` to `x15` (R91). -/
abbrev Reg := Fin 16

/-- A command (R97). Register fields are register numbers; `imm20` is the immediate field of format I
(R92), which `CINIT` restricts to at most 255 (see `Instr.wellFormed`). -/
inductive Instr where
  /-- `LI` (R128): destination register, signed 20-bit immediate -/
  | li (ra : Reg) (imm20 : BitVec 20)
  /-- `TRY2T` (R113): TM destination, BM source, number of trytes -/
  | try2t (ra rb rc : Reg)
  /-- `INT2T` (R115): TM destination, value, register that receives the length -/
  | int2t (ra rb rc : Reg)
  /-- `T2TRY` (R116): BM destination, TM source, number of trits -/
  | t2try (ra rb rc : Reg)
  /-- `T2INT` (R117): destination register, TM source, number of trits -/
  | t2int (ra rb rc : Reg)
  /-- `STR2TRY` (R119): BM destination, BM source, number of code units -/
  | str2try (ra rb rc : Reg)
  /-- `TRY2STR` (R120): BM destination, BM source, number of trytes -/
  | try2str (ra rb rc : Reg)
  /-- `T2B` (R122): BM destination, TM source, number of trits -/
  | t2b (ra rb rc : Reg)
  /-- `B2T` (R124): TM destination, BM source, number of bytes -/
  | b2t (ra rb rc : Reg)
  /-- `TADD` (R142): TM destination, TM address and length of a, TM address and length of b -/
  | tadd (ra rb rc rd re : Reg)
  /-- `CINIT` (R155): round count -/
  | cinit (imm20 : BitVec 20)
  /-- `CRESET` (R156) -/
  | creset
  /-- `CXFORM` (R157) -/
  | cxform
  /-- `CABSORB` (R158): TM base, array length, offset -/
  | cabsorb (ra rb rc : Reg)
  /-- `CSQUEEZE` (R159): TM base, array length, offset -/
  | csqueeze (ra rb rc : Reg)
  /-- `KRESET` (R179) -/
  | kreset
  /-- `KABSORB` (R180): TM base, array length, offset -/
  | kabsorb (ra rb rc : Reg)
  /-- `KSQUEEZE` (R181): TM base, array length, offset -/
  | ksqueeze (ra rb rc : Reg)
  /-- `KEYGEN` (R204): TM destination, TM seed, seed length, index, security -/
  | keygen (ra rb rc rd re : Reg)
  /-- `DIGESTS` (R206): TM destination, TM key, key length -/
  | digests (ra rb rc : Reg)
  /-- `ADDRESS` (R207): TM destination, TM digests, their total length -/
  | address (ra rb rc : Reg)
  /-- `SIGDIGEST` (R209): TM destination, TM normalized fragment, TM signature fragment -/
  | sigdigest (ra rb rc : Reg)
  /-- `SIGFRAG` (R211): TM destination, TM normalized fragment, TM key fragment -/
  | sigfrag (ra rb rc : Reg)
  /-- `NORMALIZE` (R202): TM destination, TM hash -/
  | normalize (ra rb : Reg)
  /-- `VALIDATE` (R214): verdict register, TM expected address, TM fragments, number of fragments, TM
  bundle hash, hash length -/
  | validate (ra rb rc rd re rf : Reg)
  deriving DecidableEq, Repr

end Sys2Proof
end

