-- ==== Sys2Proof/WellFormed.lean ====
section
/-! DEFINITION. Which terms of `Instr` stand for a command word (spec/30_encoding.md R97, R98). -/

namespace Sys2Proof

/-- Register fields are in range by their type and `LI` takes every immediate (R128). The one check the
encoding makes beyond the field widths is that the immediate of `CINIT` is at most 255 (R92, R94, R98). -/
def Instr.wellFormed : Instr → Bool
  | .cinit imm20 => imm20.toNat ≤ 255
  | .li _ _ | .try2t _ _ _ | .int2t _ _ _ | .t2try _ _ _ | .t2int _ _ _ | .str2try _ _ _
  | .try2str _ _ _ | .t2b _ _ _ | .b2t _ _ _ | .tadd _ _ _ _ _ | .creset | .cxform
  | .cabsorb _ _ _ | .csqueeze _ _ _ | .kreset | .kabsorb _ _ _ | .ksqueeze _ _ _
  | .keygen _ _ _ _ _ | .digests _ _ _ | .address _ _ _ | .sigdigest _ _ _ | .sigfrag _ _ _
  | .normalize _ _ | .validate _ _ _ _ _ _ => true

end Sys2Proof
end

