-- ==== Sys2Proof/Decode.lean ====
section
/-! DEFINITION. The decoder and the encoder of command words (spec/30_encoding.md R90 to R99), and the
opcode map of R97 as data. The decoder reads one 32-bit word and needs no state (R99); it is total, and a
word that is no command is rejected with a name. -/

namespace Sys2Proof

/-- Why a word is illegal (R98). Either way it raises `Fault(ILLEGAL, w)`. -/
inductive IllegalWord where
  /-- the opcode byte is not one of the 25 -/
  | undefinedOpcode
  /-- a field the command does not use is not 0 -/
  | unusedFieldNotZero
  /-- the immediate of `CINIT` exceeds 255 -/
  | roundCountTooLarge
  deriving DecidableEq, Repr

/-- What a command word decodes to. -/
inductive Decoded where
  /-- a command -/
  | command (i : Instr)
  /-- no command, and why -/
  | illegal (why : IllegalWord)
  deriving DecidableEq, Repr

/-- Bits 7 to 0, the opcode in every format (R90). -/
def opcodeOf (w : CommandWord) : Nat := w.toNat % 256

/-- The 4-bit register field whose lowest bit is bit `lo` (R91). -/
def regAt (w : CommandWord) (lo : Nat) : Reg := Fin.ofNat 16 (w.toNat / 2 ^ lo)

/-- `imm20`, bits 31 to 12 of format I (R92). -/
def imm20Of (w : CommandWord) : BitVec 20 := BitVec.ofNat 20 (w.toNat / 2 ^ 12)

/-- The command `i`, if the bits from `lo` up are 0: the fields a format R or Z command does not use must
be 0 (R91, R93, R98). -/
def ifZeroFrom (w : CommandWord) (lo : Nat) (i : Instr) : Decoded :=
  if w.toNat / 2 ^ lo = 0 then .command i else .illegal .unusedFieldNotZero

/-- Decoding `CINIT` (R92, R94, R98): `ra` must be 0 and `imm20` at most 255. -/
def decodeCinit (w : CommandWord) : Decoded :=
  if regAt w 8 ≠ 0 then .illegal .unusedFieldNotZero
  else if (imm20Of w).toNat ≤ 255 then .command (.cinit (imm20Of w))
  else .illegal .roundCountTooLarge

/-- The decoder (R97, R98). -/
def decode (w : CommandWord) : Decoded :=
  let ra := regAt w 8
  let rb := regAt w 12
  let rc := regAt w 16
  let rd := regAt w 20
  let re := regAt w 24
  let rf := regAt w 28
  match opcodeOf w with
  | 0x01 => .command (.li ra (imm20Of w))
  | 0x10 => ifZeroFrom w 20 (.try2t ra rb rc)
  | 0x11 => ifZeroFrom w 20 (.int2t ra rb rc)
  | 0x12 => ifZeroFrom w 20 (.t2try ra rb rc)
  | 0x13 => ifZeroFrom w 20 (.t2int ra rb rc)
  | 0x14 => ifZeroFrom w 20 (.str2try ra rb rc)
  | 0x15 => ifZeroFrom w 20 (.try2str ra rb rc)
  | 0x16 => ifZeroFrom w 20 (.t2b ra rb rc)
  | 0x17 => ifZeroFrom w 20 (.b2t ra rb rc)
  | 0x20 => ifZeroFrom w 28 (.tadd ra rb rc rd re)
  | 0x30 => decodeCinit w
  | 0x31 => ifZeroFrom w 8 .creset
  | 0x32 => ifZeroFrom w 8 .cxform
  | 0x33 => ifZeroFrom w 20 (.cabsorb ra rb rc)
  | 0x34 => ifZeroFrom w 20 (.csqueeze ra rb rc)
  | 0x40 => ifZeroFrom w 8 .kreset
  | 0x41 => ifZeroFrom w 20 (.kabsorb ra rb rc)
  | 0x42 => ifZeroFrom w 20 (.ksqueeze ra rb rc)
  | 0x50 => ifZeroFrom w 28 (.keygen ra rb rc rd re)
  | 0x51 => ifZeroFrom w 20 (.digests ra rb rc)
  | 0x52 => ifZeroFrom w 20 (.address ra rb rc)
  | 0x53 => ifZeroFrom w 20 (.sigdigest ra rb rc)
  | 0x54 => ifZeroFrom w 20 (.sigfrag ra rb rc)
  | 0x55 => ifZeroFrom w 16 (.normalize ra rb)
  | 0x56 => .command (.validate ra rb rc rd re rf)
  | _ => .illegal .undefinedOpcode

/-- A word of format R (R91), from its opcode and its six fields. -/
def wordR (opcode : Nat) (ra rb rc rd re rf : Reg) : CommandWord :=
  BitVec.ofNat 32 (opcode + 2 ^ 8 * ra.val + 2 ^ 12 * rb.val + 2 ^ 16 * rc.val + 2 ^ 20 * rd.val
    + 2 ^ 24 * re.val + 2 ^ 28 * rf.val)

/-- A word of format I (R92). -/
def wordI (opcode : Nat) (ra : Reg) (imm20 : BitVec 20) : CommandWord :=
  BitVec.ofNat 32 (opcode + 2 ^ 8 * ra.val + 2 ^ 12 * imm20.toNat)

/-- The encoder (R97): the command word of a command. Format Z is format R with every field 0 (R93). -/
def encode : Instr → CommandWord
  | .li ra imm20 => wordI 0x01 ra imm20
  | .try2t ra rb rc => wordR 0x10 ra rb rc 0 0 0
  | .int2t ra rb rc => wordR 0x11 ra rb rc 0 0 0
  | .t2try ra rb rc => wordR 0x12 ra rb rc 0 0 0
  | .t2int ra rb rc => wordR 0x13 ra rb rc 0 0 0
  | .str2try ra rb rc => wordR 0x14 ra rb rc 0 0 0
  | .try2str ra rb rc => wordR 0x15 ra rb rc 0 0 0
  | .t2b ra rb rc => wordR 0x16 ra rb rc 0 0 0
  | .b2t ra rb rc => wordR 0x17 ra rb rc 0 0 0
  | .tadd ra rb rc rd re => wordR 0x20 ra rb rc rd re 0
  | .cinit imm20 => wordI 0x30 0 imm20
  | .creset => wordR 0x31 0 0 0 0 0 0
  | .cxform => wordR 0x32 0 0 0 0 0 0
  | .cabsorb ra rb rc => wordR 0x33 ra rb rc 0 0 0
  | .csqueeze ra rb rc => wordR 0x34 ra rb rc 0 0 0
  | .kreset => wordR 0x40 0 0 0 0 0 0
  | .kabsorb ra rb rc => wordR 0x41 ra rb rc 0 0 0
  | .ksqueeze ra rb rc => wordR 0x42 ra rb rc 0 0 0
  | .keygen ra rb rc rd re => wordR 0x50 ra rb rc rd re 0
  | .digests ra rb rc => wordR 0x51 ra rb rc 0 0 0
  | .address ra rb rc => wordR 0x52 ra rb rc 0 0 0
  | .sigdigest ra rb rc => wordR 0x53 ra rb rc 0 0 0
  | .sigfrag ra rb rc => wordR 0x54 ra rb rc 0 0 0
  | .normalize ra rb => wordR 0x55 ra rb 0 0 0 0
  | .validate ra rb rc rd re rf => wordR 0x56 ra rb rc rd re rf

/-- A row of the opcode map of R97: `match` and `mask` select the command. -/
structure OpcodeRow where
  /-- the command's name -/
  mnemonic : String
  /-- the column `match` -/
  pattern : CommandWord
  /-- the column `mask`: the opcode and the must-be-zero bits -/
  mask : CommandWord
  deriving DecidableEq, Repr

/-- The columns `mnemonic`, `match` and `mask` of the opcode map (R97), row by row. -/
def opcodeTable : List OpcodeRow :=
  [⟨"LI", 0x00000001, 0x000000FF⟩, ⟨"TRY2T", 0x00000010, 0xFFF000FF⟩,
   ⟨"INT2T", 0x00000011, 0xFFF000FF⟩, ⟨"T2TRY", 0x00000012, 0xFFF000FF⟩,
   ⟨"T2INT", 0x00000013, 0xFFF000FF⟩, ⟨"STR2TRY", 0x00000014, 0xFFF000FF⟩,
   ⟨"TRY2STR", 0x00000015, 0xFFF000FF⟩, ⟨"T2B", 0x00000016, 0xFFF000FF⟩,
   ⟨"B2T", 0x00000017, 0xFFF000FF⟩, ⟨"TADD", 0x00000020, 0xF00000FF⟩,
   ⟨"CINIT", 0x00000030, 0xFFF00FFF⟩, ⟨"CRESET", 0x00000031, 0xFFFFFFFF⟩,
   ⟨"CXFORM", 0x00000032, 0xFFFFFFFF⟩, ⟨"CABSORB", 0x00000033, 0xFFF000FF⟩,
   ⟨"CSQUEEZE", 0x00000034, 0xFFF000FF⟩, ⟨"KRESET", 0x00000040, 0xFFFFFFFF⟩,
   ⟨"KABSORB", 0x00000041, 0xFFF000FF⟩, ⟨"KSQUEEZE", 0x00000042, 0xFFF000FF⟩,
   ⟨"KEYGEN", 0x00000050, 0xF00000FF⟩, ⟨"DIGESTS", 0x00000051, 0xFFF000FF⟩,
   ⟨"ADDRESS", 0x00000052, 0xFFF000FF⟩, ⟨"SIGDIGEST", 0x00000053, 0xFFF000FF⟩,
   ⟨"SIGFRAG", 0x00000054, 0xFFF000FF⟩, ⟨"NORMALIZE", 0x00000055, 0xFFFF00FF⟩,
   ⟨"VALIDATE", 0x00000056, 0x000000FF⟩]

/-- The mnemonic of a command (R97). -/
def mnemonicOf : Instr → String
  | .li _ _ => "LI"
  | .try2t _ _ _ => "TRY2T"
  | .int2t _ _ _ => "INT2T"
  | .t2try _ _ _ => "T2TRY"
  | .t2int _ _ _ => "T2INT"
  | .str2try _ _ _ => "STR2TRY"
  | .try2str _ _ _ => "TRY2STR"
  | .t2b _ _ _ => "T2B"
  | .b2t _ _ _ => "B2T"
  | .tadd _ _ _ _ _ => "TADD"
  | .cinit _ => "CINIT"
  | .creset => "CRESET"
  | .cxform => "CXFORM"
  | .cabsorb _ _ _ => "CABSORB"
  | .csqueeze _ _ _ => "CSQUEEZE"
  | .kreset => "KRESET"
  | .kabsorb _ _ _ => "KABSORB"
  | .ksqueeze _ _ _ => "KSQUEEZE"
  | .keygen _ _ _ _ _ => "KEYGEN"
  | .digests _ _ _ => "DIGESTS"
  | .address _ _ _ => "ADDRESS"
  | .sigdigest _ _ _ => "SIGDIGEST"
  | .sigfrag _ _ _ => "SIGFRAG"
  | .normalize _ _ => "NORMALIZE"
  | .validate _ _ _ _ _ _ => "VALIDATE"

/-- The command word whose bits are the low `nbits` bits of `w`, every higher bit 0. A command is one
32-bit word and the port takes it whole (R42, R90), so there is no order of words or bytes (log
entry 10). -/
def tableWord (nbits w : Nat) : CommandWord := BitVec.ofNat 32 (w % 2 ^ nbits)

/-- The command the decoder reads from a row's word, or none where it rejects the word. -/
def decodeTableWord (nbits w : Nat) : Option Instr :=
  match decode (tableWord nbits w) with
  | .command i => some i
  | .illegal _ => none

end Sys2Proof
end

