-- ==== Sys2Proof/Config.lean ====
section
/-! DEFINITION. The parameters of the block (spec/00_scope.md R8) and the free values the spec leaves
open (spec/70_reset_and_hazards.md R306).

`NT`, `NB`, `H384` and `KERL_RESEED` are arguments of the step relation (spec/10_state.md R44). The
fixed type of the model's step leaves no argument for them, so a record of them lies in the state and no
step changes it (log entry 5). What no implementation fixes is an opaque constant: it has no value that
a proof could use. -/

namespace Sys2Proof.Config

/-- `KERL_RESEED` (spec/43_kerl.md R178): the byte order in which the complemented digest is fed back. -/
inductive KerlReseed where
  /-- D0's text, the default: complement, then reverse -/
  | reversed
  /-- complement only -/
  | forward
  deriving DecidableEq, Repr

/-- Which total function `H384` is (spec/43_kerl.md R172). -/
inductive HashChoice where
  /-- the default: Keccak-384 with the original padding -/
  | keccak384
  /-- any other total function from byte sequences to 48 bytes, of which nothing is known -/
  | other (index : Nat)
  deriving DecidableEq, Repr

/-- The open parameters of one instance of the block (R8, decisions D4, D22, D23). -/
structure Params where
  /-- `NT`, the number of cells of trit memory -/
  nt : Nat
  /-- `NB`, the number of bytes of byte memory -/
  nb : Nat
  /-- `H384` -/
  hash : HashChoice
  /-- `KERL_RESEED` -/
  reseed : KerlReseed
  deriving DecidableEq, Repr

/-- The defaults of R8. -/
def defaultParams : Params :=
  { nt := 65536, nb := 16384, hash := .keccak384, reseed := .reversed }

/-- `NT` and `NB` may not exceed 0x100000 (spec/20_memory.md R80). -/
def windowLimit : Nat := 0x100000

/-- `CURL_DEFAULT_ROUNDS` (R8). -/
def curlDefaultRounds : BitVec 8 := 81

/-- FREE VALUE: what cell `a` of TM holds after the reset number `epoch`, until it is written
(R26, R290, R299): any trit, stable, and not to be assumed. Log entry 2. -/
opaque tmInit (epoch a : Nat) : Trit

/-- FREE VALUE: what byte `a` of BM holds after the reset number `epoch`, until it is written
(R27, R290, R299). Log entry 2. -/
opaque bmInit (epoch a : Nat) : Byte

/-- FREE FUNCTION: the 48 bytes, as one number with its most significant byte first, that the hash
`HashChoice.other k` gives for a message (R172). Log entry 5. -/
opaque otherH384 (k : Nat) (message : List Byte) : BitVec 384

end Sys2Proof.Config
end

