-- ==== Sys2Proof/Machine/State.lean ====
section
/-! DEFINITION. The state of the block as plain data (spec/10_state.md R20, an exhaustive list), its
reset value (R45, spec/70_reset_and_hazards.md R290) and the reasons a step can stop. -/

namespace Sys2Proof.Machine

open Sys2Proof

/-- `ES` (R32). -/
inductive EngineState where
  /-- a command word written to `CMD` is executed -/
  | ready
  /-- a command word written to `CMD` is discarded -/
  | faulted
  deriving DecidableEq, Repr

/-- The causes of spec/60_exceptions.md R261, in the order of their codes 0 to 12. -/
inductive Cause where
  /-- 0 `NONE`: no fault since reset -/
  | noFault
  /-- 1 `ILLEGAL`: the command word is not a defined command -/
  | illegal
  /-- 2 `ADDR`: an operand region is not inside its memory -/
  | addr
  /-- 3 `SYMBOL`: a byte of a tryte string is not one of the 27 symbols -/
  | symbol
  /-- 4 `LEN3`: a trit count that must be a multiple of 3 is not -/
  | len3
  /-- 5 `LEN243`: a length that must be 243, or a multiple of 243, is not -/
  | len243
  /-- 6 `LEN48`: the byte count of `B2T` is not 48 -/
  | len48
  /-- 7 `CODEUNIT`: a UTF-16 code unit exceeds 728 -/
  | codeUnit
  /-- 8 `LENODD`: the tryte count of `TRY2STR` is odd -/
  | lenOdd
  /-- 9 `OFFSET`: a sponge offset is not below the array length, or (Kerl) not a multiple of 243 -/
  | offset
  /-- 10 `NOHASH`: `VALIDATE` was given a bundle hash of length 0 -/
  | noHash
  /-- 11 `INTRANGE`: the value `T2INT` computed does not fit a signed 64-bit register -/
  | intRange
  /-- 12 `LENGTH`: a count that must be positive, or a key length, is not as required -/
  | length
  deriving DecidableEq, Repr

/-- One action of the host on the port (spec/20_memory.md R80 to R84), or an assertion of the reset input
(spec/70_reset_and_hazards.md R290). An access names its byte offset and its width in bits. -/
inductive HostAction where
  /-- a read of `width` bits at byte offset `offset` -/
  | read (offset width : Nat)
  /-- a write of the low `width` bits of `data` at byte offset `offset` -/
  | write (offset width : Nat) (data : Word)
  /-- `RST` is asserted -/
  | assertReset
  deriving DecidableEq, Repr

/-- A memory: the cells written since reset, by address, addresses strictly rising
(`Memory.wf`). A cell that is not listed holds what it held after reset, which is not known
(log entries 2 and 4). -/
abbrev Memory (α : Type) := List (Nat × α)

/-- The state of the block (R20), its parameters (spec/00_scope.md R8), and the three fields of the model
that say what the host does and has read. -/
structure State where
  /-- the parameters of this instance; no step changes them (R8, R44; log entry 5) -/
  params : Config.Params
  /-- `x[0..15]` (R21) -/
  x : Vector Word 16
  /-- `TM` (R26) -/
  tm : Memory Trit
  /-- `BM` (R27), as pairs of an address and a byte -/
  bm : List Host.Cell
  /-- `CS[0..728]` (R28) -/
  cs : Vector Trit 729
  /-- `CR` (R28) -/
  cr : BitVec 8
  /-- `KM` (R29), in the order the bytes were fed -/
  km : List Byte
  /-- `ES` (R32) -/
  es : EngineState
  /-- `DROP`, `STATUS` bit 1 (R34) -/
  drop : Bool
  /-- `HERR`, `STATUS` bit 2 (R34) -/
  herr : Bool
  /-- `CAUSE` (R35) -/
  cause : Cause
  /-- `INFO` (R36) -/
  info : Word
  /-- `ECMD` (R37) -/
  ecmd : CommandWord
  /-- MODEL'S OWN: how often `RST` has been asserted; it selects the unspecified contents of the
  memories after the last reset (log entry 3) -/
  epoch : Nat
  /-- MODEL'S OWN: the host's actions still to come, the next one first (log entry 1) -/
  pending : List HostAction
  /-- MODEL'S OWN: the values the host's reads have returned, the latest first, zero-extended
  (log entry 7) -/
  replies : List Word
  deriving DecidableEq, Repr

/-- What reset leaves (R45, R290) in an instance with parameters `p`, the reset being number `epoch`:
nothing is known of the memories. -/
def State.resetOf (p : Config.Params) (epoch : Nat) : State :=
  { params := p
    x := Vector.replicate 16 0
    tm := []
    bm := []
    cs := Vector.replicate 729 .zero
    cr := Config.curlDefaultRounds
    km := []
    es := .ready
    drop := false
    herr := false
    cause := .noFault
    info := 0
    ecmd := 0
    epoch := epoch
    pending := []
    replies := [] }

/-- The block right after reset, with the default parameters of R8. -/
def State.reset : State := State.resetOf Config.defaultParams 0

/-- Why the machine stops with a fault: never. Every fault of the block is taken, as a next state
(spec/60_exceptions.md R266), and nothing in the block is undefined (spec/70_reset_and_hazards.md R306).
There is no constructor, so no step can stop so: safe. -/
inductive Fault where
  deriving DecidableEq, Repr

/-- Why the model refuses an instruction. -/
inductive Refusal where
  /-- Raised by an arm of `exec` for an instruction without a meaning. No arm does. Safe. -/
  | notModelled (mnemonic : String)
  deriving DecidableEq, Repr

end Sys2Proof.Machine
end

