-- ==== Sys2Proof/Machine/Ops.lean ====
section
/-! DEFINITION. The named operations over memory and registers (spec/00_scope.md R13, R15), fault entry
and the return from a fault (spec/60_exceptions.md R266, R268; spec/10_state.md R41), and reset
(spec/70_reset_and_hazards.md R290). -/

namespace Sys2Proof.Machine

open Sys2Proof

/-! ### Memories as lists of written cells -/

/-- What has been written to cell `a`, if anything has. -/
def memGet? {α : Type} (m : Memory α) (a : Nat) : Option α :=
  (m.find? fun cell => cell.1 == a).map Prod.snd

/-- The cells that hold the sequence `v` from address `a` up. -/
def cellsFrom {α : Type} : (a : Nat) → (v : List α) → Memory α
  | _, [] => []
  | a, u :: rest => (a, u) :: cellsFrom (a + 1) rest

/-- Writing the sequence `v` at address `a`: the cells below, the cells written, the cells above. -/
def memWrite {α : Type} (m : Memory α) (a : Nat) (v : List α) : Memory α :=
  m.filter (fun cell => cell.1 < a) ++ cellsFrom a v ++ m.filter (fun cell => a + v.length ≤ cell.1)

/-- The canonical form of a memory: addresses strictly rising. -/
def Memory.wf {α : Type} (m : Memory α) : Bool :=
  match m with
  | [] => true
  | cell :: rest => rest.all (fun other => cell.1 < other.1) && Memory.wf rest

/-- Every listed address is below the size of the memory (R66: no access is made outside it). -/
def Memory.within {α : Type} (m : Memory α) (size : Nat) : Bool := m.all fun cell => cell.1 < size

/-! ### TM and BM (R13) -/

/-- `TM[a]`: what was written last, or what the cell has held since reset (R26, R299; log entry 2). -/
def State.tmAt (s : State) (a : Nat) : Trit := (memGet? s.tm a).getD (Config.tmInit s.epoch a)

/-- `BM[a]`: what was written last, or what the byte has held since reset (R27, R299; log entry 2). -/
def State.bmAt (s : State) (a : Nat) : Byte := (memGet? s.bm a).getD (Config.bmInit s.epoch a)

/-- `MemRead_T(a, n)` (R13). -/
def State.readT (s : State) (a n : Nat) : List Trit := (List.range n).map fun i => s.tmAt (a + i)

/-- `MemRead_B(a, n)` (R13). -/
def State.readB (s : State) (a n : Nat) : List Byte := (List.range n).map fun i => s.bmAt (a + i)

/-- `MemWrite_T(a, |v|, v)` (R13). -/
def State.writeT (s : State) (a : Nat) (v : List Trit) : State := { s with tm := memWrite s.tm a v }

/-- `MemWrite_B(a, |v|, v)` (R13). -/
def State.writeB (s : State) (a : Nat) (v : List Byte) : State := { s with bm := memWrite s.bm a v }

/-! ### Registers (spec/10_state.md R21, R22) -/

/-- `x[r]`. -/
def State.reg (s : State) (r : Reg) : Word := s.x[r.val]

/-- `x[r] <- v`. -/
def State.setReg (s : State) (r : Reg) (v : Word) : State := { s with x := s.x.set r.val v }

/-! ### The sponge units -/

/-- `CS <- S`. -/
def State.setCurl (s : State) (S : Vector Trit 729) : State := { s with cs := S }

/-- `CR <- r`. -/
def State.setRounds (s : State) (r : BitVec 8) : State := { s with cr := r }

/-- `KM <- K`. -/
def State.setKerl (s : State) (K : List Byte) : State := { s with km := K }

/-- The all-zero Curl state (spec/42_curl.md R155, R156). -/
def zeroCurl : Vector Trit 729 := Vector.replicate 729 .zero

/-! ### Faults (spec/60_exceptions.md) -/

/-- Fault entry (R266) during the execution of the word `w`: `CAUSE`, `INFO`, `ECMD` and `ES` are
written and nothing else changes. -/
def State.enterFault (s : State) (w : CommandWord) (cause : Cause) (info : Nat) : State :=
  { s with cause := cause, info := BitVec.ofNat 64 info, ecmd := w, es := .faulted }

/-- `raise Fault(cause, info)` (R14, R266) by the command `i`, whose word is `encode i` (log entry 6). It
is a next state: the block takes the fault. -/
def raiseFault (i : Instr) (cause : Cause) (info : Nat) (s : State) :
    Host.Outcome State Fault Refusal :=
  .next (s.enterFault (encode i) cause info)

/-- One check that a command makes before its first write: whether it fails, and what it then raises. -/
structure Check where
  /-- whether the condition of the fault holds -/
  fails : Bool
  /-- the cause raised -/
  cause : Cause
  /-- the value of `INFO` -/
  info : Nat

/-- The command `i` with its checks in order: the first that fails is raised and no later one is made
(R264); if none fails the command runs. -/
def checked (i : Instr) (checks : List Check) (run : State → Host.Outcome State Fault Refusal)
    (s : State) : Host.Outcome State Fault Refusal :=
  match checks.find? Check.fails with
  | some c => raiseFault i c.cause c.info s
  | none => run s

/-- A command word written while `ES = FAULTED`: discarded, `DROP <- 1` (R267). -/
def State.dropCommand (s : State) : State := { s with drop := true }

/-- A write of `v` to `ACK` (spec/10_state.md R41; R268): the return from a fault, and the clearing of the
sticky bits. -/
def State.acknowledge (s : State) (v : Word) : State :=
  { s with
    es := if v.getLsbD 0 then .ready else s.es
    drop := if v.getLsbD 1 then false else s.drop
    herr := if v.getLsbD 2 then false else s.herr }

/-- A refused host access sets `HERR` (spec/20_memory.md R84, R271). -/
def State.refuseAccess (s : State) : State := { s with herr := true }

/-- `RST` (spec/70_reset_and_hazards.md R290, R291): the values of R45, and memories of which nothing is
known. The parameters stay; what the host has read and what it will do next are not the block's. -/
def State.afterReset (s : State) : State :=
  { State.resetOf s.params (s.epoch + 1) with pending := s.pending, replies := s.replies }

end Sys2Proof.Machine
end

