-- ==== Sys2Proof/Machine/Operands.lean ====
section
/-! DEFINITION. Operands: how register fields are read (spec/30_encoding.md R94, R95), and the checks of
regions and lengths (spec/20_memory.md R66, R68; spec/60_exceptions.md R262, R264). -/

namespace Sys2Proof.Machine

open Sys2Proof

/-- `uval(x[r])`: an address, a length, an offset or a count (R95). -/
def State.uval (s : State) (r : Reg) : Nat := (s.reg r).toNat

/-- `sval(x[r])`: a signed integer (R95). -/
def State.sval (s : State) (r : Reg) : Int := (s.reg r).toInt

/-- The word an integer becomes in a register: its value modulo 2^64 (spec/00_scope.md R12). -/
def wordOfInt (v : Int) : Word := BitVec.ofInt 64 v

/-- The immediate of `LI`: 20 bits, sign-extended (R94). -/
def liImmediate (imm20 : BitVec 20) : Word := imm20.signExtend 64

/-- The round count of `CINIT`: 0 selects 81 (R94; spec/42_curl.md R155). -/
def roundCount (imm20 : BitVec 20) : BitVec 8 :=
  if imm20 = 0 then Config.curlDefaultRounds else imm20.setWidth 8

/-- The region of `n` cells of TM at `a` must lie inside TM (R66). -/
def inTM (s : State) (a n : Nat) : Check := ⟨s.params.nt < a + n, .addr, a⟩

/-- The region of `n` bytes of BM at `a` must lie inside BM (R66). -/
def inBM (s : State) (a n : Nat) : Check := ⟨s.params.nb < a + n, .addr, a⟩

/-- A trit count must be a multiple of 3 (spec/40_codec.md R116, R117). -/
def multipleOf3 (n : Nat) : Check := ⟨n % 3 ≠ 0, .len3, n⟩

/-- A tryte count must be even (R120). -/
def even (n : Nat) : Check := ⟨n % 2 ≠ 0, .lenOdd, n⟩

/-- A trit count must be 243 (R122; spec/44_signing.md R214). -/
def exactly243 (n : Nat) : Check := ⟨n ≠ 243, .len243, n⟩

/-- A byte count must be 48 (R124). -/
def exactly48 (n : Nat) : Check := ⟨n ≠ 48, .len48, n⟩

/-- A length must be a multiple of 243 (spec/43_kerl.md R180, R181). -/
def multipleOf243 (n : Nat) : Check := ⟨n % 243 ≠ 0, .len243, n⟩

/-- A length must be a positive multiple of 243 (spec/44_signing.md R207). -/
def positiveMultipleOf243 (n : Nat) : Check := ⟨n = 0 ∨ n % 243 ≠ 0, .len243, n⟩

/-- A key length must be a positive multiple of 6561 (R206). -/
def positiveMultipleOf6561 (n : Nat) : Check := ⟨n = 0 ∨ n % 6561 ≠ 0, .length, n⟩

/-- A count must be positive (R204, R214). -/
def positive (n : Nat) : Check := ⟨n = 0, .length, n⟩

/-- A bundle hash must not be empty (R214). -/
def hashPresent (n : Nat) : Check := ⟨n = 0, .noHash, 0⟩

/-- The region of a sponge data command, elements `o` to `L-1` of the array at `b` (R68): it must lie
inside TM, and the address reported is its start. -/
def arrayInTM (s : State) (b L o : Nat) : Check := ⟨s.params.nt < b + L, .addr, b + o⟩

/-- The checks of `CABSORB` and `CSQUEEZE`, in order (spec/42_curl.md R158, R159). -/
def curlChecks (s : State) (b L o : Nat) : List Check := [⟨L ≤ o, .offset, o⟩, arrayInTM s b L o]

/-- The checks of `KABSORB` and `KSQUEEZE`, in order (spec/43_kerl.md R180, R181). -/
def kerlChecks (s : State) (b L o : Nat) : List Check :=
  [multipleOf243 L, ⟨L ≤ o ∨ o % 243 ≠ 0, .offset, o⟩, arrayInTM s b L o]

end Sys2Proof.Machine
end

