-- ==== Sys2Proof/Machine/Adder.lean ====
section
/-! DEFINITION. The Ternary Adder command (spec/41_adder.md R142, R143). -/

namespace Sys2Proof.Machine

open Sys2Proof

/-- `TADD xa, xb, xc, xd, xe`: add two trit sequences, the final carry being dropped (R142, R143). -/
def execTadd (ra rb rc rd re : Reg) (s : State) : Host.Outcome State Fault Refusal :=
  let d := s.uval ra
  let pa := s.uval rb
  let la := s.uval rc
  let pb := s.uval rd
  let lb := s.uval re
  checked (.tadd ra rb rc rd re) [inTM s pa la, inTM s pb lb, inTM s d (max la lb)] (fun s =>
    .next (s.writeT d (tadd (s.readT pa la) (s.readT pb lb)))) s

end Sys2Proof.Machine
end

