-- ==== Sys2Proof/Machine/Bridge.lean ====
section
/-! DEFINITION. The binary bridge between 243 trits and 48 bytes (spec/40_codec.md R121, R123;
spec/20_memory.md R62). -/

namespace Sys2Proof.Machine

open Sys2Proof

/-- The 48 bytes of a 384-bit number, most significant byte first (spec/20_memory.md R62). -/
def bytes48 (u : Nat) : List Byte :=
  (List.range 48).map fun j => BitVec.ofNat 8 (u / 256 ^ (47 - j))

/-- The unsigned number a byte sequence denotes, most significant byte first (R62, R123). -/
def bytesValue (b : List Byte) : Nat := b.foldl (fun v c => 256 * v + c.toNat) 0

/-- The signed 384-bit number that 48 bytes denote (R123): the top bit of the first byte is its sign.
Written in powers of 256: `128 * 256^47` is 2^383 and `256^48` is 2^384. -/
def signed384 (u : Nat) : Int := if 128 * 256 ^ 47 ≤ u then (u : Int) - 256 ^ 48 else u

/-- A 243-trit sequence with its trit 242 forced to 0 (R121; spec/43_kerl.md R171, R175). -/
def clearTop (t : List Trit) : List Trit := t.set 242 .zero

/-- `t2b(t)` (R121): trit 242 is forced to 0, the value is taken modulo 2^384 = 256^48, most significant
byte first. -/
def t2b (t : List Trit) : List Byte := bytes48 ((btValue (clearTop t) % 256 ^ 48).toNat)

/-- `b2t(b)` (R123): the 243 trits of the signed number. -/
def b2t (b : List Byte) : List Trit := fixedTrits 243 (signed384 (bytesValue b))

end Sys2Proof.Machine
end

