-- ==== Sys2Proof/Machine/Codec.lean ====
section
/-! DEFINITION. The Ternary Codec commands and `LI` (spec/40_codec.md). -/

namespace Sys2Proof.Machine

open Sys2Proof

/-- `LI xa, imm` (R128). -/
def execLi (ra : Reg) (imm20 : BitVec 20) (s : State) : Host.Outcome State Fault Refusal :=
  .next (s.setReg ra (liImmediate imm20))

/-- `TRY2T xa, xb, xc`: trytes string to trits (R113). -/
def execTry2t (ra rb rc : Reg) (s : State) : Host.Outcome State Fault Refusal :=
  let d := s.uval ra
  let src := s.uval rb
  let n := s.uval rc
  checked (.try2t ra rb rc) [inBM s src n, inTM s d (3 * n)] (fun s =>
    match firstNonSymbol (s.readB src n) with
    | some i => raiseFault (.try2t ra rb rc) .symbol i s
    | none => .next (s.writeT d ((s.readB src n).flatMap tripleOf))) s

/-- `INT2T xa, xb, xc`: signed integer to trits, and the length (R115). -/
def execInt2t (ra rb rc : Reg) (s : State) : Host.Outcome State Fault Refusal :=
  let d := s.uval ra
  let out := intToTrits (s.sval rb)
  checked (.int2t ra rb rc) [inTM s d out.length] (fun s =>
    .next ((s.writeT d out).setReg rc (BitVec.ofNat 64 out.length))) s

/-- `T2TRY xa, xb, xc`: trits to trytes string (R116). -/
def execT2try (ra rb rc : Reg) (s : State) : Host.Outcome State Fault Refusal :=
  let d := s.uval ra
  let src := s.uval rb
  let n := s.uval rc
  checked (.t2try ra rb rc) [multipleOf3 n, inTM s src n, inBM s d (n / 3)] (fun s =>
    .next (s.writeB d (trytesOf (s.readT src n)))) s

/-- `T2INT xa, xb, xc`: trits to signed integer (R117). -/
def execT2int (ra rb rc : Reg) (s : State) : Host.Outcome State Fault Refusal :=
  let src := s.uval rb
  let n := s.uval rc
  checked (.t2int ra rb rc) [multipleOf3 n, inTM s src n] (fun s =>
    let v := btValue (s.readT src n)
    if v < -(2 ^ 63) ∨ 2 ^ 63 - 1 < v then raiseFault (.t2int ra rb rc) .intRange n s
    else .next (s.setReg ra (wordOfInt v))) s

/-- The code units of a byte sequence, low byte first (spec/20_memory.md R63). -/
def codeUnits : List Byte → List Nat
  | lo :: hi :: rest => (lo.toNat + 256 * hi.toNat) :: codeUnits rest
  | _ => []

/-- The two symbols of a code unit: `(unit mod 27, unit div 27)` (R118). -/
def unitSymbols (u : Nat) : List Byte := [symbolAt (u % 27), symbolAt (u / 27)]

/-- `STR2TRY xa, xb, xc`: code units to trytes (R119). -/
def execStr2try (ra rb rc : Reg) (s : State) : Host.Outcome State Fault Refusal :=
  let d := s.uval ra
  let src := s.uval rb
  let n := s.uval rc
  checked (.str2try ra rb rc) [inBM s src (2 * n), inBM s d (2 * n)] (fun s =>
    match (codeUnits (s.readB src (2 * n))).findIdx? (fun u => 728 < u) with
    | some i => raiseFault (.str2try ra rb rc) .codeUnit i s
    | none => .next (s.writeB d ((codeUnits (s.readB src (2 * n))).flatMap unitSymbols))) s

/-- The two bytes of each pair of symbols: the unit `first + 27*second`, low byte first (R118, R120). -/
def unitBytes : List Byte → List Byte
  | c1 :: c2 :: rest =>
    let u := symIndex c1 + 27 * symIndex c2
    BitVec.ofNat 8 (u % 256) :: BitVec.ofNat 8 (u / 256) :: unitBytes rest
  | _ => []

/-- `TRY2STR xa, xb, xc`: trytes to code units (R120). -/
def execTry2str (ra rb rc : Reg) (s : State) : Host.Outcome State Fault Refusal :=
  let d := s.uval ra
  let src := s.uval rb
  let n := s.uval rc
  checked (.try2str ra rb rc) [even n, inBM s src n, inBM s d n] (fun s =>
    match firstNonSymbol (s.readB src n) with
    | some i => raiseFault (.try2str ra rb rc) .symbol i s
    | none => .next (s.writeB d (unitBytes (s.readB src n)))) s

/-- `T2B xa, xb, xc`: 243 trits to 48 bytes (R122). -/
def execT2b (ra rb rc : Reg) (s : State) : Host.Outcome State Fault Refusal :=
  let d := s.uval ra
  let src := s.uval rb
  let n := s.uval rc
  checked (.t2b ra rb rc) [exactly243 n, inTM s src 243, inBM s d 48] (fun s =>
    .next (s.writeB d (t2b (s.readT src 243)))) s

/-- `B2T xa, xb, xc`: 48 bytes to 243 trits (R124). -/
def execB2t (ra rb rc : Reg) (s : State) : Host.Outcome State Fault Refusal :=
  let d := s.uval ra
  let src := s.uval rb
  let n := s.uval rc
  checked (.b2t ra rb rc) [exactly48 n, inBM s src 48, inTM s d 243] (fun s =>
    .next (s.writeT d (b2t (s.readB src 48)))) s

end Sys2Proof.Machine
end

