-- ==== Sys2Proof/Machine/CurlSponge.lean ====
section
/-! DEFINITION. The Curl permutation and its sponge functions (spec/42_curl.md R150 to R154). -/

namespace Sys2Proof.Machine

open Sys2Proof

/-- The index walk `p(i) = (364 * i) mod 729` (R151). -/
def curlWalk (i : Nat) : Fin 729 := ⟨(364 * i) % 729, Nat.mod_lt _ (by decide)⟩

/-- The 11 entries of the truth table (R152). Entries 3 and 7 are unused and unreachable (log
entry 14). -/
def curlTruthTable : List Trit :=
  [.pos, .zero, .neg, .zero, .pos, .neg, .zero, .zero, .neg, .pos, .zero]

/-- `F(a, b) = TABLE[a + 4*b + 5]` (R152). -/
def curlF (a b : Trit) : Trit := curlTruthTable.getD (a.toInt + 4 * b.toInt + 5).toNat .zero

/-- `curl_round(S)` (R153): every new cell from two cells of the old state. -/
def curlRound (S : Vector Trit 729) : Vector Trit 729 :=
  tabulate fun i => curlF S[(curlWalk i.val).val] S[(curlWalk (i.val + 1)).val]

/-- `curl_transform(S, r)` (R153). -/
def curlTransform : (rounds : Nat) → Vector Trit 729 → Vector Trit 729
  | 0, S => S
  | r + 1, S => curlTransform r (curlRound S)

/-- `S[0 .. len) <- m`: overwriting the first cells; the cells from `|m|` on keep their values (R154). -/
def curlOverwrite (S : Vector Trit 729) (m : List Trit) : Vector Trit 729 :=
  tabulate fun i => m.getD i.val S[i.val]

/-- `curl_absorb(S, m)` with round count `rounds` (R154). No trits leave the state as it is (log entry 20);
no command absorbs none (R158). -/
def curlAbsorb (rounds : Nat) (S : Vector Trit 729) (m : List Trit) : Vector Trit 729 :=
  (chunks243 m).foldl (fun S chunk => curlTransform rounds (curlOverwrite S chunk)) S

/-- The steps of `curl_squeeze` (R154): `turns` of them, `k` trits being still wanted. -/
def curlSqueezeSteps (rounds : Nat) :
    (turns : Nat) → (k : Nat) → Vector Trit 729 → List Trit × Vector Trit 729
  | 0, _, S => ([], S)
  | turns + 1, k, S =>
    let rest := curlSqueezeSteps rounds turns (k - 243) (curlTransform rounds S)
    (S.toList.take (min 243 k) ++ rest.1, rest.2)

/-- `curl_squeeze(S, k)` (R154): `ceil(k/243)` steps, a transform after each. `k = 0` takes no step (log
entry 20); no command squeezes 0 trits (R159). -/
def curlSqueeze (rounds : Nat) (S : Vector Trit 729) (k : Nat) : List Trit × Vector Trit 729 :=
  curlSqueezeSteps rounds ((k + 242) / 243) k S

end Sys2Proof.Machine
end

