-- ==== Sys2Proof/Machine/Curl.lean ====
section
/-! DEFINITION. The commands of the native sponge (spec/42_curl.md R155 to R159). -/

namespace Sys2Proof.Machine

open Sys2Proof

/-- `CINIT imm` (R155): the round count, and a zero state. An immediate above 255 is no command word; the
term then raises `ILLEGAL` with its word (R98). The decoder never yields it (log entry 13). -/
def execCinit (imm20 : BitVec 20) (s : State) : Host.Outcome State Fault Refusal :=
  if imm20.toNat ≤ 255 then .next ((s.setRounds (roundCount imm20)).setCurl zeroCurl)
  else raiseFault (.cinit imm20) .illegal (encode (.cinit imm20)).toNat s

/-- `CRESET` (R156): a zero state, the round count kept. -/
def execCreset (s : State) : Host.Outcome State Fault Refusal :=
  .next (s.setCurl zeroCurl)

/-- `CXFORM` (R157): the transform once. -/
def execCxform (s : State) : Host.Outcome State Fault Refusal :=
  .next (s.setCurl (curlTransform s.cr.toNat s.cs))

/-- `CABSORB xa, xb, xc` (R158). -/
def execCabsorb (ra rb rc : Reg) (s : State) : Host.Outcome State Fault Refusal :=
  let b := s.uval ra
  let L := s.uval rb
  let o := s.uval rc
  checked (.cabsorb ra rb rc) (curlChecks s b L o) (fun s =>
    .next (s.setCurl (curlAbsorb s.cr.toNat s.cs (s.readT (b + o) (L - o))))) s

/-- `CSQUEEZE xa, xb, xc` (R159). -/
def execCsqueeze (ra rb rc : Reg) (s : State) : Host.Outcome State Fault Refusal :=
  let b := s.uval ra
  let L := s.uval rb
  let o := s.uval rc
  checked (.csqueeze ra rb rc) (curlChecks s b L o) (fun s =>
    let out := curlSqueeze s.cr.toNat s.cs (L - o)
    .next ((s.setCurl out.2).writeT (b + o) out.1)) s

end Sys2Proof.Machine
end

