-- ==== Sys2Proof/Machine/Keccak.lean ====
section
/-! DEFINITION. The binary hash `H384` (spec/43_kerl.md R172) and Keccak-f[1600] (R173). Lane `A[x][y]`
is element `x + 5*y`. -/

namespace Sys2Proof.Machine

open Sys2Proof

/-- The 25 lanes `A[x][y]`, x and y in 0..4. -/
abbrev Lanes := Vector Word 25

/-- `A[x][y]`, indices modulo 5 (R173). -/
def laneAt (A : Lanes) (x y : Nat) : Word := A[x % 5 + 5 * (y % 5)]'(by omega)

/-- The lanes that hold `f x y` in lane `A[x][y]`. -/
def lanesOf (f : Nat → Nat → Word) : Lanes := tabulate fun i => f (i.val % 5) (i.val / 5)

/-- The rotation offsets `ROT[x][y]`, row x (R173). -/
def keccakRot : List (List Nat) :=
  [[0, 36, 3, 41, 18], [1, 44, 10, 45, 2], [62, 6, 43, 15, 61], [28, 55, 25, 21, 56],
   [27, 20, 39, 8, 14]]

/-- `ROT[x][y]`. -/
def rotAt (x y : Nat) : Nat := (keccakRot.getD (x % 5) []).getD (y % 5) 0

/-- A 64-bit constant from the two halves of its 16 digits as R173 prints them. -/
def halves (high low : BitVec 32) : Word := high ++ low

/-- The round constants `RC[0..23]` (R173), three to a line. -/
def keccakRC : List Word :=
  [halves 0x00000000 0x00000001, halves 0x00000000 0x00008082, halves 0x80000000 0x0000808A,
   halves 0x80000000 0x80008000, halves 0x00000000 0x0000808B, halves 0x00000000 0x80000001,
   halves 0x80000000 0x80008081, halves 0x80000000 0x00008009, halves 0x00000000 0x0000008A,
   halves 0x00000000 0x00000088, halves 0x00000000 0x80008009, halves 0x00000000 0x8000000A,
   halves 0x00000000 0x8000808B, halves 0x80000000 0x0000008B, halves 0x80000000 0x00008089,
   halves 0x80000000 0x00008003, halves 0x80000000 0x00008002, halves 0x80000000 0x00000080,
   halves 0x00000000 0x0000800A, halves 0x80000000 0x8000000A, halves 0x80000000 0x80008081,
   halves 0x80000000 0x00008080, halves 0x00000000 0x80000001, halves 0x80000000 0x80008008]

/-- `C[x]`: the exclusive or of a column (R173). -/
def columnParity (A : Lanes) (x : Nat) : Word :=
  laneAt A x 0 ^^^ laneAt A x 1 ^^^ laneAt A x 2 ^^^ laneAt A x 3 ^^^ laneAt A x 4

/-- The first three lines of a round: `A[x][y] <- A[x][y] XOR D[x]` (R173). -/
def keccakTheta (A : Lanes) : Lanes :=
  let C : Vector Word 5 := tabulate fun x => columnParity A x.val
  let D : Vector Word 5 := tabulate fun x =>
    C[(x.val + 4) % 5]'(by omega) ^^^ (C[(x.val + 1) % 5]'(by omega)).rotateLeft 1
  lanesOf fun x y => laneAt A x y ^^^ D[x % 5]'(by omega)

/-- `B[y][2x+3y] <- rol(A[x][y], ROT[x][y])` (R173). Read from the target: lane `B[x][y]` is written from
lane `A[x + 3y][x]`, the one solution of the two index equations modulo 5. -/
def keccakRhoPi (A : Lanes) : Lanes :=
  lanesOf fun x y => (laneAt A (x + 3 * y) x).rotateLeft (rotAt (x + 3 * y) x)

/-- `A[x][y] <- B[x][y] XOR ((NOT B[x+1][y]) AND B[x+2][y])` (R173). -/
def keccakChi (B : Lanes) : Lanes :=
  lanesOf fun x y => laneAt B x y ^^^ (~~~(laneAt B (x + 1) y) &&& laneAt B (x + 2) y)

/-- `A[0][0] <- A[0][0] XOR RC[r]` (R173). -/
def keccakIota (A : Lanes) (rc : Word) : Lanes :=
  lanesOf fun x y => if x = 0 ∧ y = 0 then laneAt A x y ^^^ rc else laneAt A x y

/-- One round of `keccak_f`. -/
def keccakRound (A : Lanes) (rc : Word) : Lanes :=
  keccakIota (keccakChi (keccakRhoPi (keccakTheta A))) rc

/-- `keccak_f(A)`: 24 rounds (R173). -/
def keccakF (A : Lanes) : Lanes := keccakRC.foldl keccakRound A

/-- A lane of the rate: 8 bytes, least significant first (R172). -/
def laneOfBytes (b : List Byte) : Word :=
  BitVec.ofNat 64 (b.foldr (fun c v => c.toNat + 256 * v) 0)

/-- The 8 bytes of a lane, least significant first (R172). -/
def bytesOfLane (v : Word) : List Byte :=
  (List.range 8).map fun i => BitVec.ofNat 8 (v.toNat / 256 ^ i)

/-- `pad(q)` (R172). -/
def keccakPad (q : Nat) : List Byte :=
  if q = 1 then [0x81] else [0x01] ++ List.replicate (q - 2) 0x00 ++ [0x80]

/-- Absorbing block number `k` of a padded message (R172): lane `i` of the 13 lanes of the rate goes into
`A[i mod 5][i div 5]`. -/
def keccakBlock (P : List Byte) (A : Lanes) (k : Nat) : Lanes :=
  keccakF <| lanesOf fun x y =>
    if x + 5 * y < 13 then
      laneAt A x y ^^^ laneOfBytes ((P.drop (104 * k + 8 * (x + 5 * y))).take 8)
    else laneAt A x y

/-- Keccak-384 as first submitted (R172), the default `H384`: 48 bytes. -/
def keccak384 (M : List Byte) : List Byte :=
  let P := M ++ keccakPad (104 - M.length % 104)
  let A := (List.range (P.length / 104)).foldl (keccakBlock P) (Vector.replicate 25 0)
  (List.range 6).flatMap fun i => bytesOfLane (laneAt A (i % 5) (i / 5))

/-- `H384` of an instance (R172): the default, or an unknown total function. -/
def h384 (hash : Config.HashChoice) (M : List Byte) : List Byte :=
  match hash with
  | .keccak384 => keccak384 M
  | .other k => bytes48 (Config.otherH384 k M).toNat

end Sys2Proof.Machine
end

