-- ==== Sys2Proof/Machine/KerlSponge.lean ====
section
/-! DEFINITION. The sponge functions of Kerl (spec/43_kerl.md R171, R174 to R178). -/

namespace Sys2Proof.Machine

open Sys2Proof

/-- `kerl_absorb(K, m)` (R174): 48 bytes for each 243-trit chunk, whose trit 242 is zeroed on a copy
(R171). The rule speaks of one whole chunk or more; for the rest see log entry 20. -/
def kerlAbsorb (K : List Byte) (m : List Trit) : List Byte :=
  K ++ (chunks243 m).flatMap fun chunk => t2b (clearTop chunk)

/-- `reseed(d)` (R178). -/
def reseed (order : Config.KerlReseed) (d : List Byte) : List Byte :=
  match order with
  | .reversed => d.reverse.map fun b => ~~~b
  | .forward => d.map fun b => ~~~b

/-- `kerl_squeeze1(K)` (R175): a chunk, and the next message. -/
def kerlSqueeze1 (p : Config.Params) (K : List Byte) : List Trit × List Byte :=
  let d := h384 p.hash K
  (clearTop (b2t d), reseed p.reseed d)

/-- `kerl_squeeze1` applied `n` times, concatenating the chunks and threading the message. -/
def kerlSqueezeChunks (p : Config.Params) : (n : Nat) → List Byte → List Trit × List Byte
  | 0, K => ([], K)
  | n + 1, K =>
    let one := kerlSqueeze1 p K
    let rest := kerlSqueezeChunks p n one.2
    (one.1 ++ rest.1, rest.2)

/-- `kerl_squeeze(K, k)` for `k` a positive multiple of 243 (R175); for the rest see log entry 20. -/
def kerlSqueeze (p : Config.Params) (K : List Byte) (k : Nat) : List Trit × List Byte :=
  kerlSqueezeChunks p (k / 243) K

/-- `kerl_digest(m)` (R177): a fresh context, absorb all of `m`, squeeze one hash. -/
def kerlDigest (p : Config.Params) (m : List Trit) : List Trit :=
  (kerlSqueeze1 p (kerlAbsorb [] m)).1

/-- `kerl_hash243(b)` (R176): `kerl_digest` of one block, the step of every hash chain. -/
def kerlHash243 (p : Config.Params) (b : List Trit) : List Trit := kerlDigest p b

/-- A hash chain: `kerl_hash243` applied `n` times (R205, R208, R210). -/
def hashChain (p : Config.Params) : (n : Nat) → List Trit → List Trit
  | 0, b => b
  | n + 1, b => hashChain p n (kerlHash243 p b)

end Sys2Proof.Machine
end

