-- ==== Sys2Proof/Machine/Kerl.lean ====
section
/-! DEFINITION. The commands of the hybrid sponge (spec/43_kerl.md R179 to R181). -/

namespace Sys2Proof.Machine

open Sys2Proof

/-- `KRESET` (R179): an empty message. -/
def execKreset (s : State) : Host.Outcome State Fault Refusal :=
  .next (s.setKerl [])

/-- `KABSORB xa, xb, xc` (R180). -/
def execKabsorb (ra rb rc : Reg) (s : State) : Host.Outcome State Fault Refusal :=
  let b := s.uval ra
  let L := s.uval rb
  let o := s.uval rc
  checked (.kabsorb ra rb rc) (kerlChecks s b L o) (fun s =>
    .next (s.setKerl (kerlAbsorb s.km (s.readT (b + o) (L - o))))) s

/-- `KSQUEEZE xa, xb, xc` (R181). -/
def execKsqueeze (ra rb rc : Reg) (s : State) : Host.Outcome State Fault Refusal :=
  let b := s.uval ra
  let L := s.uval rb
  let o := s.uval rc
  checked (.ksqueeze ra rb rc) (kerlChecks s b L o) (fun s =>
    let out := kerlSqueeze s.params s.km (L - o)
    .next ((s.setKerl out.2).writeT (b + o) out.1)) s

end Sys2Proof.Machine
end

