-- ==== Sys2Proof/Machine/OneTimeSignature.lean ====
section
/-! DEFINITION. The functions of the one-time-signature engine (spec/44_signing.md R199 to R213). -/

namespace Sys2Proof.Machine

open Sys2Proof

/-- Decrementing the first element that is above -13 (R201). -/
def decrementFirst : List Int → List Int
  | [] => []
  | v :: rest => if v > -13 then (v - 1) :: rest else v :: decrementFirst rest

/-- Incrementing the first element that is below 13 (R201). -/
def incrementFirst : List Int → List Int
  | [] => []
  | v :: rest => if v < 13 then (v + 1) :: rest else v :: incrementFirst rest

/-- `f` applied `n` times. -/
def repeatedly (f : List Int → List Int) : (n : Nat) → List Int → List Int
  | 0, v => v
  | n + 1, v => repeatedly f n (f v)

/-- One group of `normalize` (R201): each unit step changes the sum by one, so a sum `s` takes `|s|`
steps. -/
def normalizeGroup (v : List Int) : List Int :=
  if 0 < v.sum then repeatedly decrementFirst v.sum.toNat v
  else repeatedly incrementFirst (-v.sum).toNat v

/-- Group `g` of 27 elements of a list of 81 (R200). -/
def groupOf (v : List Int) (g : Nat) : List Int := (v.drop (27 * g)).take 27

/-- `normalize(h)` on a 243-trit hash: 81 values (R201). -/
def normalize (h : List Trit) : List Int :=
  let v := tryteValues h
  normalizeGroup (groupOf v 0) ++ normalizeGroup (groupOf v 1) ++ normalizeGroup (groupOf v 2)

/-- The seed padded with zero trits to a multiple of 243 (R203). -/
def padSeed (seed : List Trit) : List Trit := seed ++ zeros ((243 - seed.length % 243) % 243)

/-- The subseed of an index: the padded seed plus the index (R203). -/
def subseed (seed : List Trit) (index : Int) : List Trit := tadd (padSeed seed) (intToTrits index)

/-- `keygen(seed, index, s)` (R203): absorb, squeeze as many trits, reset, absorb, squeeze the key. -/
def keygen (p : Config.Params) (seed : List Trit) (index : Int) (security : Nat) : List Trit :=
  let sub := subseed seed index
  let sub' := (kerlSqueeze p (kerlAbsorb [] sub) (padSeed seed).length).1
  (kerlSqueeze p (kerlAbsorb [] sub') (6561 * security)).1

/-- The 27 sub-blocks of a fragment, sub-block `i` hashed `chain i` times, end to end (R205, R208,
R210). -/
def chainBlocks (p : Config.Params) (chain : Nat → Nat) (fragment : List Trit) : List Trit :=
  (List.range 27).flatMap fun i => hashChain p (chain i) (piece 243 fragment i)

/-- The digest of one key fragment: 26 hashes of each sub-block (R205). -/
def fragmentDigest (p : Config.Params) (fragment : List Trit) : List Trit :=
  kerlDigest p (chainBlocks p (fun _ => 26) fragment)

/-- `digests(key)` (R205): one digest per 6561-trit fragment. -/
def digestsOf (p : Config.Params) (key : List Trit) : List Trit :=
  (List.range (key.length / 6561)).flatMap fun f => fragmentDigest p (piece 6561 key f)

/-- `sig_digest(nf, sig)` (R208): chains of length `nf[i] + 13`. -/
def sigDigest (p : Config.Params) (nf : List Int) (sig : List Trit) : List Trit :=
  kerlDigest p (chainBlocks p (fun i => (nf.getD i 0 + 13).toNat) sig)

/-- `sig_frag(nf, kf)` (R210): chains of length `13 - nf[i]`. Where `nf[i]` is 13 the chain is empty and
sub-block `i` of the key passes through unchanged, its trit 242 included, as R210, R211 and R215 have it;
spec/70_reset_and_hazards.md R300 says otherwise of that trit, and the spec does not say which holds: THE
MODEL'S CHOICE (log entry 22). -/
def sigFrag (p : Config.Params) (nf : List Int) (kf : List Trit) : List Trit :=
  chainBlocks p (fun i => (13 - nf.getD i 0).toNat) kf

/-- The digests `D_0 ++ ... ++ D_{k-1}` of signature fragments, the groups used cyclically (R213). -/
def signatureDigests (p : Config.Params) (frags : List Trit) (h : List Trit) : List Trit :=
  (List.range (frags.length / 6561)).flatMap fun j =>
    sigDigest p (groupOf (normalize h) (j % 3)) (piece 6561 frags j)

/-- `validate(addr, frags, h)` (R213): all 243 trits are compared. -/
def validate (p : Config.Params) (addr frags h : List Trit) : Bool :=
  kerlDigest p (signatureDigests p frags h) == addr

/-- The address of a key, as its owner derives it: `kerl_digest(digests(key))` (R216; the commands
`DIGESTS` and `ADDRESS`, R206, R207). -/
def addressOf (p : Config.Params) (key : List Trit) : List Trit := kerlDigest p (digestsOf p key)

/-- The signature of a hash with a key (R216): fragment `j` of the key signs group `j mod 3` of the
normalized hash (the commands `NORMALIZE` and `SIGFRAG`, R202, R211), the results end to end. -/
def signatureOf (p : Config.Params) (key h : List Trit) : List Trit :=
  (List.range (key.length / 6561)).flatMap fun j =>
    sigFrag p (groupOf (normalize h) (j % 3)) (piece 6561 key j)

end Sys2Proof.Machine
end

