-- ==== Sys2Proof/Machine/Signing.lean ====
section
/-! DEFINITION. The commands of the one-time-signature engine (spec/44_signing.md). They hash in private
contexts: `KM`, `CS` and `CR` are neither read nor written (spec/10_state.md R31). -/

namespace Sys2Proof.Machine

open Sys2Proof

/-- `KEYGEN xa, xb, xc, xd, xe`: derive a private key (R204). -/
def execKeygen (ra rb rc rd re : Reg) (s : State) : Host.Outcome State Fault Refusal :=
  let d := s.uval ra
  let ps := s.uval rb
  let ls := s.uval rc
  let idx := s.sval rd
  let sec := s.uval re
  checked (.keygen ra rb rc rd re)
    [positive ls, positive sec, inTM s ps ls, inTM s d (6561 * sec)] (fun s =>
    .next (s.writeT d (keygen s.params (s.readT ps ls) idx sec))) s

/-- `DIGESTS xa, xb, xc`: public digests of a key (R206). -/
def execDigests (ra rb rc : Reg) (s : State) : Host.Outcome State Fault Refusal :=
  let d := s.uval ra
  let pk := s.uval rb
  let lk := s.uval rc
  checked (.digests ra rb rc)
    [positiveMultipleOf6561 lk, inTM s pk lk, inTM s d (243 * (lk / 6561))] (fun s =>
    .next (s.writeT d (digestsOf s.params (s.readT pk lk)))) s

/-- `ADDRESS xa, xb, xc`: address of a digest list (R207). -/
def execAddress (ra rb rc : Reg) (s : State) : Host.Outcome State Fault Refusal :=
  let d := s.uval ra
  let pd := s.uval rb
  let ld := s.uval rc
  checked (.address ra rb rc) [positiveMultipleOf243 ld, inTM s pd ld, inTM s d 243] (fun s =>
    .next (s.writeT d (kerlDigest s.params (s.readT pd ld)))) s

/-- `SIGDIGEST xa, xb, xc`: digest a signature fragment (R209). -/
def execSigdigest (ra rb rc : Reg) (s : State) : Host.Outcome State Fault Refusal :=
  let d := s.uval ra
  let pn := s.uval rb
  let pf := s.uval rc
  checked (.sigdigest ra rb rc) [inTM s pn 81, inTM s pf 6561, inTM s d 243] (fun s =>
    .next (s.writeT d (sigDigest s.params (tryteValues (s.readT pn 81)) (s.readT pf 6561)))) s

/-- `SIGFRAG xa, xb, xc`: sign with one key fragment (R211). What becomes of trit 242 of a sub-block whose
element is 13: log entry 22. -/
def execSigfrag (ra rb rc : Reg) (s : State) : Host.Outcome State Fault Refusal :=
  let d := s.uval ra
  let pn := s.uval rb
  let pk := s.uval rc
  checked (.sigfrag ra rb rc) [inTM s pn 81, inTM s pk 6561, inTM s d 6561] (fun s =>
    .next (s.writeT d (sigFrag s.params (tryteValues (s.readT pn 81)) (s.readT pk 6561)))) s

/-- `NORMALIZE xa, xb`: normalize a hash (R202). -/
def execNormalize (ra rb : Reg) (s : State) : Host.Outcome State Fault Refusal :=
  let d := s.uval ra
  let src := s.uval rb
  checked (.normalize ra rb) [inTM s src 243, inTM s d 243] (fun s =>
    .next (s.writeT d (valuesToTrits (normalize (s.readT src 243))))) s

/-- `VALIDATE xa, xb, xc, xd, xe, xf`: verify signature fragments against an address (R214). A mismatch is
the verdict 0, not a fault. -/
def execValidate (ra rb rc rd re rf : Reg) (s : State) : Host.Outcome State Fault Refusal :=
  let pa := s.uval rb
  let pf := s.uval rc
  let k := s.uval rd
  let ph := s.uval re
  let lh := s.uval rf
  checked (.validate ra rb rc rd re rf)
    [hashPresent lh, exactly243 lh, positive k, inTM s pa 243, inTM s pf (6561 * k), inTM s ph 243]
    (fun s =>
      let verdict := validate s.params (s.readT pa 243) (s.readT pf (6561 * k)) (s.readT ph 243)
      .next (s.setReg ra (if verdict then 1 else 0))) s

end Sys2Proof.Machine
end

