-- ==== Sys2Proof/Machine/Dispatch.lean ====
section
/-! DEFINITION. The meaning of each command (spec/30_encoding.md R97), one arm per constructor. -/

namespace Sys2Proof.Machine

open Sys2Proof

-- The effect of a command on the state, the engine being READY (spec/10_state.md R42).
def exec (i : Instr) (s : State) : Host.Outcome State Fault Refusal :=
  match i with
  | .li ra imm20 => Sys2Proof.Machine.execLi ra imm20 s
  | .try2t ra rb rc => Sys2Proof.Machine.execTry2t ra rb rc s
  | .int2t ra rb rc => Sys2Proof.Machine.execInt2t ra rb rc s
  | .t2try ra rb rc => Sys2Proof.Machine.execT2try ra rb rc s
  | .t2int ra rb rc => Sys2Proof.Machine.execT2int ra rb rc s
  | .str2try ra rb rc => Sys2Proof.Machine.execStr2try ra rb rc s
  | .try2str ra rb rc => Sys2Proof.Machine.execTry2str ra rb rc s
  | .t2b ra rb rc => Sys2Proof.Machine.execT2b ra rb rc s
  | .b2t ra rb rc => Sys2Proof.Machine.execB2t ra rb rc s
  | .tadd ra rb rc rd re => Sys2Proof.Machine.execTadd ra rb rc rd re s
  | .cinit imm20 => Sys2Proof.Machine.execCinit imm20 s
  | .creset => Sys2Proof.Machine.execCreset s
  | .cxform => Sys2Proof.Machine.execCxform s
  | .cabsorb ra rb rc => Sys2Proof.Machine.execCabsorb ra rb rc s
  | .csqueeze ra rb rc => Sys2Proof.Machine.execCsqueeze ra rb rc s
  | .kreset => Sys2Proof.Machine.execKreset s
  | .kabsorb ra rb rc => Sys2Proof.Machine.execKabsorb ra rb rc s
  | .ksqueeze ra rb rc => Sys2Proof.Machine.execKsqueeze ra rb rc s
  | .keygen ra rb rc rd re => Sys2Proof.Machine.execKeygen ra rb rc rd re s
  | .digests ra rb rc => Sys2Proof.Machine.execDigests ra rb rc s
  | .address ra rb rc => Sys2Proof.Machine.execAddress ra rb rc s
  | .sigdigest ra rb rc => Sys2Proof.Machine.execSigdigest ra rb rc s
  | .sigfrag ra rb rc => Sys2Proof.Machine.execSigfrag ra rb rc s
  | .normalize ra rb => Sys2Proof.Machine.execNormalize ra rb s
  | .validate ra rb rc rd re rf => Sys2Proof.Machine.execValidate ra rb rc rd re rf s

end Sys2Proof.Machine
end

