-- ==== Sys2Proof/Machine/Flags.lean ====
section
/-! DEFINITION. The block has no condition codes, carry flags or predicates (spec/10_state.md R25). Its
only status bits are those of `STATUS` (R34); this file computes them and the codes of `CAUSE`
(spec/60_exceptions.md R261). -/

namespace Sys2Proof.Machine

open Sys2Proof

/-- A bit as a number. -/
def bitOf (b : Bool) : Nat := if b then 1 else 0

/-- `STATUS` (R34): bit 0 `ERR`, 1 exactly when `ES = FAULTED`; bit 1 `DROP`; bit 2 `HERR`; the other bits
read as 0. -/
def State.status (s : State) : Word :=
  BitVec.ofNat 64 (bitOf (s.es == .faulted) + 2 * bitOf s.drop + 4 * bitOf s.herr)

/-- The cause codes (R261). -/
def causeCode : Cause → Nat
  | .noFault => 0
  | .illegal => 1
  | .addr => 2
  | .symbol => 3
  | .len3 => 4
  | .len243 => 5
  | .len48 => 6
  | .codeUnit => 7
  | .lenOdd => 8
  | .offset => 9
  | .noHash => 10
  | .intRange => 11
  | .length => 12

end Sys2Proof.Machine
end

