-- ==== Sys2Proof/Machine/HostPort.lean ====
section
/-! DEFINITION. The host port (spec/20_memory.md R80 to R84) and the control registers
(spec/10_state.md R33 to R42). -/

namespace Sys2Proof.Machine

open Sys2Proof

/-! ### The map (R80) -/

/-- The control registers (R33). -/
inductive Csr where
  | cmd | status | ack | cause | info | ecmd | crounds | klen | cfgNt | cfgNb
  deriving DecidableEq, Repr

/-- What an offset names (R80). -/
inductive Port where
  /-- a control register -/
  | csr (c : Csr)
  /-- a general register -/
  | reg (r : Reg)
  /-- a cell of TM, through the T window -/
  | trit (a : Nat)
  /-- a byte of BM, through the B window -/
  | byte (a : Nat)
  deriving DecidableEq, Repr

/-- The control register at an offset (R33). An offset inside a register that is not its first names
nothing (log entry 11). -/
def csrAt : Nat → Option Csr
  | 0x000 => some .cmd
  | 0x008 => some .status
  | 0x010 => some .ack
  | 0x018 => some .cause
  | 0x020 => some .info
  | 0x028 => some .ecmd
  | 0x030 => some .crounds
  | 0x038 => some .klen
  | 0x040 => some .cfgNt
  | 0x048 => some .cfgNb
  | _ => none

/-- The map of the port (R80); none where the offset is unmapped. -/
def portAt (p : Config.Params) (offset : Nat) : Option Port :=
  if offset < 0x80 then (csrAt offset).map .csr
  else if offset < 0x100 then
    if offset % 8 = 0 then some (.reg (Fin.ofNat 16 ((offset - 0x80) / 8))) else none
  else if 0x100000 ≤ offset ∧ offset < 0x100000 + p.nt then some (.trit (offset - 0x100000))
  else if 0x200000 ≤ offset ∧ offset < 0x200000 + p.nb then some (.byte (offset - 0x200000))
  else none

/-- The access unit, in bits (R80). -/
def unitWidth : Port → Nat
  | .csr .cmd => 32
  | .csr _ => 64
  | .reg _ => 64
  | .trit _ => 8
  | .byte _ => 8

/-- What an access reaches: none where the offset is unmapped or the width is not the unit (R84). -/
def accessAt (p : Config.Params) (offset width : Nat) : Option Port :=
  match portAt p offset with
  | some port => if unitWidth port = width then some port else none
  | none => none

/-! ### Trits at the T window (R83) -/

/-- A trit as a two's-complement byte. -/
def tritByte : Trit → Byte
  | .zero => 0x00
  | .pos => 0x01
  | .neg => 0xFF

/-- The trit a byte stands for, if it stands for one. -/
def byteTrit (b : Byte) : Option Trit :=
  if b = 0x00 then some .zero else if b = 0x01 then some .pos
  else if b = 0xFF then some .neg else none

/-! ### Reads -/

/-- `HostReadCSR` (R81, R33 to R40); none for a write-only register. -/
def hostReadCsr (s : State) : Csr → Option Word
  | .cmd => none
  | .status => some s.status
  | .ack => none
  | .cause => some (BitVec.ofNat 64 (causeCode s.cause))
  | .info => some s.info
  | .ecmd => some (s.ecmd.setWidth 64)
  | .crounds => some (s.cr.setWidth 64)
  | .klen => some (BitVec.ofNat 64 s.km.length)
  | .cfgNt => some (BitVec.ofNat 64 s.params.nt)
  | .cfgNb => some (BitVec.ofNat 64 s.params.nb)

/-- `HostReadX(i)` (R82). -/
def hostReadX (s : State) (r : Reg) : Word := s.reg r

/-- `HostReadT(a)` (R83). -/
def hostReadT (s : State) (a : Nat) : Byte := tritByte (s.tmAt a)

/-- `HostReadB(a)` (R84). -/
def hostReadB (s : State) (a : Nat) : Byte := s.bmAt a

/-- The value a read of a port returns; none where it is refused. -/
def portRead (s : State) : Port → Option Word
  | .csr c => hostReadCsr s c
  | .reg r => some (hostReadX s r)
  | .trit a => some ((hostReadT s a).setWidth 64)
  | .byte a => some ((hostReadB s a).setWidth 64)

/-- The host receives a value. -/
def State.reply (s : State) (v : Word) : State := { s with replies := v :: s.replies }

/-- A read on the port: the value, or 0 and `HERR <- 1` where it is refused (R84). -/
def hostRead (offset width : Nat) (s : State) : State :=
  match (accessAt s.params offset width).bind (portRead s) with
  | some v => s.reply v
  | none => s.refuseAccess.reply 0

/-! ### Writes -/

/-- A 32-bit write of `w` to `CMD` (R42, R267): a command, or nothing but `DROP <- 1` while FAULTED. An
illegal word raises `Fault(ILLEGAL, w)` (spec/30_encoding.md R98). -/
def issueCommand (w : CommandWord) (s : State) : Host.Outcome State Fault Refusal :=
  match s.es with
  | .faulted => .next s.dropCommand
  | .ready =>
    match decode w with
    | .command i => exec i s
    | .illegal _ => .next (s.enterFault w .illegal w.toNat)

/-- `HostWriteCSR` (R81, R33): `CMD` runs a command, `ACK` acknowledges, any other register is read-only
and the write is refused. -/
def hostWriteCsr (c : Csr) (v : Word) (s : State) : Host.Outcome State Fault Refusal :=
  match c with
  | .cmd => issueCommand (v.setWidth 32) s
  | .ack => .next (s.acknowledge v)
  | _ => .next s.refuseAccess

/-- `HostWriteX(i, v)` (R82). -/
def hostWriteX (r : Reg) (v : Word) (s : State) : State := s.setReg r v

/-- `HostWriteT(a, b)` (R83): refused unless `b` is a trit. -/
def hostWriteT (a : Nat) (b : Byte) (s : State) : State :=
  match byteTrit b with
  | some t => s.writeT a [t]
  | none => s.refuseAccess

/-- `HostWriteB(a, b)` (R84). -/
def hostWriteB (a : Nat) (b : Byte) (s : State) : State := s.writeB a [b]

/-- A write on the port of the low bits of `v`, as many as the access is wide (R80, R84). -/
def hostWrite (offset width : Nat) (v : Word) (s : State) : Host.Outcome State Fault Refusal :=
  match accessAt s.params offset width with
  | some (.csr c) => hostWriteCsr c v s
  | some (.reg r) => .next (hostWriteX r v s)
  | some (.trit a) => .next (hostWriteT a (v.setWidth 8) s)
  | some (.byte a) => .next (hostWriteB a (v.setWidth 8) s)
  | none => .next s.refuseAccess

/-- One host action (spec/46_sequencing_and_system.md R221). -/
def performAction (a : HostAction) (s : State) : Host.Outcome State Fault Refusal :=
  match a with
  | .read offset width => .next (hostRead offset width s)
  | .write offset width v => hostWrite offset width v s
  | .assertReset => .next s.afterReset

/-- The host's next action, with the state in which it is the next no more. With no action left the block
does nothing (R295). -/
def performNext (s : State) : Host.Outcome State Fault Refusal :=
  match s.pending with
  | [] => .next s
  | a :: rest => performAction a { s with pending := rest }

/-- A program: its actions performed from left to right (R221: `run = fold step`). -/
def performAll : List HostAction → State → Host.Outcome State Fault Refusal
  | [], s => .next s
  | a :: rest, s =>
    match performAction a s with
    | .next t => performAll rest t
    | .fault f => .fault f
    | .refused r => .refused r

/-- The host action that writes the command word `w` to `CMD` (R42). -/
def commandAction (w : CommandWord) : HostAction := .write 0x000 32 (w.setWidth 64)

end Sys2Proof.Machine
end

