-- ==== Sys2Proof/Machine/Step.lean ====
section
/-! DEFINITION. The step: the next action of the host (spec/46_sequencing_and_system.md R221, log
entry 1). -/

namespace Sys2Proof.Machine

open Sys2Proof

/-- One step: the first of the pending host actions is performed. -/
def step (s : State) : Host.Outcome State Fault Refusal := performNext s

/-- The state in which the next host action writes the command word `w` to `CMD`: the block does not fetch
(spec/10_state.md R24), the next command is the next word the host writes. -/
def State.withFetchWord (s : State) (nbits w : Nat) : State :=
  { s with pending := commandAction (tableWord nbits w) :: s.pending }

end Sys2Proof.Machine
end

