-- ==== Sys2Proof/Safety.lean ====
section
/-! DEFINITION. What claims about the block are stated with: the invariant of its states, what a command
leaves unchanged, and what a safe step is. -/

namespace Sys2Proof.Machine

open Sys2Proof

/-- What holds of every state the block can be in (spec/10_state.md R26 to R29, R32, R35;
spec/20_memory.md R66, R80). -/
structure State.Inv (s : State) : Prop where
  /-- TM is in canonical form -/
  tmWf : Memory.wf s.tm = true
  /-- no cell outside TM is written (R66) -/
  tmWithin : Memory.within s.tm s.params.nt = true
  /-- BM is in canonical form -/
  bmWf : Memory.wf s.bm = true
  /-- no byte outside BM is written (R66) -/
  bmWithin : Memory.within s.bm s.params.nb = true
  /-- `NT` may not exceed 0x100000 (R80) -/
  ntLegal : s.params.nt ≤ Config.windowLimit
  /-- `NB` may not exceed 0x100000 (R80) -/
  nbLegal : s.params.nb ≤ Config.windowLimit
  /-- `CR` is 1 to 255 (R28) -/
  roundsLegal : s.cr ≠ 0
  /-- `|KM|` is a multiple of 48 (R29) -/
  messageWhole : s.km.length % 48 = 0
  /-- a FAULTED engine has a cause (R32, R35) -/
  faultedHasCause : s.es = .faulted → s.cause ≠ .noFault
  /-- `CAUSE`, `INFO` and `ECMD` are written together, on fault entry only (R35 to R37) -/
  noCauseNoInfo : s.cause = .noFault → s.info = 0 ∧ s.ecmd = 0

/-- A step that does not stop. -/
def SafeStep (s : State) : Prop := ∃ t, step s = .next t

/-! ### What is unchanged from `s` to `t` -/

/-- Every register except `r`. -/
def SameRegsBut (r : Reg) (s t : State) : Prop := ∀ q, q ≠ r → t.reg q = s.reg q

/-- Every register. -/
def SameRegs (s t : State) : Prop := ∀ q, t.reg q = s.reg q

/-- Every cell of TM outside the `n` cells from `d` up. -/
def SameTMBut (d n : Nat) (s t : State) : Prop :=
  ∀ a, a < d ∨ d + n ≤ a → t.tmAt a = s.tmAt a

/-- Every cell of TM. -/
def SameTM (s t : State) : Prop := ∀ a, t.tmAt a = s.tmAt a

/-- Every byte of BM outside the `n` bytes from `d` up. -/
def SameBMBut (d n : Nat) (s t : State) : Prop :=
  ∀ a, a < d ∨ d + n ≤ a → t.bmAt a = s.bmAt a

/-- Every byte of BM. -/
def SameBM (s t : State) : Prop := ∀ a, t.bmAt a = s.bmAt a

/-- The Curl unit. -/
def SameCurl (s t : State) : Prop := t.cs = s.cs ∧ t.cr = s.cr

/-- The Kerl unit. -/
def SameKerl (s t : State) : Prop := t.km = s.km

/-- The engine state, the fault registers and the sticky bits. -/
def SameControl (s t : State) : Prop :=
  t.es = s.es ∧ t.drop = s.drop ∧ t.herr = s.herr ∧ t.cause = s.cause ∧ t.info = s.info
    ∧ t.ecmd = s.ecmd

/-- The parameters and the model's own fields. -/
def SameModel (s t : State) : Prop :=
  t.params = s.params ∧ t.epoch = s.epoch ∧ t.pending = s.pending ∧ t.replies = s.replies

/-- A command that writes one register and nothing else. -/
structure OnlyReg (r : Reg) (s t : State) : Prop where
  regs : SameRegsBut r s t
  tm : SameTM s t
  bm : SameBM s t
  curl : SameCurl s t
  kerl : SameKerl s t
  control : SameControl s t
  model : SameModel s t

/-- A command that writes the `n` cells of TM from `d` up and nothing else. -/
structure OnlyTM (d n : Nat) (s t : State) : Prop where
  regs : SameRegs s t
  tm : SameTMBut d n s t
  bm : SameBM s t
  curl : SameCurl s t
  kerl : SameKerl s t
  control : SameControl s t
  model : SameModel s t

/-- A command that writes the `n` bytes of BM from `d` up and nothing else. -/
structure OnlyBM (d n : Nat) (s t : State) : Prop where
  regs : SameRegs s t
  tm : SameTM s t
  bm : SameBMBut d n s t
  curl : SameCurl s t
  kerl : SameKerl s t
  control : SameControl s t
  model : SameModel s t

/-- A command that writes the Curl unit and nothing else. -/
structure OnlyCurl (s t : State) : Prop where
  regs : SameRegs s t
  tm : SameTM s t
  bm : SameBM s t
  kerl : SameKerl s t
  control : SameControl s t
  model : SameModel s t

/-- A command that writes the Kerl message and nothing else. -/
structure OnlyKerl (s t : State) : Prop where
  regs : SameRegs s t
  tm : SameTM s t
  bm : SameBM s t
  curl : SameCurl s t
  control : SameControl s t
  model : SameModel s t

/-- Nothing but the engine state, the fault registers and the sticky bits may differ (R265). -/
structure OnlyControl (s t : State) : Prop where
  regs : SameRegs s t
  tm : SameTM s t
  bm : SameBM s t
  curl : SameCurl s t
  kerl : SameKerl s t
  model : SameModel s t

/-- `t` is `s` after the fault entry of R266 with cause `c`, auxiliary value `info` and command word `w`:
the four registers as the rule says, and nothing else changed. -/
def TakesFault (s t : State) (w : CommandWord) (c : Cause) (info : Nat) : Prop :=
  t.cause = c ∧ t.info = BitVec.ofNat 64 info ∧ t.ecmd = w ∧ t.es = .faulted
    ∧ t.drop = s.drop ∧ t.herr = s.herr ∧ OnlyControl s t

/-- The command `i` raises the fault `c` with auxiliary value `info`, and that is all it does. -/
def Raises (i : Instr) (s : State) (c : Cause) (info : Nat) : Prop :=
  ∃ t, exec i s = .next t ∧ TakesFault s t (encode i) c info

/-! ### Which command raises what, as the table of spec/60_exceptions.md R262 lists it -/

/-- The fault `c` with auxiliary value `info`, where `p` holds. -/
def faultIf (p : Prop) [Decidable p] (c : Cause) (info : Nat) : Option (Cause × Nat) :=
  if p then some (c, info) else none

/-- The index of the first of `n` elements that is bad, and the fault it raises (R264, point 4). -/
def firstBad (n : Nat) (bad : Nat → Bool) (c : Cause) : Option (Cause × Nat) :=
  ((List.range n).find? bad).map fun i => (c, i)

/-- The code unit number `i` of a text at `src` (spec/20_memory.md R63). -/
def State.codeUnitAt (s : State) (src i : Nat) : Nat :=
  (s.bmAt (src + 2 * i)).toNat + 256 * (s.bmAt (src + 2 * i + 1)).toNat

/-- The checks of each command in the order of R262 and R264, each with the fault it raises where its
condition holds, transcribed from the table and not from the meanings. -/
def faultTable (i : Instr) (s : State) : List (Option (Cause × Nat)) :=
  let u := s.uval
  let nt := s.params.nt
  let nb := s.params.nb
  match i with
  | .li _ _ | .creset | .cxform | .kreset => []
  | .cinit imm20 => [faultIf (255 < imm20.toNat) .illegal (encode (.cinit imm20)).toNat]
  | .try2t ra rb rc =>
    [faultIf (u rb + u rc > nb) .addr (u rb), faultIf (u ra + 3 * u rc > nt) .addr (u ra),
     firstBad (u rc) (fun j => !inAlphabet (s.bmAt (u rb + j))) .symbol]
  | .int2t ra rb _ => [faultIf (u ra + (intToTrits (s.sval rb)).length > nt) .addr (u ra)]
  | .t2try ra rb rc =>
    [faultIf (u rc % 3 ≠ 0) .len3 (u rc), faultIf (u rb + u rc > nt) .addr (u rb),
     faultIf (u ra + u rc / 3 > nb) .addr (u ra)]
  | .t2int _ rb rc =>
    [faultIf (u rc % 3 ≠ 0) .len3 (u rc), faultIf (u rb + u rc > nt) .addr (u rb),
     faultIf (btValue (s.readT (u rb) (u rc)) < -(2 ^ 63)
       ∨ btValue (s.readT (u rb) (u rc)) > 2 ^ 63 - 1) .intRange (u rc)]
  | .str2try ra rb rc =>
    [faultIf (u rb + 2 * u rc > nb) .addr (u rb), faultIf (u ra + 2 * u rc > nb) .addr (u ra),
     firstBad (u rc) (fun j => decide (s.codeUnitAt (u rb) j > 728)) .codeUnit]
  | .try2str ra rb rc =>
    [faultIf (u rc % 2 ≠ 0) .lenOdd (u rc), faultIf (u rb + u rc > nb) .addr (u rb),
     faultIf (u ra + u rc > nb) .addr (u ra),
     firstBad (u rc) (fun j => !inAlphabet (s.bmAt (u rb + j))) .symbol]
  | .t2b ra rb rc =>
    [faultIf (u rc ≠ 243) .len243 (u rc), faultIf (u rb + 243 > nt) .addr (u rb),
     faultIf (u ra + 48 > nb) .addr (u ra)]
  | .b2t ra rb rc =>
    [faultIf (u rc ≠ 48) .len48 (u rc), faultIf (u rb + 48 > nb) .addr (u rb),
     faultIf (u ra + 243 > nt) .addr (u ra)]
  | .tadd ra rb rc rd re =>
    [faultIf (u rb + u rc > nt) .addr (u rb), faultIf (u rd + u re > nt) .addr (u rd),
     faultIf (u ra + max (u rc) (u re) > nt) .addr (u ra)]
  | .cabsorb ra rb rc | .csqueeze ra rb rc =>
    [faultIf (u rc ≥ u rb) .offset (u rc), faultIf (u ra + u rb > nt) .addr (u ra + u rc)]
  | .kabsorb ra rb rc | .ksqueeze ra rb rc =>
    [faultIf (u rb % 243 ≠ 0) .len243 (u rb),
     faultIf (u rc ≥ u rb ∨ u rc % 243 ≠ 0) .offset (u rc),
     faultIf (u ra + u rb > nt) .addr (u ra + u rc)]
  | .keygen ra rb rc _ re =>
    [faultIf (u rc = 0) .length 0, faultIf (u re = 0) .length 0,
     faultIf (u rb + u rc > nt) .addr (u rb), faultIf (u ra + 6561 * u re > nt) .addr (u ra)]
  | .digests ra rb rc =>
    [faultIf (u rc = 0 ∨ u rc % 6561 ≠ 0) .length (u rc), faultIf (u rb + u rc > nt) .addr (u rb),
     faultIf (u ra + 243 * (u rc / 6561) > nt) .addr (u ra)]
  | .address ra rb rc =>
    [faultIf (u rc = 0 ∨ u rc % 243 ≠ 0) .len243 (u rc), faultIf (u rb + u rc > nt) .addr (u rb),
     faultIf (u ra + 243 > nt) .addr (u ra)]
  | .sigdigest ra rb rc =>
    [faultIf (u rb + 81 > nt) .addr (u rb), faultIf (u rc + 6561 > nt) .addr (u rc),
     faultIf (u ra + 243 > nt) .addr (u ra)]
  | .sigfrag ra rb rc =>
    [faultIf (u rb + 81 > nt) .addr (u rb), faultIf (u rc + 6561 > nt) .addr (u rc),
     faultIf (u ra + 6561 > nt) .addr (u ra)]
  | .normalize ra rb =>
    [faultIf (u rb + 243 > nt) .addr (u rb), faultIf (u ra + 243 > nt) .addr (u ra)]
  | .validate _ rb rc rd re rf =>
    [faultIf (u rf = 0) .noHash 0, faultIf (u rf ≠ 243) .len243 (u rf),
     faultIf (u rd = 0) .length 0, faultIf (u rb + 243 > nt) .addr (u rb),
     faultIf (u rc + 6561 * u rd > nt) .addr (u rc), faultIf (u re + 243 > nt) .addr (u re)]

/-- The first check of `i` that fails, if one does (R264). -/
def firstFault (i : Instr) (s : State) : Option (Cause × Nat) := (faultTable i s).findSome? id

/-! ### The port, as the table of spec/20_memory.md R80 lists it -/

/-- An offset and a width that the map of R80 lists, in an instance with parameters `p`. -/
def Listed (p : Config.Params) (offset width : Nat) : Prop :=
  (offset = 0x000 ∧ width = 32)
    ∨ (∃ k, 1 ≤ k ∧ k ≤ 9 ∧ offset = 8 * k ∧ width = 64)
    ∨ (∃ k, k < 16 ∧ offset = 0x080 + 8 * k ∧ width = 64)
    ∨ (∃ a, a < p.nt ∧ offset = 0x100000 + a ∧ width = 8)
    ∨ (∃ a, a < p.nb ∧ offset = 0x200000 + a ∧ width = 8)

/-- The state `s` with the host action `a` about to be performed before all that is pending. -/
def State.withNext (s : State) (a : HostAction) : State := { s with pending := a :: s.pending }

/-- The read `a` returns `v` and changes nothing (spec/20_memory.md R69). -/
def Answers (s : State) (a : HostAction) (v : Word) : Prop :=
  step (s.withNext a) = .next { s with replies := v :: s.replies }

/-- The read `a` is refused: it returns 0, sets `HERR` and changes nothing else (R84). -/
def RefusesRead (s : State) (a : HostAction) : Prop :=
  step (s.withNext a) = .next { s with herr := true, replies := 0 :: s.replies }

/-- The write `a` is refused: it sets `HERR` and changes nothing else (R84). -/
def RefusesWrite (s : State) (a : HostAction) : Prop :=
  step (s.withNext a) = .next { s with herr := true }

/-- The commands of spec/10_state.md R31, which hash in private contexts. -/
def usesPrivateContext : Instr → Bool
  | .keygen _ _ _ _ _ | .digests _ _ _ | .address _ _ _ | .sigdigest _ _ _ | .sigfrag _ _ _
  | .validate _ _ _ _ _ _ => true
  | .li _ _ | .try2t _ _ _ | .int2t _ _ _ | .t2try _ _ _ | .t2int _ _ _ | .str2try _ _ _
  | .try2str _ _ _ | .t2b _ _ _ | .b2t _ _ _ | .tadd _ _ _ _ _ | .cinit _ | .creset | .cxform
  | .cabsorb _ _ _ | .csqueeze _ _ _ | .kreset | .kabsorb _ _ _ | .ksqueeze _ _ _
  | .normalize _ _ => false

/-- Two states that differ in the sponge units alone (spec/10_state.md R31). -/
structure SameButSponges (s s' : State) : Prop where
  params : s'.params = s.params
  x : s'.x = s.x
  tm : s'.tm = s.tm
  bm : s'.bm = s.bm
  control : SameControl s s'
  epoch : s'.epoch = s.epoch
  pending : s'.pending = s.pending
  replies : s'.replies = s.replies

/-! ### Collisions of the hash, as the end-to-end law of spec/44_signing.md R216 excludes them -/

/-- `H384` tells the messages `M` and `M'` apart, in the form in which Kerl uses a digest (R175: as the
chunk of its 242 low trits): equal chunks come only from one message. Chunks are equal when the digests
are, or when their values differ by a multiple of `3^242` (`clearTop_b2t_eq_iff`; log entry 21). -/
def NoCollision (p : Config.Params) (M M' : List Byte) : Prop :=
  clearTop (b2t (h384 p.hash M)) = clearTop (b2t (h384 p.hash M')) → M = M'

/-- The length of the verifier's chain on sub-block `i` of fragment `j` under the hash `h` (R208,
R213). -/
def verifierChain (h : List Trit) (j i : Nat) : Nat :=
  ((groupOf (normalize h) (j % 3)).getD i 0 + 13).toNat

/-- What `H384` is given for a sequence that is absorbed into a fresh context (R176, R177). -/
def freshMessage (m : List Trit) : List Byte := kerlAbsorb [] m

/-- `H384` is collision-free on what two verifications under `h` hash, of the signatures `frags` and
`frags'`: it tells apart the two messages at each place, namely hash `n` of the chain on each sub-block,
the digest of each fragment, and the address (R208, R213). No other messages are spoken of, since a hash
with more messages than digests has collisions somewhere. -/
structure CollisionFree (p : Config.Params) (frags frags' h : List Trit) : Prop where
  /-- hash `n` of the chain on sub-block `i` of fragment `j` -/
  chains : ∀ j i n, j < frags.length / 6561 → i < 27 → n < verifierChain h j i →
    NoCollision p (freshMessage (hashChain p n (piece 243 (piece 6561 frags j) i)))
      (freshMessage (hashChain p n (piece 243 (piece 6561 frags' j) i)))
  /-- the digest of fragment `j` -/
  digests : ∀ j, j < frags.length / 6561 →
    NoCollision p (freshMessage (chainBlocks p (verifierChain h j) (piece 6561 frags j)))
      (freshMessage (chainBlocks p (verifierChain h j) (piece 6561 frags' j)))
  /-- the address -/
  address : NoCollision p (freshMessage (signatureDigests p frags h))
    (freshMessage (signatureDigests p frags' h))

end Sys2Proof.Machine
end

