-- ==== Sys2Proof/Certificates/Slice0/Obligations.lean ====
section
/-! DEFINITION. The statements for the provers. Each docstring names the rules a statement comes from and,
where it rests on a choice of the model, the log entry. -/

open Sys2Proof Sys2Proof.Machine

/-! ### The commands of the Codec, and `LI`: completion, result, frame -/

/-- `LI` (R128, R94): it completes in every state, and the register reads as the signed 20-bit immediate. -/
def Obligations.LiLoadsSignedImmediate : Prop :=
  ∀ (ra : Reg) (imm20 : BitVec 20) (s : State),
    ∃ t, exec (.li ra imm20) s = .next t ∧ (t.reg ra).toInt = imm20.toInt ∧ OnlyReg ra s t

/-- `TRY2T` (R113): with both regions in range and every byte in the alphabet it completes, and symbol
number `k` has become its triple. -/
def Obligations.Try2tExpandsSymbols : Prop :=
  ∀ (ra rb rc : Reg) (s : State),
    s.uval rb + s.uval rc ≤ s.params.nb →
    s.uval ra + 3 * s.uval rc ≤ s.params.nt →
    (∀ k, k < s.uval rc → inAlphabet (s.bmAt (s.uval rb + k)) = true) →
    ∃ t, exec (.try2t ra rb rc) s = .next t
      ∧ (∀ k, k < s.uval rc →
          t.readT (s.uval ra + 3 * k) 3 = tripleOf (s.bmAt (s.uval rb + k)))
      ∧ OnlyTM (s.uval ra) (3 * s.uval rc) s t

/-- `INT2T` (R115, R114): for the minimal trit sequence of the signed value, whatever it is, if there is
room for it, the command writes it and its length, and no cell above it. -/
def Obligations.Int2tWritesMinimalTrits : Prop :=
  ∀ (ra rb rc : Reg) (s : State) (out : List Trit),
    btValue out = s.sval rb →
    (∀ h : out ≠ [], out.getLast h ≠ .zero) →
    s.uval ra + out.length ≤ s.params.nt →
    ∃ t, exec (.int2t ra rb rc) s = .next t
      ∧ t.readT (s.uval ra) out.length = out
      ∧ (t.reg rc).toNat = out.length ∧ out.length ≤ 41
      ∧ SameRegsBut rc s t ∧ SameTMBut (s.uval ra) out.length s t
      ∧ SameBM s t ∧ SameCurl s t ∧ SameKerl s t ∧ SameControl s t ∧ SameModel s t

/-- `T2TRY` (R116): byte number `k` of the destination is the symbol of triple number `k` of the source. -/
def Obligations.T2tryWritesSymbols : Prop :=
  ∀ (ra rb rc : Reg) (s : State),
    s.uval rc % 3 = 0 →
    s.uval rb + s.uval rc ≤ s.params.nt →
    s.uval ra + s.uval rc / 3 ≤ s.params.nb →
    ∃ t, exec (.t2try ra rb rc) s = .next t
      ∧ (∀ k, k < s.uval rc / 3 →
          inAlphabet (t.bmAt (s.uval ra + k)) = true
            ∧ tripleOf (t.bmAt (s.uval ra + k)) = s.readT (s.uval rb + 3 * k) 3)
      ∧ OnlyBM (s.uval ra) (s.uval rc / 3) s t

/-- `T2INT` (R117): where the value of the trits fits a signed 64-bit register, the register reads as it. -/
def Obligations.T2intReadsValue : Prop :=
  ∀ (ra rb rc : Reg) (s : State),
    s.uval rc % 3 = 0 →
    s.uval rb + s.uval rc ≤ s.params.nt →
    -(2 ^ 63) ≤ btValue (s.readT (s.uval rb) (s.uval rc)) →
    btValue (s.readT (s.uval rb) (s.uval rc)) ≤ 2 ^ 63 - 1 →
    ∃ t, exec (.t2int ra rb rc) s = .next t
      ∧ (t.reg ra).toInt = btValue (s.readT (s.uval rb) (s.uval rc))
      ∧ OnlyReg ra s t

/-- `STR2TRY` (R119, R118): unit `u` becomes the symbols at positions `u mod 27` and `u div 27`. -/
def Obligations.Str2tryWritesSymbolPairs : Prop :=
  ∀ (ra rb rc : Reg) (s : State),
    s.uval rb + 2 * s.uval rc ≤ s.params.nb →
    s.uval ra + 2 * s.uval rc ≤ s.params.nb →
    (∀ k, k < s.uval rc → s.codeUnitAt (s.uval rb) k ≤ 728) →
    ∃ t, exec (.str2try ra rb rc) s = .next t
      ∧ (∀ k, k < s.uval rc →
          t.bmAt (s.uval ra + 2 * k) = symbolAt (s.codeUnitAt (s.uval rb) k % 27)
            ∧ t.bmAt (s.uval ra + 2 * k + 1) = symbolAt (s.codeUnitAt (s.uval rb) k / 27))
      ∧ OnlyBM (s.uval ra) (2 * s.uval rc) s t

/-- `TRY2STR` (R120, R118): a pair of symbols becomes the unit `first + 27 * second`. -/
def Obligations.Try2strWritesCodeUnits : Prop :=
  ∀ (ra rb rc : Reg) (s : State),
    s.uval rc % 2 = 0 →
    s.uval rb + s.uval rc ≤ s.params.nb →
    s.uval ra + s.uval rc ≤ s.params.nb →
    (∀ k, k < s.uval rc → inAlphabet (s.bmAt (s.uval rb + k)) = true) →
    ∃ t, exec (.try2str ra rb rc) s = .next t
      ∧ (∀ k, k < s.uval rc / 2 →
          t.codeUnitAt (s.uval ra) k
            = symIndex (s.bmAt (s.uval rb + 2 * k)) + 27 * symIndex (s.bmAt (s.uval rb + 2 * k + 1)))
      ∧ OnlyBM (s.uval ra) (s.uval rc) s t

/-- `T2B` (R122, R121, R62): the 48 bytes denote the value of trits 0 to 241 modulo 2^384 = 256^48. -/
def Obligations.T2bWritesTwosComplement : Prop :=
  ∀ (ra rb rc : Reg) (s : State),
    s.uval rc = 243 →
    s.uval rb + 243 ≤ s.params.nt →
    s.uval ra + 48 ≤ s.params.nb →
    ∃ t, exec (.t2b ra rb rc) s = .next t
      ∧ (bytesValue (t.readB (s.uval ra) 48) : Int) = btValue (s.readT (s.uval rb) 242) % 256 ^ 48
      ∧ OnlyBM (s.uval ra) 48 s t

/-- `B2T` (R124, R123): the 243 trits have the value of the 48 bytes read as a signed number, the top bit
being its sign (`128 * 256^47` is 2^383). -/
def Obligations.B2tWritesSignedValue : Prop :=
  ∀ (ra rb rc : Reg) (s : State),
    s.uval rc = 48 →
    s.uval rb + 48 ≤ s.params.nb →
    s.uval ra + 243 ≤ s.params.nt →
    ∃ t, exec (.b2t ra rb rc) s = .next t
      ∧ btValue (t.readT (s.uval ra) 243)
          = (if 128 * 256 ^ 47 ≤ bytesValue (s.readB (s.uval rb) 48)
             then (bytesValue (s.readB (s.uval rb) 48) : Int) - 256 ^ 48
             else (bytesValue (s.readB (s.uval rb) 48) : Int))
      ∧ OnlyTM (s.uval ra) 243 s t

/-! ### The adder -/

/-- `TADD` (R142, R143): the result and the dropped carry make up the sum of the operands. -/
def Obligations.TaddAddsAndDropsCarry : Prop :=
  ∀ (ra rb rc rd re : Reg) (s : State),
    s.uval rb + s.uval rc ≤ s.params.nt →
    s.uval rd + s.uval re ≤ s.params.nt →
    s.uval ra + max (s.uval rc) (s.uval re) ≤ s.params.nt →
    ∃ t, exec (.tadd ra rb rc rd re) s = .next t
      ∧ (∃ carry : Trit,
          btValue (t.readT (s.uval ra) (max (s.uval rc) (s.uval re)))
              + 3 ^ max (s.uval rc) (s.uval re) * carry.toInt
            = btValue (s.readT (s.uval rb) (s.uval rc)) + btValue (s.readT (s.uval rd) (s.uval re)))
      ∧ OnlyTM (s.uval ra) (max (s.uval rc) (s.uval re)) s t

/-! ### Curl -/

/-- `CINIT` (R155): the round count, 0 selecting 81, and a zero state. -/
def Obligations.CinitSetsRoundsAndClears : Prop :=
  ∀ (imm20 : BitVec 20) (s : State), imm20.toNat ≤ 255 →
    ∃ t, exec (.cinit imm20) s = .next t
      ∧ t.cr.toNat = (if imm20.toNat = 0 then 81 else imm20.toNat)
      ∧ (∀ i : Fin 729, t.cs[i] = .zero)
      ∧ OnlyCurl s t

/-- `CRESET` (R156) and `KRESET` (R179): a zero state with the round count kept, and an empty message. -/
def Obligations.ResetCommandsClearOneSponge : Prop :=
  ∀ s : State,
    (∃ t, exec .creset s = .next t ∧ (∀ i : Fin 729, t.cs[i] = .zero) ∧ t.cr = s.cr ∧ OnlyCurl s t)
      ∧ (∃ t, exec .kreset s = .next t ∧ t.km = [] ∧ OnlyKerl s t)

/-- `CXFORM` (R157): `CR` rounds, each with every cell computed from the old state. -/
def Obligations.CxformRunsRounds : Prop :=
  ∀ s : State,
    ∃ t, exec .cxform s = .next t ∧ t.cs = (curlRound)^[s.cr.toNat] s.cs ∧ t.cr = s.cr ∧ OnlyCurl s t

/-- `CABSORB` (R158): the elements `o` to `L-1` of the array are absorbed, and TM is not written. -/
def Obligations.CabsorbAbsorbsRegion : Prop :=
  ∀ (ra rb rc : Reg) (s : State),
    s.uval rc < s.uval rb →
    s.uval ra + s.uval rb ≤ s.params.nt →
    ∃ t, exec (.cabsorb ra rb rc) s = .next t
      ∧ t.cs = curlAbsorb s.cr.toNat s.cs
          (s.readT (s.uval ra + s.uval rc) (s.uval rb - s.uval rc))
      ∧ t.cr = s.cr ∧ OnlyCurl s t

/-- `CSQUEEZE` (R159): the elements `o` to `L-1` are filled, and the state moves on. -/
def Obligations.CsqueezeFillsRegion : Prop :=
  ∀ (ra rb rc : Reg) (s : State),
    s.uval rc < s.uval rb →
    s.uval ra + s.uval rb ≤ s.params.nt →
    ∃ t, exec (.csqueeze ra rb rc) s = .next t
      ∧ (t.readT (s.uval ra + s.uval rc) (s.uval rb - s.uval rc), t.cs)
          = curlSqueeze s.cr.toNat s.cs (s.uval rb - s.uval rc)
      ∧ t.cr = s.cr ∧ SameRegs s t
      ∧ SameTMBut (s.uval ra + s.uval rc) (s.uval rb - s.uval rc) s t
      ∧ SameBM s t ∧ SameKerl s t ∧ SameControl s t ∧ SameModel s t

/-! ### Kerl -/

/-- `KABSORB` (R180, R174): 48 bytes are appended for each chunk of 243 trits, and TM is not written. -/
def Obligations.KabsorbAppendsBlocks : Prop :=
  ∀ (ra rb rc : Reg) (s : State),
    s.uval rb % 243 = 0 →
    s.uval rc < s.uval rb → s.uval rc % 243 = 0 →
    s.uval ra + s.uval rb ≤ s.params.nt →
    ∃ t, exec (.kabsorb ra rb rc) s = .next t
      ∧ t.km = s.km ++ (List.range ((s.uval rb - s.uval rc) / 243)).flatMap (fun j =>
          t2b (s.readT (s.uval ra + s.uval rc + 243 * j) 243))
      ∧ OnlyKerl s t

/-- `KSQUEEZE` (R181, R175, R178): chunk number `j` comes from the message re-seeded `j` times, its trit
242 cleared, and the message left is the last re-seed, 48 bytes. The re-seed complements every byte of the
digest, in reverse order where `KERL_RESEED` is `reversed` and in place where it is `forward`, a value of the
parameter that R178 gives from general knowledge. -/
def Obligations.KsqueezeEmitsChunks : Prop :=
  (∀ (ra rb rc : Reg) (s : State),
    s.uval rb % 243 = 0 →
    s.uval rc < s.uval rb → s.uval rc % 243 = 0 →
    s.uval ra + s.uval rb ≤ s.params.nt →
    ∃ t, exec (.ksqueeze ra rb rc) s = .next t
      ∧ (∀ j, j < (s.uval rb - s.uval rc) / 243 →
          t.readT (s.uval ra + s.uval rc + 243 * j) 243
            = clearTop (b2t (h384 s.params.hash
                ((fun K => reseed s.params.reseed (h384 s.params.hash K))^[j] s.km))))
      ∧ t.km = (fun K => reseed s.params.reseed (h384 s.params.hash K))^[
          (s.uval rb - s.uval rc) / 243] s.km
      ∧ t.km.length = 48
      ∧ SameRegs s t ∧ SameTMBut (s.uval ra + s.uval rc) (s.uval rb - s.uval rc) s t
      ∧ SameBM s t ∧ SameCurl s t ∧ SameControl s t ∧ SameModel s t)
    ∧ ∀ (d : List Byte) (j : Nat), d.length = 48 → j < 48 →
      (reseed .reversed d).length = 48 ∧ (reseed .forward d).length = 48
        ∧ ((reseed .reversed d).getD j 0).toNat = 255 - (d.getD (47 - j) 0).toNat
        ∧ ((reseed .forward d).getD j 0).toNat = 255 - (d.getD j 0).toNat

/-! ### The one-time-signature engine -/

/-- `KEYGEN` (R204, R203): for the subseed, the one trit sequence as long as the padded seed whose value is
the seed plus the index modulo a power of 3, the key is what the second cycle squeezes. -/
def Obligations.KeygenDerivesKey : Prop :=
  ∀ (ra rb rc rd re : Reg) (s : State) (sub : List Trit),
    s.uval rc ≠ 0 → s.uval re ≠ 0 →
    s.uval rb + s.uval rc ≤ s.params.nt →
    s.uval ra + 6561 * s.uval re ≤ s.params.nt →
    sub.length = 243 * ((s.uval rc + 242) / 243) →
    (3 ^ sub.length : Int) ∣ btValue sub - (btValue (s.readT (s.uval rb) (s.uval rc)) + s.sval rd) →
    ∃ t, exec (.keygen ra rb rc rd re) s = .next t
      ∧ t.readT (s.uval ra) (6561 * s.uval re)
          = (kerlSqueeze s.params
              (kerlAbsorb [] (kerlSqueeze s.params (kerlAbsorb [] sub) sub.length).1)
              (6561 * s.uval re)).1
      ∧ OnlyTM (s.uval ra) (6561 * s.uval re) s t

/-- `DIGESTS` (R206, R205): digest number `f` is the hash of the 27 sub-blocks of key fragment `f`, each
hashed 26 times. -/
def Obligations.DigestsHashEachFragment : Prop :=
  ∀ (ra rb rc : Reg) (s : State),
    s.uval rc ≠ 0 → s.uval rc % 6561 = 0 →
    s.uval rb + s.uval rc ≤ s.params.nt →
    s.uval ra + 243 * (s.uval rc / 6561) ≤ s.params.nt →
    ∃ t, exec (.digests ra rb rc) s = .next t
      ∧ (∀ f, f < s.uval rc / 6561 →
          t.readT (s.uval ra + 243 * f) 243
            = kerlDigest s.params ((List.range 27).flatMap fun i =>
                (kerlHash243 s.params)^[26] (s.readT (s.uval rb + 6561 * f + 243 * i) 243)))
      ∧ OnlyTM (s.uval ra) (243 * (s.uval rc / 6561)) s t

/-- `ADDRESS` (R207, R177): all chunks are absorbed in a fresh context and one hash is squeezed. -/
def Obligations.AddressHashesDigests : Prop :=
  ∀ (ra rb rc : Reg) (s : State),
    s.uval rc ≠ 0 → s.uval rc % 243 = 0 →
    s.uval rb + s.uval rc ≤ s.params.nt →
    s.uval ra + 243 ≤ s.params.nt →
    ∃ t, exec (.address ra rb rc) s = .next t
      ∧ t.readT (s.uval ra) 243
          = clearTop (b2t (h384 s.params.hash ((List.range (s.uval rc / 243)).flatMap fun j =>
              t2b (s.readT (s.uval rb + 243 * j) 243))))
      ∧ OnlyTM (s.uval ra) 243 s t

/-- `SIGDIGEST` (R209, R208, R200): sub-block `i` is hashed `nf[i] + 13` times, `nf[i]` being tryte `i` of
the normalized fragment. -/
def Obligations.SigdigestRunsVerifierChains : Prop :=
  ∀ (ra rb rc : Reg) (s : State),
    s.uval rb + 81 ≤ s.params.nt →
    s.uval rc + 6561 ≤ s.params.nt →
    s.uval ra + 243 ≤ s.params.nt →
    ∃ t, exec (.sigdigest ra rb rc) s = .next t
      ∧ t.readT (s.uval ra) 243
          = kerlDigest s.params ((List.range 27).flatMap fun i =>
              (kerlHash243 s.params)^[(tryteValue (s.tmAt (s.uval rb + 3 * i))
                  (s.tmAt (s.uval rb + 3 * i + 1)) (s.tmAt (s.uval rb + 3 * i + 2)) + 13).toNat]
                (s.readT (s.uval rc + 243 * i) 243))
      ∧ OnlyTM (s.uval ra) 243 s t

/-- `SIGFRAG` (R211, R210, R200): sub-block `i` is hashed `13 - nf[i]` times. That 0 times leaves the
sub-block whole, trit 242 included, follows R210 and R215 against R300: THE MODEL'S CHOICE (log entry 22). -/
def Obligations.SigfragRunsSignerChains : Prop :=
  ∀ (ra rb rc : Reg) (s : State),
    s.uval rb + 81 ≤ s.params.nt →
    s.uval rc + 6561 ≤ s.params.nt →
    s.uval ra + 6561 ≤ s.params.nt →
    ∃ t, exec (.sigfrag ra rb rc) s = .next t
      ∧ (∀ i, i < 27 →
          t.readT (s.uval ra + 243 * i) 243
            = (kerlHash243 s.params)^[(13 - tryteValue (s.tmAt (s.uval rb + 3 * i))
                  (s.tmAt (s.uval rb + 3 * i + 1)) (s.tmAt (s.uval rb + 3 * i + 2))).toNat]
                (s.readT (s.uval rc + 243 * i) 243))
      ∧ OnlyTM (s.uval ra) 6561 s t

/-- `NORMALIZE` (R202, R200): the destination read as trytes is the normalized hash, each of whose three
groups sums to zero. -/
def Obligations.NormalizeWritesBalancedGroups : Prop :=
  ∀ (ra rb : Reg) (s : State),
    s.uval rb + 243 ≤ s.params.nt →
    s.uval ra + 243 ≤ s.params.nt →
    ∃ t, exec (.normalize ra rb) s = .next t
      ∧ tryteValues (t.readT (s.uval ra) 243) = normalize (s.readT (s.uval rb) 243)
      ∧ (∀ g, g < 3 → (groupOf (tryteValues (t.readT (s.uval ra) 243)) g).sum = 0)
      ∧ OnlyTM (s.uval ra) 243 s t

/-- `VALIDATE` (R214, R213): the verdict is 1 exactly when all 243 trits of the expected address are those
of the address derived from the fragments, fragment `j` with group `j mod 3`, and else 0. -/
def Obligations.ValidateWritesVerdict : Prop :=
  ∀ (ra rb rc rd re rf : Reg) (s : State),
    s.uval rf = 243 → s.uval rd ≠ 0 →
    s.uval rb + 243 ≤ s.params.nt →
    s.uval rc + 6561 * s.uval rd ≤ s.params.nt →
    s.uval re + 243 ≤ s.params.nt →
    ∃ t, exec (.validate ra rb rc rd re rf) s = .next t
      ∧ (t.reg ra = 1 ∨ t.reg ra = 0)
      ∧ (t.reg ra = 1 ↔ ∀ i, i < 243 →
          (kerlDigest s.params ((List.range (s.uval rd)).flatMap fun j =>
            sigDigest s.params (groupOf (normalize (s.readT (s.uval re) 243)) (j % 3))
              (s.readT (s.uval rc + 6561 * j) 6561)))[i]? = some (s.tmAt (s.uval rb + i)))
      ∧ OnlyReg ra s t

/-! ### Faults -/

/-- Which command raises which fault, in which order (R262, R264, R266): the first check of the table that
fails is raised and nothing else happens, and where none fails the command completes without a fault. For
`CINIT` with an immediate above 255, which is no command word, see log entry 13. -/
def Obligations.CommandsFaultByTheTable : Prop :=
  ∀ (i : Instr) (s : State),
    match firstFault i s with
    | some (c, info) => Raises i s c info
    | none => ∃ t, exec i s = .next t ∧ SameControl s t ∧ SameModel s t

/-- Fault entry (R266). The list gives the causes by their codes (R261). -/
def Obligations.FaultEntryWritesFourRegisters : Prop :=
  ∀ (i : Instr) (c : Cause) (n : Nat) (s : State),
    ∃ t, raiseFault i c n s = .next t
      ∧ t.cause = c ∧ t.info.toNat = n % 2 ^ 64 ∧ t.ecmd = encode i ∧ t.es = .faulted
      ∧ t.status.getLsbD 0 = true
      ∧ (∃ v, Answers t (.read 0x018 64) v
        ∧ [Cause.noFault, .illegal, .addr, .symbol, .len3, .len243, .len48, .codeUnit, .lenOdd,
            .offset, .noHash, .intRange, .length][v.toNat]? = some c)
      ∧ t.drop = s.drop ∧ t.herr = s.herr ∧ OnlyControl s t

/-- Faults are precise and total (R265): a command that ends in the FAULTED state has changed no register,
no cell, and neither sponge. -/
def Obligations.FaultsArePrecise : Prop :=
  ∀ (i : Instr) (s t : State), s.es = .ready → exec i s = .next t → t.es = .faulted →
    OnlyControl s t

/-- An illegal word (R98) written to `CMD` in the READY state raises `ILLEGAL` with the word in `INFO` and
in `ECMD`, and nothing else happens. -/
def Obligations.IllegalWordsRaiseIllegal : Prop :=
  ∀ (w : CommandWord) (why : IllegalWord) (s : State), s.es = .ready → decode w = .illegal why →
    ∃ t, step (s.withNext (commandAction w)) = .next t ∧ TakesFault s t w .illegal w.toNat

/-- A word written to `CMD` while FAULTED (R267, R42): `DROP` is set and nothing else happens, whatever the
word is. -/
def Obligations.FaultedEngineDropsCommands : Prop :=
  ∀ (v : Word) (s : State), s.es = .faulted →
    step (s.withNext (.write 0x000 32 v)) = .next { s with drop := true }

/-- A write to `ACK` (R41). -/
def Obligations.AckClearsSelectedBits : Prop :=
  ∀ (v : Word) (s : State),
    ∃ t, step (s.withNext (.write 0x010 64 v)) = .next t
      ∧ (t.es = if v.getLsbD 0 then .ready else s.es)
      ∧ (t.drop = if v.getLsbD 1 then false else s.drop)
      ∧ (t.herr = if v.getLsbD 2 then false else s.herr)
      ∧ t.cause = s.cause ∧ t.info = s.info ∧ t.ecmd = s.ecmd ∧ OnlyControl s t

/-- `CAUSE`, `INFO` and `ECMD` are written on fault entry only (R35, R36, R37), by a word written to `CMD`
in the READY state, which `ECMD` then holds; reset is the other way (R290). -/
def Obligations.FaultRegistersKeepUntilNextFault : Prop :=
  ∀ (a : HostAction) (s t : State), a ≠ .assertReset → step (s.withNext a) = .next t →
    (t.cause = s.cause ∧ t.info = s.info ∧ t.ecmd = s.ecmd)
      ∨ (s.es = .ready ∧ t.es = .faulted ∧ t.cause ≠ .noFault ∧ OnlyControl s t
          ∧ ∃ v, a = .write 0x000 32 v ∧ t.ecmd = v.setWidth 32)

/-! ### Who may write what -/

/-- Registers are written only by the host's register port, `LI`, `INT2T`, `T2INT` and `VALIDATE` (R22), and
by reset (R290). -/
def Obligations.RegistersHaveFourCommandWriters : Prop :=
  ∀ (a : HostAction) (s t : State) (r : Reg), step (s.withNext a) = .next t → t.reg r ≠ s.reg r →
    a = .assertReset
      ∨ (∃ v, a = .write (0x080 + 8 * r.val) 64 v)
      ∨ (s.es = .ready ∧ ∃ v i, a = .write 0x000 32 v ∧ decode (v.setWidth 32) = .command i
          ∧ ((∃ imm20, i = .li r imm20) ∨ (∃ ra rb, i = .int2t ra rb r)
            ∨ (∃ rb rc, i = .t2int r rb rc) ∨ (∃ rb rc rd re rf, i = .validate r rb rc rd re rf)))

/-- `CS` is written only by the five Curl commands, `CR` only by `CINIT` (R28), `KM` only by the three Kerl
commands (R29), and all three by reset (R290). -/
def Obligations.SpongesHaveTheirOwnWriters : Prop :=
  ∀ (a : HostAction) (s t : State), step (s.withNext a) = .next t → a ≠ .assertReset →
    (t.cs ≠ s.cs → ∃ v i, a = .write 0x000 32 v ∧ decode (v.setWidth 32) = .command i
        ∧ ((∃ imm20, i = .cinit imm20) ∨ i = .creset ∨ i = .cxform
          ∨ (∃ ra rb rc, i = .cabsorb ra rb rc) ∨ ∃ ra rb rc, i = .csqueeze ra rb rc))
      ∧ (t.cr ≠ s.cr → ∃ v imm20, a = .write 0x000 32 v
        ∧ decode (v.setWidth 32) = .command (.cinit imm20))
      ∧ (t.km ≠ s.km → ∃ v i, a = .write 0x000 32 v ∧ decode (v.setWidth 32) = .command i
        ∧ (i = .kreset ∨ (∃ ra rb rc, i = .kabsorb ra rb rc) ∨ ∃ ra rb rc, i = .ksqueeze ra rb rc))

/-- The six hashing commands of the signature engine neither read nor write `KM`, `CS` and `CR` (R31): from
two states that differ in these alone they lead to two states that differ in these alone, each with its own
`KM`, `CS` and `CR` unchanged. -/
def Obligations.SigningUsesPrivateContexts : Prop :=
  ∀ (i : Instr) (s s' : State), usesPrivateContext i = true → SameButSponges s s' →
    ∃ t t', exec i s = .next t ∧ exec i s' = .next t' ∧ SameButSponges t t'
      ∧ SameCurl s t ∧ SameKerl s t ∧ SameCurl s' t' ∧ SameKerl s' t'

/-! ### The host port -/

/-- A step performs the next action of the host (R221), and a command word written in the READY state runs
the command it decodes to (R42). With no action pending nothing happens (the model's choice, log entry 1;
R295). -/
def Obligations.StepRunsTheDecodedCommand : Prop :=
  (∀ (a : HostAction) (rest : List HostAction) (s : State), s.pending = a :: rest →
      step s = performAction a { s with pending := rest })
    ∧ (∀ (v : Word) (rest : List HostAction) (i : Instr) (s : State),
        s.pending = .write 0x000 32 v :: rest → s.es = .ready →
        decode (v.setWidth 32) = .command i → step s = exec i { s with pending := rest })
    ∧ (∀ s : State, s.pending = [] → step s = .next s)

/-- Every step of every state answers a next state (R294, R306): no command and no host access stops the
block. -/
def Obligations.EveryStepCompletes : Prop := ∀ s : State, SafeStep s

/-- The control registers read as R34 to R40 say, and a read changes nothing. -/
def Obligations.ControlRegistersReadTheState : Prop :=
  ∀ s : State,
    (∃ v, Answers s (.read 0x008 64) v ∧ v.toNat < 8 ∧ v.getLsbD 0 = decide (s.es = .faulted)
        ∧ v.getLsbD 1 = s.drop ∧ v.getLsbD 2 = s.herr)
      ∧ (∃ v, Answers s (.read 0x018 64) v
        ∧ [Cause.noFault, .illegal, .addr, .symbol, .len3, .len243, .len48, .codeUnit, .lenOdd,
            .offset, .noHash, .intRange, .length][v.toNat]? = some s.cause)
      ∧ Answers s (.read 0x020 64) s.info
      ∧ (∃ v, Answers s (.read 0x028 64) v ∧ v.toNat = s.ecmd.toNat)
      ∧ (∃ v, Answers s (.read 0x030 64) v ∧ v.toNat = s.cr.toNat)
      ∧ (∃ v, Answers s (.read 0x038 64) v ∧ v.toNat = s.km.length % 2 ^ 64)
      ∧ (∃ v, Answers s (.read 0x040 64) v ∧ v.toNat = s.params.nt % 2 ^ 64)
      ∧ ∃ v, Answers s (.read 0x048 64) v ∧ v.toNat = s.params.nb % 2 ^ 64

/-- The register port (R82), in READY and in FAULTED alike. -/
def Obligations.RegisterPortReadsAndWrites : Prop :=
  ∀ (r : Reg) (v : Word) (s : State),
    Answers s (.read (0x080 + 8 * r.val) 64) (s.reg r)
      ∧ ∃ t, step (s.withNext (.write (0x080 + 8 * r.val) 64 v)) = .next t
          ∧ t.reg r = v ∧ OnlyReg r s t

/-- The T window (R83): a trit is read as the byte 0x00, 0x01 or 0xFF, those three bytes are written as the
trit they stand for, and any other byte is refused. -/
def Obligations.TritWindowHoldsOnlyTrits : Prop :=
  ∀ (a : Nat) (s : State), a < s.params.nt →
    (∃ v, Answers s (.read (0x100000 + a) 8) v
        ∧ v.toNat = (match s.tmAt a with | .zero => 0x00 | .pos => 0x01 | .neg => 0xFF))
      ∧ ∀ b : Byte,
        (∀ u : Trit, b.toNat = (match u with | .zero => 0x00 | .pos => 0x01 | .neg => 0xFF) →
            ∃ t, step (s.withNext (.write (0x100000 + a) 8 (b.setWidth 64))) = .next t
              ∧ t.tmAt a = u ∧ OnlyTM a 1 s t)
          ∧ (b.toNat ≠ 0x00 → b.toNat ≠ 0x01 → b.toNat ≠ 0xFF →
            RefusesWrite s (.write (0x100000 + a) 8 (b.setWidth 64)))

/-- The B window (R84). Premise: TM is no larger than R80 allows, so that its window ends below the B
window. -/
def Obligations.ByteWindowReadsAndWrites : Prop :=
  ∀ (a : Nat) (b : Byte) (s : State), s.params.nt ≤ Config.windowLimit → a < s.params.nb →
    (∃ u, Answers s (.read (0x200000 + a) 8) u ∧ u.toNat = (s.bmAt a).toNat)
      ∧ ∃ t, step (s.withNext (.write (0x200000 + a) 8 (b.setWidth 64))) = .next t
          ∧ t.bmAt a = b ∧ OnlyBM a 1 s t

/-- Refused accesses (R84, R33, R271): an access that the map of R80 does not list, a read of `CMD` or
`ACK`, and a write to a read-only register. For an offset inside a register that is not its first, the
model takes the map to list nothing (log entry 11). -/
def Obligations.UnlistedAccessesAreRefused : Prop :=
  ∀ (offset width : Nat) (v : Word) (s : State),
    (¬ Listed s.params offset width →
        RefusesRead s (.read offset width) ∧ RefusesWrite s (.write offset width v))
      ∧ RefusesRead s (.read 0x000 32) ∧ RefusesRead s (.read 0x010 64)
      ∧ RefusesWrite s (.write 0x008 64 v)
      ∧ ∀ k, 3 ≤ k → k ≤ 9 → RefusesWrite s (.write (8 * k) 64 v)

/-- Plain storage (R69, R70): what is written to a cell through a window is read back, and another cell reads
as before; a read changes nothing but what the host has received. Premise for the B window: TM is no larger
than R80 allows. -/
def Obligations.WindowsReadBackWhatWasWritten : Prop :=
  (∀ (a : Nat) (u : Trit) (s : State), a < s.params.nt →
      ∃ t, step (s.withNext (.write (0x100000 + a) 8 ((tritByte u).setWidth 64))) = .next t
        ∧ Answers t (.read (0x100000 + a) 8) ((tritByte u).setWidth 64)
        ∧ ∀ b v, b < s.params.nt → b ≠ a → Answers s (.read (0x100000 + b) 8) v →
            Answers t (.read (0x100000 + b) 8) v)
    ∧ (∀ (a : Nat) (u : Byte) (s : State), s.params.nt ≤ Config.windowLimit → a < s.params.nb →
      ∃ t, step (s.withNext (.write (0x200000 + a) 8 (u.setWidth 64))) = .next t
        ∧ Answers t (.read (0x200000 + a) 8) (u.setWidth 64)
        ∧ ∀ b v, b < s.params.nb → b ≠ a → Answers s (.read (0x200000 + b) 8) v →
            Answers t (.read (0x200000 + b) 8) v)

/-! ### Reset and the invariant -/

/-- What reset leaves (R45, R23, R290, R291), at power-on and when `RST` is asserted as a step: the values of
the table, and memories of which only the free values of log entry 2 are known. -/
def Obligations.ResetLeavesTheTableValues : Prop :=
  (∀ r, State.reset.reg r = 0)
    ∧ (∀ i : Fin 729, State.reset.cs[i] = .zero) ∧ State.reset.cr = 81 ∧ State.reset.km = []
    ∧ State.reset.es = .ready ∧ State.reset.status = 0 ∧ State.reset.cause = .noFault
    ∧ State.reset.info = 0 ∧ State.reset.ecmd = 0
    ∧ ∀ s : State, ∃ t, step (s.withNext .assertReset) = .next t
        ∧ (∀ r, t.reg r = 0) ∧ (∀ i : Fin 729, t.cs[i] = .zero) ∧ t.cr = 81 ∧ t.km = []
        ∧ t.es = .ready ∧ t.status = 0 ∧ t.cause = .noFault ∧ t.info = 0 ∧ t.ecmd = 0
        ∧ (∀ a, t.tmAt a = Config.tmInit t.epoch a) ∧ (∀ a, t.bmAt a = Config.bmInit t.epoch a)
        ∧ t.epoch ≠ s.epoch ∧ t.params = s.params

/-- The invariant is kept by every step from every state that has it: memories in canonical form and within
their sizes (R66), `CR` never 0 (R28), `|KM|` a multiple of 48 (R29), a FAULTED engine has a cause (R32,
R35), and `INFO` and `ECMD` are 0 as long as there was no fault (R261). -/
def Obligations.EveryStepKeepsTheInvariant : Prop :=
  ∀ s t : State, s.Inv → step s = .next t → t.Inv

/-- The state after reset has the invariant (R45). -/
def Obligations.ResetHasTheInvariant : Prop := State.reset.Inv

/-! ### Encoding -/

/-- Decoding and encoding agree (R97, R98): a word decodes to a command exactly when the command is well
formed and the word is its encoding. -/
def Obligations.DecodeAndEncodeAgree : Prop :=
  ∀ (w : CommandWord) (i : Instr),
    decode w = .command i ↔ i.wellFormed = true ∧ w = encode i

/-- The opcode map (R97, R98): a word is a command exactly when `w AND mask = match` for its row. -/
def Obligations.MasksSelectTheCommands : Prop :=
  ∀ (w : CommandWord) (m : String),
    (∃ i, decode w = .command i ∧ mnemonicOf i = m)
      ↔ ∃ row ∈ opcodeTable, row.mnemonic = m ∧ w &&& row.mask = row.pattern

/-- Words written out from the encodings of R91, R92 and R93, one or more of each family, and illegal words
of R98. -/
def Obligations.SampleWordsDecode : Prop :=
  decode 0x80000F01 = .command (.li 15 0x80000)
    ∧ decode 0x00032110 = .command (.try2t 1 2 3)
    ∧ decode 0x00087611 = .command (.int2t 6 7 8)
    ∧ decode 0x00051413 = .command (.t2int 4 1 5)
    ∧ decode 0x08651920 = .command (.tadd 9 1 5 6 8)
    ∧ decode 0x0001B030 = .command (.cinit 27)
    ∧ decode 0x00000032 = .command .cxform
    ∧ decode 0x00013434 = .command (.csqueeze 4 3 1)
    ∧ decode 0x00000040 = .command .kreset
    ∧ decode 0x00013442 = .command (.ksqueeze 4 3 1)
    ∧ decode 0x04321550 = .command (.keygen 5 1 2 3 4)
    ∧ decode 0x284A7B56 = .command (.validate 11 7 10 4 8 2)
    ∧ decode 0x00000000 = .illegal .undefinedOpcode
    ∧ decode 0xFFFFFFFF = .illegal .undefinedOpcode
    ∧ decode 0x00100031 = .illegal .unusedFieldNotZero
    ∧ decode 0x00100030 = .illegal .roundCountTooLarge

/-! ### The functions the commands compute -/

/-- The tryte table (R111, whose rows the spec supplies from general knowledge, and R112): position `k` of
the alphabet has the ASCII code of `9` or of the letter number `k`, its value is `k` or `k - 27`, its triple
is the balanced form of that value, and table look-ups in the two directions are inverse. -/
def Obligations.TryteTableIsBalancedTernary : Prop :=
  (∀ k, k < 27 →
      (symbolAt k).toNat = (if k = 0 then 0x39 else 0x40 + k)
        ∧ symIndex (symbolAt k) = k
        ∧ (tripleOf (symbolAt k)).length = 3
        ∧ btValue (tripleOf (symbolAt k)) = (if k ≤ 13 then (k : Int) else k - 27))
    ∧ (∀ t0 t1 t2, inAlphabet (tryteOf t0 t1 t2) = true
        ∧ tripleOf (tryteOf t0 t1 t2) = [t0, t1, t2]
        ∧ tryteValue t0 t1 t2 = btValue [t0, t1, t2])
    ∧ ∀ c : Byte, inAlphabet c = true ↔ ∃ k, k < 27 ∧ symbolAt k = c

/-- `int_to_trits` (R114): the one minimal trit sequence of an integer; its length is the least `L` with
`|v| <= (3^L - 1)/2`, and at most 41 for a 64-bit value. -/
def Obligations.IntToTritsIsMinimal : Prop :=
  ∀ v : Int,
    btValue (intToTrits v) = v
      ∧ (∀ h : intToTrits v ≠ [], (intToTrits v).getLast h ≠ .zero)
      ∧ (∀ t : List Trit, btValue t = v → (∀ h : t ≠ [], t.getLast h ≠ .zero) → t = intToTrits v)
      ∧ (∀ L, (intToTrits v).length ≤ L ↔ 2 * v.natAbs ≤ 3 ^ L - 1)
      ∧ (-(2 ^ 63) ≤ v → v ≤ 2 ^ 63 - 1 → (intToTrits v).length ≤ 41)

/-- The laws of the Codec, which the spec derives from the tables and functions (R125). -/
def Obligations.CodecRoundTrips : Prop :=
  (∀ T : List Byte, (∀ c ∈ T, inAlphabet c = true) → trytesOf (T.flatMap tripleOf) = T)
    ∧ (∀ t : List Trit, t.length = 243 → t[242]? = some .zero → b2t (t2b t) = t)
    ∧ (∀ t0 t1 t2, tripleOf (tryteOf t0 t1 t2) = [t0, t1, t2])
    ∧ ∀ b : List Byte, b.length = 48 →
        (t2b (b2t b) = b ↔ 2 * (signed384 (bytesValue b)).natAbs ≤ 3 ^ 242 - 1)

/-- The arithmetic law of the adder (R143) and its laws (R144), which the spec derives from R141. -/
def Obligations.AdderLaws : Prop :=
  (∀ a b : List Trit, (tadd a b).length = max a.length b.length
      ∧ (∃ c : Trit, btValue (tadd a b) + 3 ^ max a.length b.length * c.toInt
          = btValue a + btValue b)
      ∧ (2 * (btValue a + btValue b).natAbs ≤ 3 ^ max a.length b.length - 1 →
          btValue (tadd a b) = btValue a + btValue b)
      ∧ tadd a b = tadd b a)
    ∧ (∀ (a : List Trit) (k : Nat), tadd a (zeros k) = a ++ zeros (k - a.length))
    ∧ ∀ a b c : List Trit, a.length = b.length → b.length = c.length →
        tadd (tadd a b) c = tadd a (tadd b c)

/-- The Curl round (R153, with the walk and the table that R151 and R152 supply from general knowledge): the
walk visits every cell once, every new cell comes from two cells of the old state by the truth table, and
the zero state has period 3 (which R157 derives). -/
def Obligations.CurlRoundFollowsTheWalk : Prop :=
  (∀ j, j < 729 → ∃ i, i < 729 ∧ 364 * i % 729 = j)
    ∧ (∀ (S : Vector Trit 729) (i : Nat) (h : i < 729),
        (curlRound S)[i] = curlF (S[364 * i % 729]'(by omega)) (S[364 * (i + 1) % 729]'(by omega)))
    ∧ (curlF .neg .neg = .pos ∧ curlF .zero .neg = .zero ∧ curlF .pos .neg = .neg
      ∧ curlF .neg .zero = .pos ∧ curlF .zero .zero = .neg ∧ curlF .pos .zero = .zero
      ∧ curlF .neg .pos = .neg ∧ curlF .zero .pos = .pos ∧ curlF .pos .pos = .zero)
    ∧ ∀ r, curlTransform r zeroCurl = zeroCurl ↔ r % 3 = 0

/-- The loops of the native sponge (R154, R159): a chunk of at most 243 trits overwrites the first cells and
is followed by a transform, so is a chunk copied out, and two squeezes, the first of whole chunks, are one.
That absorbing no trits leaves the state and that squeezing 0 trits gives none and leaves it are THE MODEL'S
CHOICE (log entry 20): R154 speaks of at least one trit, and no command gets there. -/
def Obligations.CurlSpongeFollowsItsLoops : Prop :=
  ∀ (r : Nat) (S : Vector Trit 729),
    curlAbsorb r S [] = S
      ∧ (∀ m : List Trit, m ≠ [] →
        curlAbsorb r S m = curlAbsorb r (curlTransform r (curlOverwrite S (m.take 243))) (m.drop 243))
      ∧ (∀ (m : List Trit) (i : Nat) (h : i < 729), (curlOverwrite S m)[i] = m.getD i S[i])
      ∧ curlSqueeze r S 0 = ([], S)
      ∧ (∀ k, 0 < k → curlSqueeze r S k
          = (S.toList.take (min 243 k) ++ (curlSqueeze r (curlTransform r S) (k - 243)).1,
             (curlSqueeze r (curlTransform r S) (k - 243)).2))
      ∧ ∀ n k, curlSqueeze r S (243 * n + k)
          = ((curlSqueeze r S (243 * n)).1
              ++ (curlSqueeze r (curlSqueeze r S (243 * n)).2 k).1,
             (curlSqueeze r (curlSqueeze r S (243 * n)).2 k).2)

/-- The 243rd trit is ignored (conflict C4; the spec derives R300 from R171 and R175): inputs that differ
only at indices congruent to 242 modulo 243 absorb alike and, as signature fragments, have the same digest;
every chunk squeezed has 0 there. Of `SIGFRAG`, which R300 names too, nothing is said here:
log entry 22. -/
def Obligations.KerlIgnoresTrit242 : Prop :=
  (∀ (K : List Byte) (m m' : List Trit), m.length = m'.length → m.length % 243 = 0 →
      (∀ i, i % 243 ≠ 242 → m[i]? = m'[i]?) → kerlAbsorb K m = kerlAbsorb K m')
    ∧ (∀ (p : Config.Params) (nf : List Int) (sig sig' : List Trit), sig.length = 6561 →
      sig'.length = 6561 → (∀ i, i % 243 ≠ 242 → sig[i]? = sig'[i]?) →
      sigDigest p nf sig = sigDigest p nf sig')
    ∧ ∀ (p : Config.Params) (K : List Byte) (n j : Nat), j < n →
        (kerlSqueeze p K (243 * n)).1[243 * j + 242]? = some .zero

/-- Two squeezes of Kerl are one (R181), two absorbs are one (R174), and a squeezed chunk survives `T2B` and
`B2T` (which R182 derives). R174 and R175 speak of whole chunks and of at least one: what the clauses say of
0 chunks, of an empty sequence and of a part of a chunk is THE MODEL'S CHOICE (log entry 20). -/
def Obligations.KerlSpongeComposes : Prop :=
  ∀ (p : Config.Params) (K : List Byte),
    (∀ n n', kerlSqueeze p K (243 * (n + n'))
        = ((kerlSqueeze p K (243 * n)).1 ++ (kerlSqueeze p (kerlSqueeze p K (243 * n)).2 (243 * n')).1,
           (kerlSqueeze p (kerlSqueeze p K (243 * n)).2 (243 * n')).2))
      ∧ (∀ m m' : List Trit, m.length % 243 = 0 →
        kerlAbsorb (kerlAbsorb K m) m' = kerlAbsorb K (m ++ m'))
      ∧ b2t (t2b (kerlSqueeze p K 243).1) = (kerlSqueeze p K 243).1

/-- The two values of the default hash that R172 quotes, as 384-bit numbers. The spec marks the default as
general knowledge, not in its source (log entry 5). -/
def Obligations.KeccakKnownValues : Prop :=
  bytesValue (keccak384 [])
      = 0x2c23146a63a29acf99e73b88f8c24eaa7dc60aa771780ccc006afbfa8fe2479b2dd2b21362337441ac12b515911957ff
    ∧ bytesValue (keccak384 [0x61, 0x62, 0x63])
      = 0xf7df1165f033337be098e7d288ad6a2f74409d7a60b49c36642218de161b1f99f8c681e4afaf31a34db29fb763e3c28e

/-- Normalization (R201): where the sum of a group of 27 is positive, elements are only decremented, from
the first on: there is a place `j` below which all are driven to -13, above which all are unchanged, and
none, that at `j` included, is above what it was. Where the sum is negative, elements are only incremented,
and those below `j` are driven to 13. The result sums to zero with every value in [-13, 13]. A group that
sums to zero is unchanged, and a second normalization changes nothing. -/
def Obligations.NormalizeDrivesFirstElements : Prop :=
  (∀ v : List Int, v.length = 27 → (∀ a ∈ v, -13 ≤ a ∧ a ≤ 13) →
      (normalizeGroup v).length = 27 ∧ (normalizeGroup v).sum = 0
        ∧ (∀ a ∈ normalizeGroup v, -13 ≤ a ∧ a ≤ 13)
        ∧ (v.sum = 0 → normalizeGroup v = v)
        ∧ (0 < v.sum → ∃ j, j < 27 ∧ ∀ i, i < 27 →
            (i < j → (normalizeGroup v)[i]? = some (-13))
              ∧ (normalizeGroup v).getD i 0 ≤ v.getD i 0
              ∧ (j < i → (normalizeGroup v)[i]? = v[i]?))
        ∧ (v.sum < 0 → ∃ j, j < 27 ∧ ∀ i, i < 27 →
            (i < j → (normalizeGroup v)[i]? = some 13)
              ∧ v.getD i 0 ≤ (normalizeGroup v).getD i 0
              ∧ (j < i → (normalizeGroup v)[i]? = v[i]?)))
    ∧ ∀ h : List Trit, h.length = 243 →
        (∀ g, g < 3 → groupOf (normalize h) g = normalizeGroup (groupOf (tryteValues h) g))
          ∧ normalize (valuesToTrits (normalize h)) = normalize h

/-- The chain-length law, which the spec derives (R212: "sum to 26, the fixed chain of `digests`"): signer's
and verifier's chains make up the 26 hashes of `digests`, so the digest of a signature is the digest of the
key fragment. -/
def Obligations.SignatureDigestIsKeyDigest : Prop :=
  (∀ n : Int, -13 ≤ n → n ≤ 13 →
      0 ≤ 13 - n ∧ 13 - n ≤ 26 ∧ 0 ≤ n + 13 ∧ n + 13 ≤ 26 ∧ (13 - n) + (n + 13) = 26)
    ∧ (∀ (p : Config.Params) (n : Int) (b : List Trit), -13 ≤ n → n ≤ 13 →
        (kerlHash243 p)^[(n + 13).toNat] ((kerlHash243 p)^[(13 - n).toNat] b) = (kerlHash243 p)^[26] b)
    ∧ ∀ (p : Config.Params) (nf : List Int) (kf : List Trit), nf.length = 27 →
        (∀ n ∈ nf, -13 ≤ n ∧ n ≤ 13) → kf.length = 6561 →
        sigDigest p nf (sigFrag p nf kf) = digestsOf p kf

/-- The end-to-end law, both halves, which the spec derives (R216), for every hash function and either
re-seed order. First: a signature made with the derived key validates against the derived address. Second:
where a signature validates, no signature of its length that differs from it at an index that is not
congruent to 242 modulo 243 validates in its place, as long as `H384` is collision-free on what the two
verifications hash; and a change at the other indices alone leaves the verdict as it is. An expected address
whose trit 242 is not 0 never validates (R213). In what form collision-freeness is asked: log entry 21. -/
def Obligations.DerivedSignaturesValidate : Prop :=
  (∀ (p : Config.Params) (seed : List Trit) (index : Int) (sec : Nat) (h : List Trit),
      seed ≠ [] → 0 < sec → h.length = 243 →
      let key := keygen p seed index sec
      validate p (addressOf p key) (signatureOf p key h) h = true
        ∧ (signatureOf p key h).length = 6561 * sec)
    ∧ (∀ (p : Config.Params) (addr frags frags' h : List Trit),
        frags.length % 6561 = 0 → frags'.length = frags.length → h.length = 243 →
        validate p addr frags h = true →
        ((∃ i, i % 243 ≠ 242 ∧ frags[i]? ≠ frags'[i]?) → CollisionFree p frags frags' h →
            validate p addr frags' h = false)
          ∧ ((∀ i, i % 243 ≠ 242 → frags[i]? = frags'[i]?) → validate p addr frags' h = true))
    ∧ ∀ (p : Config.Params) (addr frags h : List Trit), addr[242]? ≠ some .zero →
        validate p addr frags h = false
end

