-- ==== Sys2Proof/Laws/Trits.lean ====
section
/-! SUPPORT. Trit sequences as integers (spec/00_scope.md R10), the digit loops of spec/40_codec.md R114
and R123, the tryte table (R111) and pieces of sequences. -/

namespace Sys2Proof.Machine

open Sys2Proof

@[simp] theorem tabulate_getElem {α : Type} {n : Nat} (f : Fin n → α) (i : Nat) (h : i < n) :
    (tabulate f)[i] = f ⟨i, h⟩ := by simp [tabulate]

/-! ### One trit -/

theorem toInt_cases (t : Trit) : t.toInt = -1 ∨ t.toInt = 0 ∨ t.toInt = 1 := by
  cases t <;> simp [Trit.toInt]

theorem toInt_bounds (t : Trit) : -1 ≤ t.toInt ∧ t.toInt ≤ 1 := by cases t <;> simp [Trit.toInt]

theorem toInt_injective {t u : Trit} (h : t.toInt = u.toInt) : t = u := by
  cases t <;> cases u <;> simp_all [Trit.toInt]

@[simp] theorem negTrit_toInt (t : Trit) : (negTrit t).toInt = -t.toInt := by cases t <;> rfl

@[simp] theorem negTrit_negTrit (t : Trit) : negTrit (negTrit t) = t := by cases t <;> rfl

@[simp] theorem negTrit_eq_zero (t : Trit) : negTrit t = .zero ↔ t = .zero := by
  cases t <;> simp [negTrit]

/-! ### The value of a sequence -/

@[simp] theorem btValue_nil : btValue [] = 0 := rfl

@[simp] theorem btValue_cons (d : Trit) (t : List Trit) : btValue (d :: t) = d.toInt + 3 * btValue t := rfl

theorem btValue_append (t u : List Trit) :
    btValue (t ++ u) = btValue t + 3 ^ t.length * btValue u := by
  induction t with
  | nil => simp
  | cons d t ih => simp only [List.cons_append, btValue_cons, ih, List.length_cons, pow_succ]; ring

@[simp] theorem btValue_zeros (n : Nat) : btValue (zeros n) = 0 := by
  induction n with
  | zero => rfl
  | succ n ih => simp_all [zeros, List.replicate_succ, Trit.toInt]

theorem btValue_map_negTrit (t : List Trit) : btValue (t.map negTrit) = -btValue t := by
  induction t with
  | nil => rfl
  | cons d t ih => simp [ih]; ring

/-- The range of `n` trits (R126): from `-(3^n - 1)/2` to `(3^n - 1)/2`. -/
theorem btValue_bounds (t : List Trit) :
    -(3 ^ t.length - 1) ≤ 2 * btValue t ∧ 2 * btValue t ≤ 3 ^ t.length - 1 := by
  induction t with
  | nil => simp
  | cons d t ih =>
    have := toInt_bounds d
    simp only [btValue_cons, List.length_cons, pow_succ]
    constructor <;> omega

/-- Sequences of one length that denote one integer are equal. -/
theorem btValue_injective {t u : List Trit} (hl : t.length = u.length)
    (h : btValue t = btValue u) : t = u := by
  induction t generalizing u with
  | nil => cases u with
    | nil => rfl
    | cons => simp at hl
  | cons d t ih =>
    cases u with
    | nil => simp at hl
    | cons e u =>
      have hd := toInt_bounds d
      have he := toInt_bounds e
      simp only [btValue_cons] at h
      have hde : d.toInt = e.toInt := by omega
      have htu : btValue t = btValue u := by omega
      rw [toInt_injective hde, ih (by simpa using hl) htu]

/-! ### The digit loops -/

theorem digit_step (m : Nat) : (digitTrit (m % 3)).toInt + 3 * (digitRest m : Int) = m := by
  have h : m % 3 = 0 ∨ m % 3 = 1 ∨ m % 3 = 2 := by omega
  unfold digitTrit digitRest
  rcases h with h | h | h <;> simp [h, Trit.toInt] <;> omega

theorem digitRest_lt {m : Nat} (h : 0 < m) : digitRest m < m := by
  unfold digitRest; split <;> omega

theorem btValue_minimalDigits {fuel m : Nat} (h : m ≤ fuel) : btValue (minimalDigits fuel m) = m := by
  induction fuel generalizing m with
  | zero => simp [minimalDigits]; omega
  | succ fuel ih =>
    unfold minimalDigits
    split
    · simp_all
    · have := digitRest_lt (m := m) (by omega)
      rw [btValue_cons, ih (by omega), digit_step]

theorem minimalDigits_zero (fuel : Nat) : minimalDigits fuel 0 = [] := by
  cases fuel <;> simp [minimalDigits]

theorem minimalDigits_ne_nil {fuel m : Nat} (h : m ≤ fuel) (hm : m ≠ 0) :
    minimalDigits fuel m ≠ [] := by
  cases fuel with
  | zero => omega
  | succ fuel => simp [minimalDigits, hm]

/-- The last digit of a minimal sequence is not 0 (R114). -/
theorem minimalDigits_getLast {fuel m : Nat} (h : m ≤ fuel) (hm : m ≠ 0) :
    (minimalDigits fuel m).getLast (minimalDigits_ne_nil h hm) ≠ .zero := by
  induction fuel generalizing m with
  | zero => omega
  | succ fuel ih =>
    have hrest := digitRest_lt (m := m) (by omega)
    by_cases h0 : digitRest m = 0
    · have hm1 : m = 1 := by
        unfold digitRest at h0
        split at h0 <;> omega
      subst hm1
      simp [minimalDigits, h0, minimalDigits_zero, digitTrit]
    · have := ih (m := digitRest m) (by omega) h0
      simp only [minimalDigits, if_neg hm]
      rwa [List.getLast_cons (minimalDigits_ne_nil (by omega) h0)]

@[simp] theorem fixedDigits_length (n m : Nat) : (fixedDigits n m).length = n := by
  induction n generalizing m with
  | zero => rfl
  | succ n ih => simp [fixedDigits, ih]

/-- What `n` digits of `m` leave is a multiple of `3^n`. -/
theorem btValue_fixedDigits_rest (n m : Nat) :
    ∃ r : Nat, btValue (fixedDigits n m) + 3 ^ n * (r : Int) = m := by
  induction n generalizing m with
  | zero => exact ⟨m, by simp [fixedDigits]⟩
  | succ n ih =>
    obtain ⟨r, hr⟩ := ih (digitRest m)
    refine ⟨r, ?_⟩
    have := digit_step m
    simp only [fixedDigits, btValue_cons, pow_succ]
    linear_combination 3 * hr + this

/-- `n` digits denote `m` where `m` is in their range (R123). -/
theorem btValue_fixedDigits {n m : Nat} (h : 2 * m ≤ 3 ^ n - 1) : btValue (fixedDigits n m) = m := by
  obtain ⟨r, hr⟩ := btValue_fixedDigits_rest n m
  have hb := (btValue_bounds (fixedDigits n m)).1
  have hb2 := (btValue_bounds (fixedDigits n m)).2
  rw [fixedDigits_length] at hb hb2
  have hpos : 0 < 3 ^ n := Nat.pos_of_ne_zero (by positivity)
  have hpow : ((3 ^ n : Nat) : Int) = 3 ^ n := by push_cast; rfl
  have h' : 2 * (m : Int) ≤ 3 ^ n - 1 := by omega
  rcases Nat.eq_zero_or_pos r with rfl | hr0
  · simpa using hr
  · exfalso
    have : (3 : Int) ^ n ≤ 3 ^ n * (r : Int) := by
      have h3 : (0 : Int) < 3 ^ n := by positivity
      nlinarith
    omega

theorem btValue_signDigits (v : Int) (d : List Trit) (h : btValue d = v.natAbs) :
    btValue (signDigits v d) = v := by
  unfold signDigits
  split
  · rw [btValue_map_negTrit, h]; omega
  · rw [h]; omega

@[simp] theorem signDigits_length (v : Int) (d : List Trit) : (signDigits v d).length = d.length := by
  unfold signDigits; split <;> simp

/-- `int_to_trits(v)` denotes `v` (R114). -/
@[simp] theorem btValue_intToTrits (v : Int) : btValue (intToTrits v) = v :=
  btValue_signDigits v _ (btValue_minimalDigits le_rfl)

@[simp] theorem intToTrits_zero : intToTrits 0 = [] := by
  simp [intToTrits, minimalDigits, signDigits]

theorem intToTrits_ne_nil {v : Int} (h : v ≠ 0) : intToTrits v ≠ [] := by
  intro hn
  have := btValue_intToTrits v
  rw [hn] at this
  exact h this.symm

theorem intToTrits_getLast {v : Int} (h : v ≠ 0) :
    (intToTrits v).getLast (intToTrits_ne_nil h) ≠ .zero := by
  have hne := minimalDigits_getLast (m := v.natAbs) le_rfl (by omega)
  simp only [intToTrits, signDigits]
  split
  · rw [List.getLast_map]
    simpa using hne
  · exact hne

@[simp] theorem fixedTrits_length (n : Nat) (v : Int) : (fixedTrits n v).length = n := by
  simp [fixedTrits]

/-- `n` trits denote `v` where `v` is in their range (R123). -/
theorem btValue_fixedTrits {n : Nat} {v : Int} (h : 2 * v.natAbs ≤ 3 ^ n - 1) :
    btValue (fixedTrits n v) = v :=
  btValue_signDigits v _ (btValue_fixedDigits h)

/-- A sequence is the fixed-width form of the integer it denotes. -/
theorem fixedTrits_btValue (t : List Trit) : fixedTrits t.length (btValue t) = t := by
  apply btValue_injective (by simp)
  apply btValue_fixedTrits
  have hb := btValue_bounds t
  have hpos : 0 < 3 ^ t.length := Nat.pos_of_ne_zero (by positivity)
  have hpow : ((3 ^ t.length : Nat) : Int) = 3 ^ t.length := by push_cast; rfl
  omega

/-- A sequence whose last trit is not 0 denotes at least half of the range of one trit less. -/
theorem btValue_lower (t : List Trit) (hn : t ≠ []) (hl : t.getLast hn ≠ .zero) :
    3 ^ (t.length - 1) + 1 ≤ 2 * (btValue t).natAbs := by
  have hsplit := List.dropLast_append_getLast hn
  generalize t.getLast hn = e at hl hsplit
  generalize t.dropLast = u at hsplit
  subst hsplit
  have hb := btValue_bounds u
  have hpow : ((3 ^ u.length : Nat) : Int) = 3 ^ u.length := by push_cast; rfl
  simp only [btValue_append, btValue_cons, btValue_nil, List.length_append, List.length_cons,
    List.length_nil, mul_zero, add_zero]
  have hlen : u.length + (0 + 1) - 1 = u.length := by omega
  rw [hlen]
  cases e with
  | zero => exact absurd rfl hl
  | pos => simp only [Trit.toInt]; omega
  | neg => simp only [Trit.toInt]; omega

/-- A 64-bit integer has at most 41 trits (R114). -/
theorem intToTrits_length_le (v : Int) (h1 : -(2 ^ 63) ≤ v) (h2 : v ≤ 2 ^ 63) :
    (intToTrits v).length ≤ 41 := by
  by_cases h0 : v = 0
  · subst h0; simp
  · have hlow := btValue_lower _ (intToTrits_ne_nil h0) (intToTrits_getLast h0)
    rw [btValue_intToTrits] at hlow
    by_contra hlen
    have hmono : 3 ^ 41 ≤ 3 ^ ((intToTrits v).length - 1) := Nat.pow_le_pow_right (by decide) (by omega)
    have : (3 : Nat) ^ 41 = 36472996377170786403 := by norm_num
    omega

/-! ### The tryte table -/

theorem alphabet_cases {c : Byte} (h : inAlphabet c = true) : ∃ row ∈ tryteTable, row.ascii = c := by
  revert c; decide

theorem tryteOf_tripleOf {c : Byte} (h : inAlphabet c = true) :
    ∃ t0 t1 t2, tripleOf c = [t0, t1, t2] ∧ tryteOf t0 t1 t2 = c := by
  obtain ⟨row, hrow, rfl⟩ := alphabet_cases h
  refine ⟨row.t0, row.t1, row.t2, ?_⟩
  clear h
  revert row; decide

theorem tripleOf_tryteOf (t0 t1 t2 : Trit) : tripleOf (tryteOf t0 t1 t2) = [t0, t1, t2] := by
  cases t0 <;> cases t1 <;> cases t2 <;> decide

theorem tryteOf_inAlphabet (t0 t1 t2 : Trit) : inAlphabet (tryteOf t0 t1 t2) = true := by
  cases t0 <;> cases t1 <;> cases t2 <;> decide

@[simp] theorem tripleOf_length (c : Byte) : (tripleOf c).length = 3 := by
  unfold tripleOf
  split <;> simp [zeros]

theorem symIndex_lt {c : Byte} (h : inAlphabet c = true) : symIndex c < 27 := by
  obtain ⟨row, hrow, rfl⟩ := alphabet_cases h
  revert row; decide

theorem symbolAt_symIndex {c : Byte} (h : inAlphabet c = true) : symbolAt (symIndex c) = c := by
  obtain ⟨row, hrow, rfl⟩ := alphabet_cases h
  revert row; decide

theorem symIndex_symbolAt {k : Nat} (h : k < 27) : symIndex (symbolAt k) = k := by
  revert h; revert k; decide

theorem symbolAt_inAlphabet {k : Nat} (h : k < 27) : inAlphabet (symbolAt k) = true := by
  revert h; revert k; decide

theorem tryteValue_bounds (t0 t1 t2 : Trit) : -13 ≤ tryteValue t0 t1 t2 ∧ tryteValue t0 t1 t2 ≤ 13 := by
  cases t0 <;> cases t1 <;> cases t2 <;> decide

theorem tryteValue_eq_btValue (t0 t1 t2 : Trit) : tryteValue t0 t1 t2 = btValue [t0, t1, t2] := by
  simp [tryteValue]; ring

/-! ### Sequences read three trits at a time -/

@[simp] theorem trytesOf_length (t : List Trit) : (trytesOf t).length = t.length / 3 := by
  induction t using trytesOf.induct with
  | case1 t0 t1 t2 rest ih => simp [trytesOf, ih]; omega
  | case2 t h =>
    match t, h with
    | [], _ => simp [trytesOf]
    | [_], _ => simp [trytesOf]
    | [_, _], _ => simp [trytesOf]
    | a :: b :: c :: r, h => exact absurd rfl (h a b c r)

@[simp] theorem tryteValues_length (t : List Trit) : (tryteValues t).length = t.length / 3 := by
  induction t using tryteValues.induct with
  | case1 t0 t1 t2 rest ih => simp [tryteValues, ih]; omega
  | case2 t h =>
    match t, h with
    | [], _ => simp [tryteValues]
    | [_], _ => simp [tryteValues]
    | [_, _], _ => simp [tryteValues]
    | a :: b :: c :: r, h => exact absurd rfl (h a b c r)

theorem trytesOf_getElem (t : List Trit) (k : Nat) (h : k < (trytesOf t).length) :
    (trytesOf t)[k] = tryteOf (t[3 * k]'(by simp at h; omega)) (t[3 * k + 1]'(by simp at h; omega))
      (t[3 * k + 2]'(by simp at h; omega)) := by
  induction t using trytesOf.induct generalizing k with
  | case1 t0 t1 t2 rest ih =>
    cases k with
    | zero => rfl
    | succ k =>
      have hk : k < (trytesOf rest).length := by simpa [trytesOf] using h
      have h1 : 3 * (k + 1) = 3 * k + 1 + 1 + 1 := by ring
      simp only [trytesOf, List.getElem_cons_succ, h1]
      exact ih k hk
  | case2 t hh =>
    match t, hh with
    | [], _ => simp [trytesOf] at h
    | [_], _ => simp [trytesOf] at h
    | [_, _], _ => simp [trytesOf] at h
    | a :: b :: c :: r, hh => exact absurd rfl (hh a b c r)

theorem tryteValues_getElem (t : List Trit) (k : Nat) (h : k < (tryteValues t).length) :
    (tryteValues t)[k] = tryteValue (t[3 * k]'(by simp at h; omega))
      (t[3 * k + 1]'(by simp at h; omega)) (t[3 * k + 2]'(by simp at h; omega)) := by
  induction t using tryteValues.induct generalizing k with
  | case1 t0 t1 t2 rest ih =>
    cases k with
    | zero => rfl
    | succ k =>
      have hk : k < (tryteValues rest).length := by simpa [tryteValues] using h
      have h1 : 3 * (k + 1) = 3 * k + 1 + 1 + 1 := by ring
      simp only [tryteValues, List.getElem_cons_succ, h1]
      exact ih k hk
  | case2 t hh =>
    match t, hh with
    | [], _ => simp [tryteValues] at h
    | [_], _ => simp [tryteValues] at h
    | [_, _], _ => simp [tryteValues] at h
    | a :: b :: c :: r, hh => exact absurd rfl (hh a b c r)

/-- Every element of a normalized-hash region is in [-13, 13] (spec/44_signing.md R200). -/
theorem tryteValues_bounds (t : List Trit) : ∀ v ∈ tryteValues t, -13 ≤ v ∧ v ≤ 13 := by
  intro v hv
  obtain ⟨k, hk, rfl⟩ := List.getElem_of_mem hv
  rw [tryteValues_getElem]
  exact tryteValue_bounds _ _ _

@[simp] theorem valuesToTrits_length (v : List Int) : (valuesToTrits v).length = 3 * v.length := by
  induction v with
  | nil => rfl
  | cons a v ih =>
    have h : valuesToTrits (a :: v) = fixedTrits 3 a ++ valuesToTrits v := rfl
    rw [h, List.length_append, ih, fixedTrits_length, List.length_cons]; ring

/-- Storing values in [-13, 13] as trytes and reading them back gives them (R200). -/
theorem tryteValues_valuesToTrits (v : List Int) (h : ∀ a ∈ v, -13 ≤ a ∧ a ≤ 13) :
    tryteValues (valuesToTrits v) = v := by
  induction v with
  | nil => rfl
  | cons a v ih =>
    have hv : valuesToTrits (a :: v) = fixedTrits 3 a ++ valuesToTrits v := rfl
    have ha := h a (by simp)
    have hlen : (fixedTrits 3 a).length = 3 := fixedTrits_length 3 a
    obtain ⟨t0, t1, t2, ht⟩ : ∃ t0 t1 t2, fixedTrits 3 a = [t0, t1, t2] := by
      match hf : fixedTrits 3 a, hlen with
      | [t0, t1, t2], _ => exact ⟨t0, t1, t2, rfl⟩
    have hval : btValue (fixedTrits 3 a) = a := btValue_fixedTrits (by norm_num; omega)
    rw [hv, ht]
    simp only [List.cons_append, List.nil_append, tryteValues]
    rw [tryteValue_eq_btValue, ← ht, hval, ih (fun b hb => h b (by simp [hb]))]

/-- Reading a whole number of trytes and storing them back gives the sequence. -/
theorem valuesToTrits_tryteValues (t : List Trit) (h : t.length % 3 = 0) :
    valuesToTrits (tryteValues t) = t := by
  induction t using tryteValues.induct with
  | case1 t0 t1 t2 rest ih =>
    have h3 := fixedTrits_btValue [t0, t1, t2]
    have hr : rest.length % 3 = 0 := by simp at h; omega
    have hv : valuesToTrits (tryteValues (t0 :: t1 :: t2 :: rest))
        = fixedTrits 3 (tryteValue t0 t1 t2) ++ valuesToTrits (tryteValues rest) := rfl
    rw [hv, ih hr, tryteValue_eq_btValue]
    have hl : [t0, t1, t2].length = 3 := rfl
    rw [hl] at h3
    rw [h3]; rfl
  | case2 t hh =>
    match t, hh with
    | [], _ => rfl
    | [_], _ => simp at h
    | [_, _], _ => simp at h
    | a :: b :: c :: r, hh => exact absurd rfl (hh a b c r)

/-! ### Pieces and chunks -/

@[simp] theorem piece_length (size : Nat) (t : List Trit) (j : Nat) :
    (piece size t j).length = min size (t.length - size * j) := by
  simp [piece]

@[simp] theorem chunks243_length (t : List Trit) : (chunks243 t).length = (t.length + 242) / 243 := by
  simp [chunks243]

theorem chunks243_nil : chunks243 [] = [] := by simp [chunks243]

theorem piece_append_add (size : Nat) (t u : List Trit) (j : Nat) (h : t.length = size) :
    piece size (t ++ u) (j + 1) = piece size u j := by
  simp only [piece]
  have : size * (j + 1) = t.length + size * j := by rw [h]; ring
  rw [this, List.drop_append, List.drop_eq_nil_of_le (by omega)]
  simp

theorem piece_append_zero (size : Nat) (t u : List Trit) (h : t.length = size) :
    piece size (t ++ u) 0 = t := by
  simp [piece, ← h]

/-- A whole chunk and what follows it. -/
theorem chunks243_append (t u : List Trit) (h : t.length = 243) :
    chunks243 (t ++ u) = t :: chunks243 u := by
  simp only [chunks243, List.length_append, h]
  have hn : (243 + u.length + 242) / 243 = (u.length + 242) / 243 + 1 := by omega
  rw [hn, List.range_succ_eq_map, List.map_cons, List.map_map, piece_append_zero 243 t u h]
  congr 1
  apply List.map_congr_left
  intro j _
  exact piece_append_add 243 t u j h

/-- The chunks of a sequence that begins with a whole number of chunks. -/
theorem chunks243_append_of_dvd (t u : List Trit) (n : Nat) (h : t.length = 243 * n) :
    chunks243 (t ++ u) = chunks243 t ++ chunks243 u := by
  induction n generalizing t with
  | zero =>
    have : t = [] := List.length_eq_zero_iff.mp (by omega)
    subst this; simp [chunks243_nil]
  | succ n ih =>
    have hsplit := (List.take_append_drop 243 t).symm
    have h1 : (t.take 243).length = 243 := by simp; omega
    have h2 : (t.drop 243).length = 243 * n := by simp; omega
    rw [hsplit, List.append_assoc, chunks243_append _ _ h1, chunks243_append _ _ h1, ih _ h2]
    rfl

theorem chunks243_single (t : List Trit) (h : t.length = 243) : chunks243 t = [t] := by
  have := chunks243_append t [] h
  simpa [chunks243_nil] using this

/-- Each chunk of a whole number of chunks has 243 trits. -/
theorem chunks243_all_whole (t : List Trit) (h : t.length % 243 = 0) :
    ∀ c ∈ chunks243 t, c.length = 243 := by
  intro c hc
  simp only [chunks243, List.mem_map, List.mem_range] at hc
  obtain ⟨j, hj, rfl⟩ := hc
  rw [piece_length]; omega

end Sys2Proof.Machine
end

