-- ==== Sys2Proof/Laws/Adder.lean ====
section
/-! SUPPORT. The digit step and the digit loop of the adder (spec/41_adder.md R140 to R144). -/

namespace Sys2Proof.Machine

open Sys2Proof

/-- The digit identity of R141: `a + b + c_in = out + 3*c_out` in all 27 cases. -/
theorem digit_identity (a b c : Trit) :
    a.toInt + b.toInt + c.toInt = (digitOut a b c).toInt + 3 * (carryOut a b c).toInt := by
  cases a <;> cases b <;> cases c <;> decide

theorem digitOut_comm (a b c : Trit) : digitOut a b c = digitOut b a c := by
  cases a <;> cases b <;> cases c <;> decide

theorem carryOut_comm (a b c : Trit) : carryOut a b c = carryOut b a c := by
  cases a <;> cases b <;> cases c <;> decide

theorem digitOut_zero (a : Trit) : digitOut a .zero .zero = a := by cases a <;> decide

theorem carryOut_zero (a : Trit) : carryOut a .zero .zero = .zero := by cases a <;> decide

@[simp] theorem addDigits_length (l : List (Trit × Trit)) (c : Trit) : (addDigits l c).length = l.length := by
  induction l generalizing c with
  | nil => rfl
  | cons p l ih => simp [addDigits, ih]

/-- The sum of the digits, with the carry that the loop drops (R143). -/
theorem btValue_addDigits (l : List (Trit × Trit)) (c : Trit) :
    ∃ cf : Trit, btValue (addDigits l c) + 3 ^ l.length * cf.toInt
      = btValue (l.map Prod.fst) + btValue (l.map Prod.snd) + c.toInt := by
  induction l generalizing c with
  | nil => exact ⟨c, by simp [addDigits]⟩
  | cons p l ih =>
    obtain ⟨a, b⟩ := p
    obtain ⟨cf, hcf⟩ := ih (carryOut a b c)
    refine ⟨cf, ?_⟩
    have hd := digit_identity a b c
    simp only [addDigits, btValue_cons, List.map_cons, List.length_cons, pow_succ]
    linear_combination 3 * hcf - hd

theorem addDigits_comm (l : List (Trit × Trit)) (c : Trit) :
    addDigits (l.map Prod.swap) c = addDigits l c := by
  induction l generalizing c with
  | nil => rfl
  | cons p l ih =>
    obtain ⟨a, b⟩ := p
    simp only [List.map_cons, Prod.swap_prod_mk, addDigits, ih, digitOut_comm b a, carryOut_comm b a]

theorem extendTo_length {n : Nat} {t : List Trit} (h : t.length ≤ n) : (extendTo n t).length = n := by
  simp [extendTo, zeros]; omega

@[simp] theorem btValue_extendTo (n : Nat) (t : List Trit) : btValue (extendTo n t) = btValue t := by
  rw [extendTo, btValue_append, btValue_zeros]; simp

@[simp] theorem tadd_length (a b : List Trit) : (tadd a b).length = max a.length b.length := by
  simp only [tadd, addDigits_length, List.length_zip]
  rw [extendTo_length (le_max_left _ _), extendTo_length (le_max_right _ _)]
  simp

end Sys2Proof.Machine
end

