-- ==== Sys2Proof/Laws/Bridge.lean ====
section
/-! SUPPORT. The binary bridge as arithmetic (spec/40_codec.md R121, R123). -/

namespace Sys2Proof.Machine

open Sys2Proof

/-! ### Bytes and numbers -/

@[simp] theorem bytes48_length (u : Nat) : (bytes48 u).length = 48 := by simp [bytes48]

theorem bytesValue_append_singleton (b : List Byte) (c : Byte) :
    bytesValue (b ++ [c]) = 256 * bytesValue b + c.toNat := by
  simp [bytesValue, List.foldl_append]

@[simp] theorem bytesValue_nil : bytesValue [] = 0 := rfl

theorem bytesValue_lt (b : List Byte) : bytesValue b < 256 ^ b.length := by
  induction b using List.reverseRecOn with
  | nil => simp
  | append_singleton b c ih =>
    rw [bytesValue_append_singleton, List.length_append, List.length_singleton, pow_succ]
    have := c.isLt
    omega

theorem bytesValue_injective {b c : List Byte} (hl : b.length = c.length)
    (h : bytesValue b = bytesValue c) : b = c := by
  induction b using List.reverseRecOn generalizing c with
  | nil => exact (List.length_eq_zero_iff.mp hl.symm).symm
  | append_singleton b x ih =>
    induction c using List.reverseRecOn with
    | nil => simp at hl
    | append_singleton c y _ =>
      rw [bytesValue_append_singleton, bytesValue_append_singleton] at h
      have hx : x.toNat < 2 ^ 8 := x.isLt
      have hy : y.toNat < 2 ^ 8 := y.isLt
      have hxy : x = y := BitVec.eq_of_toNat_eq (by omega)
      have hbc : b = c := ih (by simpa using hl) (by omega)
      rw [hbc, hxy]

theorem bytesValue_digits (n u : Nat) :
    bytesValue ((List.range n).map fun j => BitVec.ofNat 8 (u / 256 ^ (n - 1 - j))) = u % 256 ^ n := by
  induction n generalizing u with
  | zero => simp [Nat.mod_one]
  | succ n ih =>
    have hinit : ((List.range n).map fun j => BitVec.ofNat 8 (u / 256 ^ (n + 1 - 1 - j)))
        = (List.range n).map fun j => BitVec.ofNat 8 (u / 256 / 256 ^ (n - 1 - j)) := by
      apply List.map_congr_left
      intro j hj
      have hj' : j < n := by simpa using hj
      have h1 : n + 1 - 1 - j = (n - 1 - j) + 1 := by omega
      rw [h1, pow_succ, Nat.mul_comm, Nat.div_div_eq_div_mul]
    rw [List.range_succ, List.map_append, List.map_singleton, bytesValue_append_singleton, hinit, ih]
    have h2 : n + 1 - 1 - n = 0 := by omega
    have h3 : u % 256 ^ (n + 1) = u % 256 + 256 * (u / 256 % 256 ^ n) := by
      rw [pow_succ, Nat.mul_comm (256 ^ n) 256, Nat.mod_mul]
    simp only [h2, pow_zero, Nat.div_one, BitVec.toNat_ofNat]
    omega

/-- The number that the 48 bytes of a 384-bit number denote (spec/20_memory.md R62). -/
theorem bytesValue_bytes48 (u : Nat) : bytesValue (bytes48 u) = u % 256 ^ 48 := by
  have h := bytesValue_digits 48 u
  exact h

theorem bytes48_bytesValue (b : List Byte) (h : b.length = 48) : bytes48 (bytesValue b) = b := by
  apply bytesValue_injective (by simp [h])
  rw [bytesValue_bytes48]
  apply Nat.mod_eq_of_lt
  have := bytesValue_lt b
  rwa [h] at this

/-! ### Trit 242 -/

@[simp] theorem clearTop_length (t : List Trit) : (clearTop t).length = t.length := by simp [clearTop]

theorem clearTop_eq (t : List Trit) (h : t.length = 243) : clearTop t = t.take 242 ++ [.zero] := by
  rw [clearTop, List.set_eq_take_append_cons_drop, if_pos (by omega), List.drop_eq_nil_of_le (by omega)]

theorem clearTop_clearTop (t : List Trit) : clearTop (clearTop t) = clearTop t := by
  simp [clearTop]

theorem btValue_clearTop (t : List Trit) (h : t.length = 243) :
    btValue (clearTop t) = btValue (t.take 242) := by
  rw [clearTop_eq t h, btValue_append]; simp [Trit.toInt]

theorem clearTop_getElem (t : List Trit) (h : 242 < (clearTop t).length) : (clearTop t)[242] = .zero := by
  simp [clearTop]

/-- The bound of R121: 242 trits stay below `128 * 256^47` = 2^383. -/
theorem btValue_clearTop_bounds (t : List Trit) (h : t.length = 243) :
    -(128 * 256 ^ 47) < btValue (clearTop t) ∧ btValue (clearTop t) < (128 * 256 ^ 47) := by
  have hb := btValue_bounds (t.take 242)
  have hl : (t.take 242).length = 242 := by simp [h]
  rw [btValue_clearTop t h]
  rw [hl] at hb
  have h3 : (3 : Int) ^ 242 < 2 * (128 * 256 ^ 47) := by norm_num
  omega

/-! ### `t2b` and `b2t` -/

@[simp] theorem t2b_length (t : List Trit) : (t2b t).length = 48 := by simp [t2b]

@[simp] theorem b2t_length (b : List Byte) : (b2t b).length = 243 := by simp [b2t]

theorem t2b_clearTop (t : List Trit) : t2b (clearTop t) = t2b t := by
  simp only [t2b, clearTop_clearTop]

theorem signed384_mod (v : Int) (h1 : -(128 * 256 ^ 47) ≤ v) (h2 : v < (128 * 256 ^ 47)) :
    signed384 (v % 256 ^ 48).toNat = v := by
  unfold signed384
  by_cases h : 0 ≤ v
  · rw [Int.emod_eq_of_lt h (by omega), if_neg (by omega)]; omega
  · have hm : v % 256 ^ 48 = v + 256 ^ 48 := by
      rw [← Int.add_emod_right, Int.emod_eq_of_lt (by omega) (by omega)]
    rw [hm, if_pos (by omega)]; omega

theorem signed384_bounds (u : Nat) (h : u < 256 ^ 48) :
    -(128 * 256 ^ 47) ≤ signed384 u ∧ signed384 u < (128 * 256 ^ 47) := by
  unfold signed384; split <;> omega

theorem signed384_emod (u : Nat) (h : u < 256 ^ 48) : (signed384 u % 256 ^ 48).toNat = u := by
  unfold signed384
  split
  · rw [← Int.add_emod_right, Int.emod_eq_of_lt (by omega) (by omega)]; omega
  · rw [Int.emod_eq_of_lt (by omega) (by omega)]; omega

/-- `t2b` gives the two's complement of the value of the 242 low trits (R121). -/
theorem signed384_t2b (t : List Trit) (h : t.length = 243) :
    signed384 (bytesValue (t2b t)) = btValue (clearTop t) := by
  have hb := btValue_clearTop_bounds t h
  rw [t2b, bytesValue_bytes48, Nat.mod_eq_of_lt (by omega), signed384_mod _ (by omega) hb.2]

theorem bytesValue_lt_of_length (b : List Byte) (h : b.length = 48) : bytesValue b < 256 ^ 48 := by
  have := bytesValue_lt b
  rw [h] at this
  exact this

/-- `b2t` gives the trits of the signed number the bytes denote (R123). -/
theorem btValue_b2t (b : List Byte) (h : b.length = 48) :
    btValue (b2t b) = signed384 (bytesValue b) := by
  have hb := signed384_bounds _ (bytesValue_lt_of_length b h)
  apply btValue_fixedTrits
  have h3 : 2 * (128 * 256 ^ 47) ≤ 3 ^ 243 - 1 := by norm_num
  omega

theorem t2b_eq_of_signed (b : List Byte) (h : b.length = 48) :
    bytes48 (signed384 (bytesValue b) % 256 ^ 48).toNat = b := by
  rw [signed384_emod _ (bytesValue_lt_of_length b h), bytes48_bytesValue b h]

end Sys2Proof.Machine
end

