-- ==== Sys2Proof/Laws/State.lean ====
section
/-! SUPPORT. One lemma per field of the state for each update of it, true by `rfl`, so that no proof
unfolds a record update; and the same for the reads `reg`, `tmAt`, `bmAt`, `uval` and `sval`. -/

namespace Sys2Proof.Machine

open Sys2Proof

variable (s : State)

@[simp] theorem State.writeT_params (a : Nat) (v : List Trit) : (s.writeT a v).params = s.params := rfl
@[simp] theorem State.writeT_x (a : Nat) (v : List Trit) : (s.writeT a v).x = s.x := rfl
@[simp] theorem State.writeT_tm (a : Nat) (v : List Trit) : (s.writeT a v).tm = memWrite s.tm a v := rfl
@[simp] theorem State.writeT_bm (a : Nat) (v : List Trit) : (s.writeT a v).bm = s.bm := rfl
@[simp] theorem State.writeT_cs (a : Nat) (v : List Trit) : (s.writeT a v).cs = s.cs := rfl
@[simp] theorem State.writeT_cr (a : Nat) (v : List Trit) : (s.writeT a v).cr = s.cr := rfl
@[simp] theorem State.writeT_km (a : Nat) (v : List Trit) : (s.writeT a v).km = s.km := rfl
@[simp] theorem State.writeT_es (a : Nat) (v : List Trit) : (s.writeT a v).es = s.es := rfl
@[simp] theorem State.writeT_drop (a : Nat) (v : List Trit) : (s.writeT a v).drop = s.drop := rfl
@[simp] theorem State.writeT_herr (a : Nat) (v : List Trit) : (s.writeT a v).herr = s.herr := rfl
@[simp] theorem State.writeT_cause (a : Nat) (v : List Trit) : (s.writeT a v).cause = s.cause := rfl
@[simp] theorem State.writeT_info (a : Nat) (v : List Trit) : (s.writeT a v).info = s.info := rfl
@[simp] theorem State.writeT_ecmd (a : Nat) (v : List Trit) : (s.writeT a v).ecmd = s.ecmd := rfl
@[simp] theorem State.writeT_epoch (a : Nat) (v : List Trit) : (s.writeT a v).epoch = s.epoch := rfl
@[simp] theorem State.writeT_pending (a : Nat) (v : List Trit) : (s.writeT a v).pending = s.pending := rfl
@[simp] theorem State.writeT_replies (a : Nat) (v : List Trit) : (s.writeT a v).replies = s.replies := rfl
@[simp] theorem State.writeT_reg (a : Nat) (v : List Trit) (r' : Reg) : (s.writeT a v).reg r' = s.reg r' := rfl
@[simp] theorem State.writeT_bmAt (a : Nat) (v : List Trit) (a' : Nat) : (s.writeT a v).bmAt a' = s.bmAt a' := rfl
@[simp] theorem State.writeT_uval (a : Nat) (v : List Trit) (r' : Reg) : (s.writeT a v).uval r' = s.uval r' := rfl
@[simp] theorem State.writeT_sval (a : Nat) (v : List Trit) (r' : Reg) : (s.writeT a v).sval r' = s.sval r' := rfl
@[simp] theorem State.writeT_readB (a : Nat) (v : List Trit) (a' n' : Nat) : (s.writeT a v).readB a' n' = s.readB a' n' := rfl

@[simp] theorem State.writeB_params (a : Nat) (v : List Byte) : (s.writeB a v).params = s.params := rfl
@[simp] theorem State.writeB_x (a : Nat) (v : List Byte) : (s.writeB a v).x = s.x := rfl
@[simp] theorem State.writeB_tm (a : Nat) (v : List Byte) : (s.writeB a v).tm = s.tm := rfl
@[simp] theorem State.writeB_bm (a : Nat) (v : List Byte) : (s.writeB a v).bm = memWrite s.bm a v := rfl
@[simp] theorem State.writeB_cs (a : Nat) (v : List Byte) : (s.writeB a v).cs = s.cs := rfl
@[simp] theorem State.writeB_cr (a : Nat) (v : List Byte) : (s.writeB a v).cr = s.cr := rfl
@[simp] theorem State.writeB_km (a : Nat) (v : List Byte) : (s.writeB a v).km = s.km := rfl
@[simp] theorem State.writeB_es (a : Nat) (v : List Byte) : (s.writeB a v).es = s.es := rfl
@[simp] theorem State.writeB_drop (a : Nat) (v : List Byte) : (s.writeB a v).drop = s.drop := rfl
@[simp] theorem State.writeB_herr (a : Nat) (v : List Byte) : (s.writeB a v).herr = s.herr := rfl
@[simp] theorem State.writeB_cause (a : Nat) (v : List Byte) : (s.writeB a v).cause = s.cause := rfl
@[simp] theorem State.writeB_info (a : Nat) (v : List Byte) : (s.writeB a v).info = s.info := rfl
@[simp] theorem State.writeB_ecmd (a : Nat) (v : List Byte) : (s.writeB a v).ecmd = s.ecmd := rfl
@[simp] theorem State.writeB_epoch (a : Nat) (v : List Byte) : (s.writeB a v).epoch = s.epoch := rfl
@[simp] theorem State.writeB_pending (a : Nat) (v : List Byte) : (s.writeB a v).pending = s.pending := rfl
@[simp] theorem State.writeB_replies (a : Nat) (v : List Byte) : (s.writeB a v).replies = s.replies := rfl
@[simp] theorem State.writeB_reg (a : Nat) (v : List Byte) (r' : Reg) : (s.writeB a v).reg r' = s.reg r' := rfl
@[simp] theorem State.writeB_tmAt (a : Nat) (v : List Byte) (a' : Nat) : (s.writeB a v).tmAt a' = s.tmAt a' := rfl
@[simp] theorem State.writeB_uval (a : Nat) (v : List Byte) (r' : Reg) : (s.writeB a v).uval r' = s.uval r' := rfl
@[simp] theorem State.writeB_sval (a : Nat) (v : List Byte) (r' : Reg) : (s.writeB a v).sval r' = s.sval r' := rfl
@[simp] theorem State.writeB_readT (a : Nat) (v : List Byte) (a' n' : Nat) : (s.writeB a v).readT a' n' = s.readT a' n' := rfl

@[simp] theorem State.setReg_params (r : Reg) (v : Word) : (s.setReg r v).params = s.params := rfl
@[simp] theorem State.setReg_x (r : Reg) (v : Word) : (s.setReg r v).x = s.x.set r.val v := rfl
@[simp] theorem State.setReg_tm (r : Reg) (v : Word) : (s.setReg r v).tm = s.tm := rfl
@[simp] theorem State.setReg_bm (r : Reg) (v : Word) : (s.setReg r v).bm = s.bm := rfl
@[simp] theorem State.setReg_cs (r : Reg) (v : Word) : (s.setReg r v).cs = s.cs := rfl
@[simp] theorem State.setReg_cr (r : Reg) (v : Word) : (s.setReg r v).cr = s.cr := rfl
@[simp] theorem State.setReg_km (r : Reg) (v : Word) : (s.setReg r v).km = s.km := rfl
@[simp] theorem State.setReg_es (r : Reg) (v : Word) : (s.setReg r v).es = s.es := rfl
@[simp] theorem State.setReg_drop (r : Reg) (v : Word) : (s.setReg r v).drop = s.drop := rfl
@[simp] theorem State.setReg_herr (r : Reg) (v : Word) : (s.setReg r v).herr = s.herr := rfl
@[simp] theorem State.setReg_cause (r : Reg) (v : Word) : (s.setReg r v).cause = s.cause := rfl
@[simp] theorem State.setReg_info (r : Reg) (v : Word) : (s.setReg r v).info = s.info := rfl
@[simp] theorem State.setReg_ecmd (r : Reg) (v : Word) : (s.setReg r v).ecmd = s.ecmd := rfl
@[simp] theorem State.setReg_epoch (r : Reg) (v : Word) : (s.setReg r v).epoch = s.epoch := rfl
@[simp] theorem State.setReg_pending (r : Reg) (v : Word) : (s.setReg r v).pending = s.pending := rfl
@[simp] theorem State.setReg_replies (r : Reg) (v : Word) : (s.setReg r v).replies = s.replies := rfl
@[simp] theorem State.setReg_tmAt (r : Reg) (v : Word) (a' : Nat) : (s.setReg r v).tmAt a' = s.tmAt a' := rfl
@[simp] theorem State.setReg_bmAt (r : Reg) (v : Word) (a' : Nat) : (s.setReg r v).bmAt a' = s.bmAt a' := rfl
@[simp] theorem State.setReg_readT (r : Reg) (v : Word) (a' n' : Nat) : (s.setReg r v).readT a' n' = s.readT a' n' := rfl
@[simp] theorem State.setReg_readB (r : Reg) (v : Word) (a' n' : Nat) : (s.setReg r v).readB a' n' = s.readB a' n' := rfl

@[simp] theorem State.setCurl_params (S : Vector Trit 729) : (s.setCurl S).params = s.params := rfl
@[simp] theorem State.setCurl_x (S : Vector Trit 729) : (s.setCurl S).x = s.x := rfl
@[simp] theorem State.setCurl_tm (S : Vector Trit 729) : (s.setCurl S).tm = s.tm := rfl
@[simp] theorem State.setCurl_bm (S : Vector Trit 729) : (s.setCurl S).bm = s.bm := rfl
@[simp] theorem State.setCurl_cs (S : Vector Trit 729) : (s.setCurl S).cs = S := rfl
@[simp] theorem State.setCurl_cr (S : Vector Trit 729) : (s.setCurl S).cr = s.cr := rfl
@[simp] theorem State.setCurl_km (S : Vector Trit 729) : (s.setCurl S).km = s.km := rfl
@[simp] theorem State.setCurl_es (S : Vector Trit 729) : (s.setCurl S).es = s.es := rfl
@[simp] theorem State.setCurl_drop (S : Vector Trit 729) : (s.setCurl S).drop = s.drop := rfl
@[simp] theorem State.setCurl_herr (S : Vector Trit 729) : (s.setCurl S).herr = s.herr := rfl
@[simp] theorem State.setCurl_cause (S : Vector Trit 729) : (s.setCurl S).cause = s.cause := rfl
@[simp] theorem State.setCurl_info (S : Vector Trit 729) : (s.setCurl S).info = s.info := rfl
@[simp] theorem State.setCurl_ecmd (S : Vector Trit 729) : (s.setCurl S).ecmd = s.ecmd := rfl
@[simp] theorem State.setCurl_epoch (S : Vector Trit 729) : (s.setCurl S).epoch = s.epoch := rfl
@[simp] theorem State.setCurl_pending (S : Vector Trit 729) : (s.setCurl S).pending = s.pending := rfl
@[simp] theorem State.setCurl_replies (S : Vector Trit 729) : (s.setCurl S).replies = s.replies := rfl
@[simp] theorem State.setCurl_reg (S : Vector Trit 729) (r' : Reg) : (s.setCurl S).reg r' = s.reg r' := rfl
@[simp] theorem State.setCurl_tmAt (S : Vector Trit 729) (a' : Nat) : (s.setCurl S).tmAt a' = s.tmAt a' := rfl
@[simp] theorem State.setCurl_bmAt (S : Vector Trit 729) (a' : Nat) : (s.setCurl S).bmAt a' = s.bmAt a' := rfl
@[simp] theorem State.setCurl_uval (S : Vector Trit 729) (r' : Reg) : (s.setCurl S).uval r' = s.uval r' := rfl
@[simp] theorem State.setCurl_sval (S : Vector Trit 729) (r' : Reg) : (s.setCurl S).sval r' = s.sval r' := rfl
@[simp] theorem State.setCurl_readT (S : Vector Trit 729) (a' n' : Nat) : (s.setCurl S).readT a' n' = s.readT a' n' := rfl
@[simp] theorem State.setCurl_readB (S : Vector Trit 729) (a' n' : Nat) : (s.setCurl S).readB a' n' = s.readB a' n' := rfl

@[simp] theorem State.setRounds_params (r : BitVec 8) : (s.setRounds r).params = s.params := rfl
@[simp] theorem State.setRounds_x (r : BitVec 8) : (s.setRounds r).x = s.x := rfl
@[simp] theorem State.setRounds_tm (r : BitVec 8) : (s.setRounds r).tm = s.tm := rfl
@[simp] theorem State.setRounds_bm (r : BitVec 8) : (s.setRounds r).bm = s.bm := rfl
@[simp] theorem State.setRounds_cs (r : BitVec 8) : (s.setRounds r).cs = s.cs := rfl
@[simp] theorem State.setRounds_cr (r : BitVec 8) : (s.setRounds r).cr = r := rfl
@[simp] theorem State.setRounds_km (r : BitVec 8) : (s.setRounds r).km = s.km := rfl
@[simp] theorem State.setRounds_es (r : BitVec 8) : (s.setRounds r).es = s.es := rfl
@[simp] theorem State.setRounds_drop (r : BitVec 8) : (s.setRounds r).drop = s.drop := rfl
@[simp] theorem State.setRounds_herr (r : BitVec 8) : (s.setRounds r).herr = s.herr := rfl
@[simp] theorem State.setRounds_cause (r : BitVec 8) : (s.setRounds r).cause = s.cause := rfl
@[simp] theorem State.setRounds_info (r : BitVec 8) : (s.setRounds r).info = s.info := rfl
@[simp] theorem State.setRounds_ecmd (r : BitVec 8) : (s.setRounds r).ecmd = s.ecmd := rfl
@[simp] theorem State.setRounds_epoch (r : BitVec 8) : (s.setRounds r).epoch = s.epoch := rfl
@[simp] theorem State.setRounds_pending (r : BitVec 8) : (s.setRounds r).pending = s.pending := rfl
@[simp] theorem State.setRounds_replies (r : BitVec 8) : (s.setRounds r).replies = s.replies := rfl
@[simp] theorem State.setRounds_reg (r : BitVec 8) (r' : Reg) : (s.setRounds r).reg r' = s.reg r' := rfl
@[simp] theorem State.setRounds_tmAt (r : BitVec 8) (a' : Nat) : (s.setRounds r).tmAt a' = s.tmAt a' := rfl
@[simp] theorem State.setRounds_bmAt (r : BitVec 8) (a' : Nat) : (s.setRounds r).bmAt a' = s.bmAt a' := rfl
@[simp] theorem State.setRounds_uval (r : BitVec 8) (r' : Reg) : (s.setRounds r).uval r' = s.uval r' := rfl
@[simp] theorem State.setRounds_sval (r : BitVec 8) (r' : Reg) : (s.setRounds r).sval r' = s.sval r' := rfl
@[simp] theorem State.setRounds_readT (r : BitVec 8) (a' n' : Nat) : (s.setRounds r).readT a' n' = s.readT a' n' := rfl
@[simp] theorem State.setRounds_readB (r : BitVec 8) (a' n' : Nat) : (s.setRounds r).readB a' n' = s.readB a' n' := rfl

@[simp] theorem State.setKerl_params (K : List Byte) : (s.setKerl K).params = s.params := rfl
@[simp] theorem State.setKerl_x (K : List Byte) : (s.setKerl K).x = s.x := rfl
@[simp] theorem State.setKerl_tm (K : List Byte) : (s.setKerl K).tm = s.tm := rfl
@[simp] theorem State.setKerl_bm (K : List Byte) : (s.setKerl K).bm = s.bm := rfl
@[simp] theorem State.setKerl_cs (K : List Byte) : (s.setKerl K).cs = s.cs := rfl
@[simp] theorem State.setKerl_cr (K : List Byte) : (s.setKerl K).cr = s.cr := rfl
@[simp] theorem State.setKerl_km (K : List Byte) : (s.setKerl K).km = K := rfl
@[simp] theorem State.setKerl_es (K : List Byte) : (s.setKerl K).es = s.es := rfl
@[simp] theorem State.setKerl_drop (K : List Byte) : (s.setKerl K).drop = s.drop := rfl
@[simp] theorem State.setKerl_herr (K : List Byte) : (s.setKerl K).herr = s.herr := rfl
@[simp] theorem State.setKerl_cause (K : List Byte) : (s.setKerl K).cause = s.cause := rfl
@[simp] theorem State.setKerl_info (K : List Byte) : (s.setKerl K).info = s.info := rfl
@[simp] theorem State.setKerl_ecmd (K : List Byte) : (s.setKerl K).ecmd = s.ecmd := rfl
@[simp] theorem State.setKerl_epoch (K : List Byte) : (s.setKerl K).epoch = s.epoch := rfl
@[simp] theorem State.setKerl_pending (K : List Byte) : (s.setKerl K).pending = s.pending := rfl
@[simp] theorem State.setKerl_replies (K : List Byte) : (s.setKerl K).replies = s.replies := rfl
@[simp] theorem State.setKerl_reg (K : List Byte) (r' : Reg) : (s.setKerl K).reg r' = s.reg r' := rfl
@[simp] theorem State.setKerl_tmAt (K : List Byte) (a' : Nat) : (s.setKerl K).tmAt a' = s.tmAt a' := rfl
@[simp] theorem State.setKerl_bmAt (K : List Byte) (a' : Nat) : (s.setKerl K).bmAt a' = s.bmAt a' := rfl
@[simp] theorem State.setKerl_uval (K : List Byte) (r' : Reg) : (s.setKerl K).uval r' = s.uval r' := rfl
@[simp] theorem State.setKerl_sval (K : List Byte) (r' : Reg) : (s.setKerl K).sval r' = s.sval r' := rfl
@[simp] theorem State.setKerl_readT (K : List Byte) (a' n' : Nat) : (s.setKerl K).readT a' n' = s.readT a' n' := rfl
@[simp] theorem State.setKerl_readB (K : List Byte) (a' n' : Nat) : (s.setKerl K).readB a' n' = s.readB a' n' := rfl

@[simp] theorem State.enterFault_params (w : CommandWord) (c : Cause) (n : Nat) : (s.enterFault w c n).params = s.params := rfl
@[simp] theorem State.enterFault_x (w : CommandWord) (c : Cause) (n : Nat) : (s.enterFault w c n).x = s.x := rfl
@[simp] theorem State.enterFault_tm (w : CommandWord) (c : Cause) (n : Nat) : (s.enterFault w c n).tm = s.tm := rfl
@[simp] theorem State.enterFault_bm (w : CommandWord) (c : Cause) (n : Nat) : (s.enterFault w c n).bm = s.bm := rfl
@[simp] theorem State.enterFault_cs (w : CommandWord) (c : Cause) (n : Nat) : (s.enterFault w c n).cs = s.cs := rfl
@[simp] theorem State.enterFault_cr (w : CommandWord) (c : Cause) (n : Nat) : (s.enterFault w c n).cr = s.cr := rfl
@[simp] theorem State.enterFault_km (w : CommandWord) (c : Cause) (n : Nat) : (s.enterFault w c n).km = s.km := rfl
@[simp] theorem State.enterFault_es (w : CommandWord) (c : Cause) (n : Nat) : (s.enterFault w c n).es = .faulted := rfl
@[simp] theorem State.enterFault_drop (w : CommandWord) (c : Cause) (n : Nat) : (s.enterFault w c n).drop = s.drop := rfl
@[simp] theorem State.enterFault_herr (w : CommandWord) (c : Cause) (n : Nat) : (s.enterFault w c n).herr = s.herr := rfl
@[simp] theorem State.enterFault_cause (w : CommandWord) (c : Cause) (n : Nat) : (s.enterFault w c n).cause = c := rfl
@[simp] theorem State.enterFault_info (w : CommandWord) (c : Cause) (n : Nat) : (s.enterFault w c n).info = BitVec.ofNat 64 n := rfl
@[simp] theorem State.enterFault_ecmd (w : CommandWord) (c : Cause) (n : Nat) : (s.enterFault w c n).ecmd = w := rfl
@[simp] theorem State.enterFault_epoch (w : CommandWord) (c : Cause) (n : Nat) : (s.enterFault w c n).epoch = s.epoch := rfl
@[simp] theorem State.enterFault_pending (w : CommandWord) (c : Cause) (n : Nat) : (s.enterFault w c n).pending = s.pending := rfl
@[simp] theorem State.enterFault_replies (w : CommandWord) (c : Cause) (n : Nat) : (s.enterFault w c n).replies = s.replies := rfl
@[simp] theorem State.enterFault_reg (w : CommandWord) (c : Cause) (n : Nat) (r' : Reg) : (s.enterFault w c n).reg r' = s.reg r' := rfl
@[simp] theorem State.enterFault_tmAt (w : CommandWord) (c : Cause) (n : Nat) (a' : Nat) : (s.enterFault w c n).tmAt a' = s.tmAt a' := rfl
@[simp] theorem State.enterFault_bmAt (w : CommandWord) (c : Cause) (n : Nat) (a' : Nat) : (s.enterFault w c n).bmAt a' = s.bmAt a' := rfl
@[simp] theorem State.enterFault_uval (w : CommandWord) (c : Cause) (n : Nat) (r' : Reg) : (s.enterFault w c n).uval r' = s.uval r' := rfl
@[simp] theorem State.enterFault_sval (w : CommandWord) (c : Cause) (n : Nat) (r' : Reg) : (s.enterFault w c n).sval r' = s.sval r' := rfl
@[simp] theorem State.enterFault_readT (w : CommandWord) (c : Cause) (n : Nat) (a' n' : Nat) : (s.enterFault w c n).readT a' n' = s.readT a' n' := rfl
@[simp] theorem State.enterFault_readB (w : CommandWord) (c : Cause) (n : Nat) (a' n' : Nat) : (s.enterFault w c n).readB a' n' = s.readB a' n' := rfl

@[simp] theorem State.dropCommand_params : s.dropCommand.params = s.params := rfl
@[simp] theorem State.dropCommand_x : s.dropCommand.x = s.x := rfl
@[simp] theorem State.dropCommand_tm : s.dropCommand.tm = s.tm := rfl
@[simp] theorem State.dropCommand_bm : s.dropCommand.bm = s.bm := rfl
@[simp] theorem State.dropCommand_cs : s.dropCommand.cs = s.cs := rfl
@[simp] theorem State.dropCommand_cr : s.dropCommand.cr = s.cr := rfl
@[simp] theorem State.dropCommand_km : s.dropCommand.km = s.km := rfl
@[simp] theorem State.dropCommand_es : s.dropCommand.es = s.es := rfl
@[simp] theorem State.dropCommand_drop : s.dropCommand.drop = true := rfl
@[simp] theorem State.dropCommand_herr : s.dropCommand.herr = s.herr := rfl
@[simp] theorem State.dropCommand_cause : s.dropCommand.cause = s.cause := rfl
@[simp] theorem State.dropCommand_info : s.dropCommand.info = s.info := rfl
@[simp] theorem State.dropCommand_ecmd : s.dropCommand.ecmd = s.ecmd := rfl
@[simp] theorem State.dropCommand_epoch : s.dropCommand.epoch = s.epoch := rfl
@[simp] theorem State.dropCommand_pending : s.dropCommand.pending = s.pending := rfl
@[simp] theorem State.dropCommand_replies : s.dropCommand.replies = s.replies := rfl
@[simp] theorem State.dropCommand_reg (r' : Reg) : s.dropCommand.reg r' = s.reg r' := rfl
@[simp] theorem State.dropCommand_tmAt (a' : Nat) : s.dropCommand.tmAt a' = s.tmAt a' := rfl
@[simp] theorem State.dropCommand_bmAt (a' : Nat) : s.dropCommand.bmAt a' = s.bmAt a' := rfl
@[simp] theorem State.dropCommand_uval (r' : Reg) : s.dropCommand.uval r' = s.uval r' := rfl
@[simp] theorem State.dropCommand_sval (r' : Reg) : s.dropCommand.sval r' = s.sval r' := rfl
@[simp] theorem State.dropCommand_readT (a' n' : Nat) : s.dropCommand.readT a' n' = s.readT a' n' := rfl
@[simp] theorem State.dropCommand_readB (a' n' : Nat) : s.dropCommand.readB a' n' = s.readB a' n' := rfl

@[simp] theorem State.acknowledge_params (v : Word) : (s.acknowledge v).params = s.params := rfl
@[simp] theorem State.acknowledge_x (v : Word) : (s.acknowledge v).x = s.x := rfl
@[simp] theorem State.acknowledge_tm (v : Word) : (s.acknowledge v).tm = s.tm := rfl
@[simp] theorem State.acknowledge_bm (v : Word) : (s.acknowledge v).bm = s.bm := rfl
@[simp] theorem State.acknowledge_cs (v : Word) : (s.acknowledge v).cs = s.cs := rfl
@[simp] theorem State.acknowledge_cr (v : Word) : (s.acknowledge v).cr = s.cr := rfl
@[simp] theorem State.acknowledge_km (v : Word) : (s.acknowledge v).km = s.km := rfl
@[simp] theorem State.acknowledge_es (v : Word) : (s.acknowledge v).es = (if v.getLsbD 0 then .ready else s.es) := rfl
@[simp] theorem State.acknowledge_drop (v : Word) : (s.acknowledge v).drop = (if v.getLsbD 1 then false else s.drop) := rfl
@[simp] theorem State.acknowledge_herr (v : Word) : (s.acknowledge v).herr = (if v.getLsbD 2 then false else s.herr) := rfl
@[simp] theorem State.acknowledge_cause (v : Word) : (s.acknowledge v).cause = s.cause := rfl
@[simp] theorem State.acknowledge_info (v : Word) : (s.acknowledge v).info = s.info := rfl
@[simp] theorem State.acknowledge_ecmd (v : Word) : (s.acknowledge v).ecmd = s.ecmd := rfl
@[simp] theorem State.acknowledge_epoch (v : Word) : (s.acknowledge v).epoch = s.epoch := rfl
@[simp] theorem State.acknowledge_pending (v : Word) : (s.acknowledge v).pending = s.pending := rfl
@[simp] theorem State.acknowledge_replies (v : Word) : (s.acknowledge v).replies = s.replies := rfl
@[simp] theorem State.acknowledge_reg (v : Word) (r' : Reg) : (s.acknowledge v).reg r' = s.reg r' := rfl
@[simp] theorem State.acknowledge_tmAt (v : Word) (a' : Nat) : (s.acknowledge v).tmAt a' = s.tmAt a' := rfl
@[simp] theorem State.acknowledge_bmAt (v : Word) (a' : Nat) : (s.acknowledge v).bmAt a' = s.bmAt a' := rfl
@[simp] theorem State.acknowledge_uval (v : Word) (r' : Reg) : (s.acknowledge v).uval r' = s.uval r' := rfl
@[simp] theorem State.acknowledge_sval (v : Word) (r' : Reg) : (s.acknowledge v).sval r' = s.sval r' := rfl
@[simp] theorem State.acknowledge_readT (v : Word) (a' n' : Nat) : (s.acknowledge v).readT a' n' = s.readT a' n' := rfl
@[simp] theorem State.acknowledge_readB (v : Word) (a' n' : Nat) : (s.acknowledge v).readB a' n' = s.readB a' n' := rfl

@[simp] theorem State.refuseAccess_params : s.refuseAccess.params = s.params := rfl
@[simp] theorem State.refuseAccess_x : s.refuseAccess.x = s.x := rfl
@[simp] theorem State.refuseAccess_tm : s.refuseAccess.tm = s.tm := rfl
@[simp] theorem State.refuseAccess_bm : s.refuseAccess.bm = s.bm := rfl
@[simp] theorem State.refuseAccess_cs : s.refuseAccess.cs = s.cs := rfl
@[simp] theorem State.refuseAccess_cr : s.refuseAccess.cr = s.cr := rfl
@[simp] theorem State.refuseAccess_km : s.refuseAccess.km = s.km := rfl
@[simp] theorem State.refuseAccess_es : s.refuseAccess.es = s.es := rfl
@[simp] theorem State.refuseAccess_drop : s.refuseAccess.drop = s.drop := rfl
@[simp] theorem State.refuseAccess_herr : s.refuseAccess.herr = true := rfl
@[simp] theorem State.refuseAccess_cause : s.refuseAccess.cause = s.cause := rfl
@[simp] theorem State.refuseAccess_info : s.refuseAccess.info = s.info := rfl
@[simp] theorem State.refuseAccess_ecmd : s.refuseAccess.ecmd = s.ecmd := rfl
@[simp] theorem State.refuseAccess_epoch : s.refuseAccess.epoch = s.epoch := rfl
@[simp] theorem State.refuseAccess_pending : s.refuseAccess.pending = s.pending := rfl
@[simp] theorem State.refuseAccess_replies : s.refuseAccess.replies = s.replies := rfl
@[simp] theorem State.refuseAccess_reg (r' : Reg) : s.refuseAccess.reg r' = s.reg r' := rfl
@[simp] theorem State.refuseAccess_tmAt (a' : Nat) : s.refuseAccess.tmAt a' = s.tmAt a' := rfl
@[simp] theorem State.refuseAccess_bmAt (a' : Nat) : s.refuseAccess.bmAt a' = s.bmAt a' := rfl
@[simp] theorem State.refuseAccess_uval (r' : Reg) : s.refuseAccess.uval r' = s.uval r' := rfl
@[simp] theorem State.refuseAccess_sval (r' : Reg) : s.refuseAccess.sval r' = s.sval r' := rfl
@[simp] theorem State.refuseAccess_readT (a' n' : Nat) : s.refuseAccess.readT a' n' = s.readT a' n' := rfl
@[simp] theorem State.refuseAccess_readB (a' n' : Nat) : s.refuseAccess.readB a' n' = s.readB a' n' := rfl

@[simp] theorem State.reply_params (v : Word) : (s.reply v).params = s.params := rfl
@[simp] theorem State.reply_x (v : Word) : (s.reply v).x = s.x := rfl
@[simp] theorem State.reply_tm (v : Word) : (s.reply v).tm = s.tm := rfl
@[simp] theorem State.reply_bm (v : Word) : (s.reply v).bm = s.bm := rfl
@[simp] theorem State.reply_cs (v : Word) : (s.reply v).cs = s.cs := rfl
@[simp] theorem State.reply_cr (v : Word) : (s.reply v).cr = s.cr := rfl
@[simp] theorem State.reply_km (v : Word) : (s.reply v).km = s.km := rfl
@[simp] theorem State.reply_es (v : Word) : (s.reply v).es = s.es := rfl
@[simp] theorem State.reply_drop (v : Word) : (s.reply v).drop = s.drop := rfl
@[simp] theorem State.reply_herr (v : Word) : (s.reply v).herr = s.herr := rfl
@[simp] theorem State.reply_cause (v : Word) : (s.reply v).cause = s.cause := rfl
@[simp] theorem State.reply_info (v : Word) : (s.reply v).info = s.info := rfl
@[simp] theorem State.reply_ecmd (v : Word) : (s.reply v).ecmd = s.ecmd := rfl
@[simp] theorem State.reply_epoch (v : Word) : (s.reply v).epoch = s.epoch := rfl
@[simp] theorem State.reply_pending (v : Word) : (s.reply v).pending = s.pending := rfl
@[simp] theorem State.reply_replies (v : Word) : (s.reply v).replies = v :: s.replies := rfl
@[simp] theorem State.reply_reg (v : Word) (r' : Reg) : (s.reply v).reg r' = s.reg r' := rfl
@[simp] theorem State.reply_tmAt (v : Word) (a' : Nat) : (s.reply v).tmAt a' = s.tmAt a' := rfl
@[simp] theorem State.reply_bmAt (v : Word) (a' : Nat) : (s.reply v).bmAt a' = s.bmAt a' := rfl
@[simp] theorem State.reply_uval (v : Word) (r' : Reg) : (s.reply v).uval r' = s.uval r' := rfl
@[simp] theorem State.reply_sval (v : Word) (r' : Reg) : (s.reply v).sval r' = s.sval r' := rfl
@[simp] theorem State.reply_readT (v : Word) (a' n' : Nat) : (s.reply v).readT a' n' = s.readT a' n' := rfl
@[simp] theorem State.reply_readB (v : Word) (a' n' : Nat) : (s.reply v).readB a' n' = s.readB a' n' := rfl

@[simp] theorem State.afterReset_params : s.afterReset.params = s.params := rfl
@[simp] theorem State.afterReset_x : s.afterReset.x = Vector.replicate 16 0 := rfl
@[simp] theorem State.afterReset_tm : s.afterReset.tm = [] := rfl
@[simp] theorem State.afterReset_bm : s.afterReset.bm = [] := rfl
@[simp] theorem State.afterReset_cs : s.afterReset.cs = Vector.replicate 729 .zero := rfl
@[simp] theorem State.afterReset_cr : s.afterReset.cr = Config.curlDefaultRounds := rfl
@[simp] theorem State.afterReset_km : s.afterReset.km = [] := rfl
@[simp] theorem State.afterReset_es : s.afterReset.es = .ready := rfl
@[simp] theorem State.afterReset_drop : s.afterReset.drop = false := rfl
@[simp] theorem State.afterReset_herr : s.afterReset.herr = false := rfl
@[simp] theorem State.afterReset_cause : s.afterReset.cause = .noFault := rfl
@[simp] theorem State.afterReset_info : s.afterReset.info = 0 := rfl
@[simp] theorem State.afterReset_ecmd : s.afterReset.ecmd = 0 := rfl
@[simp] theorem State.afterReset_epoch : s.afterReset.epoch = s.epoch + 1 := rfl
@[simp] theorem State.afterReset_pending : s.afterReset.pending = s.pending := rfl
@[simp] theorem State.afterReset_replies : s.afterReset.replies = s.replies := rfl

end Sys2Proof.Machine
end

