-- ==== Sys2Proof/Laws/Memory.lean ====
section
/-! SUPPORT. The laws of memories (spec/20_memory.md R69): a read after a write, what a write leaves
alone, and the canonical form, which every memory operation keeps. -/

namespace Sys2Proof.Machine

open Sys2Proof

variable {α : Type}

/-! ### Reading what was written -/

theorem memGet?_eq_none_of_all_ne {m : Memory α} {a : Nat} (h : ∀ cell ∈ m, cell.1 ≠ a) :
    memGet? m a = none := by
  simp only [memGet?, Option.map_eq_none_iff, List.find?_eq_none, beq_iff_eq]
  exact h

theorem memGet?_append (m m' : Memory α) (a : Nat) :
    memGet? (m ++ m') a = (memGet? m a).or (memGet? m' a) := by
  simp only [memGet?, List.find?_append]
  cases m.find? (fun cell => cell.1 == a) <;> simp

theorem memGet?_cellsFrom (v : List α) (a b : Nat) :
    memGet? (cellsFrom a v) b = if a ≤ b then v[b - a]? else none := by
  induction v generalizing a with
  | nil => simp [cellsFrom, memGet?]
  | cons u rest ih =>
    by_cases hab : a = b
    · subst hab; simp [cellsFrom, memGet?]
    · have h : memGet? (cellsFrom a (u :: rest)) b = memGet? (cellsFrom (a + 1) rest) b := by
        simp [cellsFrom, memGet?, hab]
      rw [h, ih]
      by_cases hle : a + 1 ≤ b
      · obtain ⟨k, rfl⟩ := Nat.exists_eq_add_of_le hle
        have h1 : a ≤ a + 1 + k := by omega
        have h2 : a + 1 + k - a = k + 1 := by omega
        have h3 : a + 1 + k - (a + 1) = k := by omega
        rw [if_pos hle, if_pos h1, h2, h3, List.getElem?_cons_succ]
      · rw [if_neg hle, if_neg (by omega)]

theorem memGet?_filter (m : Memory α) (p : Nat → Bool) (b : Nat) :
    memGet? (m.filter fun cell => p cell.1) b = if p b then memGet? m b else none := by
  induction m with
  | nil => simp [memGet?]
  | cons cell rest ih =>
    obtain ⟨c, u⟩ := cell
    by_cases hcb : c = b
    · subst hcb
      by_cases hp : p c
      · simp [memGet?, hp]
      · have : memGet? ((c, u) :: rest |>.filter fun cell => p cell.1) c
            = memGet? (rest.filter fun cell => p cell.1) c := by simp [hp]
        rw [this, ih]; simp [hp]
    · have h2 : memGet? ((c, u) :: rest) b = memGet? rest b := by simp [memGet?, hcb]
      rw [h2, ← ih]
      by_cases hp : p c
      · simp [memGet?, hp, hcb]
      · simp [hp]

/-- A read after a write: the value written inside the region, the old one outside (R69). -/
theorem memGet?_memWrite (m : Memory α) (a : Nat) (v : List α) (b : Nat) :
    memGet? (memWrite m a v) b = if a ≤ b ∧ b < a + v.length then v[b - a]? else memGet? m b := by
  have hlow := memGet?_filter m (fun c => decide (c < a)) b
  have hhigh := memGet?_filter m (fun c => decide (a + v.length ≤ c)) b
  simp only [memWrite, memGet?_append, memGet?_cellsFrom]
  rw [hlow, hhigh]
  by_cases h1 : b < a
  · have h2 : ¬ a ≤ b := by omega
    have h3 : ¬ a + v.length ≤ b := by omega
    have h4 : ¬ (a ≤ b ∧ b < a + v.length) := by omega
    simp [h1, h2, h3]
  · by_cases h2 : b < a + v.length
    · have h3 : a ≤ b := by omega
      have h4 : b - a < v.length := by omega
      simp [h1, h2, h3, h4]
    · have h3 : a ≤ b := by omega
      have h4 : v[b - a]? = none := List.getElem?_eq_none (by omega)
      have h5 : a + v.length ≤ b := by omega
      simp [h1, h2, h3, h4, h5]

theorem State.tmAt_writeT (s : State) (a : Nat) (v : List Trit) (b : Nat) :
    (s.writeT a v).tmAt b = if h : a ≤ b ∧ b < a + v.length then v[b - a]'(by omega) else s.tmAt b := by
  simp only [State.tmAt, State.writeT_tm, State.writeT_epoch, memGet?_memWrite]
  split
  · rename_i h
    rw [List.getElem?_eq_getElem (by omega)]; rfl
  · rfl

theorem State.bmAt_writeB (s : State) (a : Nat) (v : List Byte) (b : Nat) :
    (s.writeB a v).bmAt b = if h : a ≤ b ∧ b < a + v.length then v[b - a]'(by omega) else s.bmAt b := by
  simp only [State.bmAt, State.writeB_bm, State.writeB_epoch, memGet?_memWrite]
  split
  · rename_i h
    rw [List.getElem?_eq_getElem (by omega)]; rfl
  · rfl

theorem State.tmAt_writeT_inside (s : State) (a : Nat) (v : List Trit) (i : Nat)
    (h : i < v.length) : (s.writeT a v).tmAt (a + i) = v[i] := by
  rw [State.tmAt_writeT, dif_pos (by omega)]
  congr 1; omega

theorem State.tmAt_writeT_outside (s : State) (a : Nat) (v : List Trit) (b : Nat)
    (h : b < a ∨ a + v.length ≤ b) : (s.writeT a v).tmAt b = s.tmAt b := by
  rw [State.tmAt_writeT, dif_neg (by omega)]

theorem State.bmAt_writeB_inside (s : State) (a : Nat) (v : List Byte) (i : Nat)
    (h : i < v.length) : (s.writeB a v).bmAt (a + i) = v[i] := by
  rw [State.bmAt_writeB, dif_pos (by omega)]
  congr 1; omega

theorem State.bmAt_writeB_outside (s : State) (a : Nat) (v : List Byte) (b : Nat)
    (h : b < a ∨ a + v.length ≤ b) : (s.writeB a v).bmAt b = s.bmAt b := by
  rw [State.bmAt_writeB, dif_neg (by omega)]

/-! ### Regions -/

@[simp] theorem State.readT_length (s : State) (a n : Nat) : (s.readT a n).length = n := by
  simp [State.readT]

@[simp] theorem State.readB_length (s : State) (a n : Nat) : (s.readB a n).length = n := by
  simp [State.readB]

@[simp] theorem State.readT_getElem (s : State) (a n i : Nat) (h : i < (s.readT a n).length) :
    (s.readT a n)[i] = s.tmAt (a + i) := by simp [State.readT]

@[simp] theorem State.readB_getElem (s : State) (a n i : Nat) (h : i < (s.readB a n).length) :
    (s.readB a n)[i] = s.bmAt (a + i) := by simp [State.readB]

/-- Reading back the region just written gives what was written. -/
theorem State.readT_writeT (s : State) (a : Nat) (v : List Trit) :
    (s.writeT a v).readT a v.length = v := by
  apply List.ext_getElem
  · simp
  · intro i h1 h2
    rw [State.readT_getElem, State.tmAt_writeT_inside _ _ _ _ h2]

theorem State.readB_writeB (s : State) (a : Nat) (v : List Byte) :
    (s.writeB a v).readB a v.length = v := by
  apply List.ext_getElem
  · simp
  · intro i h1 h2
    rw [State.readB_getElem, State.bmAt_writeB_inside _ _ _ _ h2]

/-! ### The canonical form -/

theorem Memory.wf_iff (m : Memory α) :
    Memory.wf m = true ↔ m.Pairwise (fun c c' => c.1 < c'.1) := by
  induction m with
  | nil => simp [Memory.wf]
  | cons cell rest ih => simp [Memory.wf, ih, List.pairwise_cons]

theorem cellsFrom_bounds (v : List α) (a : Nat) :
    ∀ cell ∈ cellsFrom a v, a ≤ cell.1 ∧ cell.1 < a + v.length := by
  induction v generalizing a with
  | nil => simp [cellsFrom]
  | cons u rest ih =>
    intro cell hc
    simp only [cellsFrom, List.mem_cons] at hc
    rcases hc with rfl | hc
    · simp
    · have := ih (a + 1) cell hc
      simp only [List.length_cons]; omega

theorem cellsFrom_pairwise (v : List α) (a : Nat) :
    (cellsFrom a v).Pairwise (fun c c' => c.1 < c'.1) := by
  induction v generalizing a with
  | nil => simp [cellsFrom]
  | cons u rest ih =>
    simp only [cellsFrom, List.pairwise_cons]
    refine ⟨fun c hc => ?_, ih _⟩
    have := cellsFrom_bounds rest (a + 1) c hc
    omega

/-- A write keeps the canonical form. -/
theorem Memory.wf_memWrite (m : Memory α) (a : Nat) (v : List α) (h : Memory.wf m = true) :
    Memory.wf (memWrite m a v) = true := by
  rw [Memory.wf_iff] at *
  simp only [memWrite]
  rw [List.pairwise_append, List.pairwise_append]
  refine ⟨⟨h.filter _, cellsFrom_pairwise v a, ?_⟩, h.filter _, ?_⟩
  · intro c hc c' hc'
    have := cellsFrom_bounds v a c' hc'
    simp only [List.mem_filter, decide_eq_true_eq] at hc
    omega
  · intro c hc c' hc'
    simp only [List.mem_append, List.mem_filter, decide_eq_true_eq] at hc hc'
    rcases hc with hc | hc
    · omega
    · have := cellsFrom_bounds v a c hc
      omega

/-- A write below `size` leaves every listed address below `size`. -/
theorem Memory.within_memWrite (m : Memory α) (a size : Nat) (v : List α)
    (h : Memory.within m size = true) (hv : a + v.length ≤ size) :
    Memory.within (memWrite m a v) size = true := by
  simp only [Memory.within, List.all_eq_true, decide_eq_true_eq] at *
  intro c hc
  simp only [memWrite, List.mem_append, List.mem_filter] at hc
  rcases hc with (hc | hc) | hc
  · exact h c hc.1
  · have := cellsFrom_bounds v a c hc
    omega
  · exact h c hc.1

@[simp] theorem Memory.wf_nil : Memory.wf ([] : Memory α) = true := rfl

@[simp] theorem Memory.within_nil (size : Nat) : Memory.within ([] : Memory α) size = true := rfl

/-! ### Registers -/

@[simp] theorem State.reg_setReg_same (s : State) (r : Reg) (v : Word) : (s.setReg r v).reg r = v := by
  simp [State.reg, State.setReg]

theorem State.reg_setReg_ne (s : State) (r q : Reg) (v : Word) (h : q ≠ r) :
    (s.setReg r v).reg q = s.reg q := by
  have h' : r.val ≠ q.val := fun hh => h (Fin.ext hh.symm)
  simp [State.reg, State.setReg, h']

end Sys2Proof.Machine
end

