-- ==== Sys2Proof/Laws/Ops.lean ====
section
/-! SUPPORT. One lemma for each shared operation, which says all it can do: the checks of a command, fault
entry, and the writes as frames. -/

namespace Sys2Proof.Machine

open Sys2Proof

/-! ### Checks (spec/60_exceptions.md R264) -/

@[simp] theorem checked_nil (i : Instr) (run : State → Host.Outcome State Fault Refusal) (s : State) :
    checked i [] run s = run s := rfl

@[simp] theorem checked_cons (i : Instr) (c : Check) (cs : List Check)
    (run : State → Host.Outcome State Fault Refusal) (s : State) :
    checked i (c :: cs) run s
      = if c.fails then raiseFault i c.cause c.info s else checked i cs run s := by
  unfold checked
  rw [List.find?_cons]
  cases c.fails <;> rfl

/-- All that a checked command can do: raise the first failing check, or run. -/
theorem checked_cases (i : Instr) (cs : List Check) (run : State → Host.Outcome State Fault Refusal)
    (s : State) :
    (∃ c ∈ cs, c.fails = true ∧ checked i cs run s = raiseFault i c.cause c.info s)
      ∨ ((∀ c ∈ cs, c.fails = false) ∧ checked i cs run s = run s) := by
  induction cs with
  | nil => exact .inr ⟨by simp, rfl⟩
  | cons c cs ih =>
    rw [checked_cons]
    cases hc : c.fails with
    | true => exact .inl ⟨c, by simp, hc, by simp⟩
    | false =>
      rcases ih with ⟨d, hd, hf, h⟩ | ⟨hall, h⟩
      · exact .inl ⟨d, by simp [hd], hf, by simpa using h⟩
      · refine .inr ⟨?_, by simpa using h⟩
        intro d hd
        rcases List.mem_cons.mp hd with rfl | hd
        · exact hc
        · exact hall d hd

theorem raiseFault_eq (i : Instr) (c : Cause) (n : Nat) (s : State) :
    raiseFault i c n s = .next (s.enterFault (encode i) c n) := rfl

/-! ### The checks, each as a condition -/

@[simp] theorem inTM_fails (s : State) (a n : Nat) : (inTM s a n).fails = decide (s.params.nt < a + n) := rfl
@[simp] theorem inBM_fails (s : State) (a n : Nat) : (inBM s a n).fails = decide (s.params.nb < a + n) := rfl
@[simp] theorem inTM_cause (s : State) (a n : Nat) : (inTM s a n).cause = .addr := rfl
@[simp] theorem inBM_cause (s : State) (a n : Nat) : (inBM s a n).cause = .addr := rfl
@[simp] theorem inTM_info (s : State) (a n : Nat) : (inTM s a n).info = a := rfl
@[simp] theorem inBM_info (s : State) (a n : Nat) : (inBM s a n).info = a := rfl

/-! ### Fault entry (R266) -/

theorem State.takesFault_enterFault (s : State) (w : CommandWord) (c : Cause) (n : Nat) :
    TakesFault s (s.enterFault w c n) w c n :=
  ⟨rfl, rfl, rfl, rfl, rfl, rfl,
    { regs := fun _ => rfl, tm := fun _ => rfl, bm := fun _ => rfl, curl := ⟨rfl, rfl⟩, kerl := rfl
      model := ⟨rfl, rfl, rfl, rfl⟩ }⟩

/-! ### Writes as frames -/

theorem State.sameControl_refl (s : State) : SameControl s s := ⟨rfl, rfl, rfl, rfl, rfl, rfl⟩

theorem State.sameModel_refl (s : State) : SameModel s s := ⟨rfl, rfl, rfl, rfl⟩

theorem State.onlyReg_setReg (s : State) (r : Reg) (v : Word) : OnlyReg r s (s.setReg r v) :=
  { regs := fun q hq => s.reg_setReg_ne r q v hq
    tm := fun _ => rfl, bm := fun _ => rfl, curl := ⟨rfl, rfl⟩, kerl := rfl
    control := ⟨rfl, rfl, rfl, rfl, rfl, rfl⟩, model := ⟨rfl, rfl, rfl, rfl⟩ }

theorem State.onlyTM_writeT (s : State) (d n : Nat) (v : List Trit) (h : v.length = n) :
    OnlyTM d n s (s.writeT d v) :=
  { regs := fun _ => rfl
    tm := fun a ha => s.tmAt_writeT_outside d v a (by omega)
    bm := fun _ => rfl, curl := ⟨rfl, rfl⟩, kerl := rfl
    control := ⟨rfl, rfl, rfl, rfl, rfl, rfl⟩, model := ⟨rfl, rfl, rfl, rfl⟩ }

theorem State.onlyBM_writeB (s : State) (d n : Nat) (v : List Byte) (h : v.length = n) :
    OnlyBM d n s (s.writeB d v) :=
  { regs := fun _ => rfl
    tm := fun _ => rfl
    bm := fun a ha => s.bmAt_writeB_outside d v a (by omega)
    curl := ⟨rfl, rfl⟩, kerl := rfl
    control := ⟨rfl, rfl, rfl, rfl, rfl, rfl⟩, model := ⟨rfl, rfl, rfl, rfl⟩ }

theorem State.onlyCurl_setCurl (s : State) (S : Vector Trit 729) : OnlyCurl s (s.setCurl S) :=
  { regs := fun _ => rfl, tm := fun _ => rfl, bm := fun _ => rfl, kerl := rfl
    control := ⟨rfl, rfl, rfl, rfl, rfl, rfl⟩, model := ⟨rfl, rfl, rfl, rfl⟩ }

theorem State.onlyKerl_setKerl (s : State) (K : List Byte) : OnlyKerl s (s.setKerl K) :=
  { regs := fun _ => rfl, tm := fun _ => rfl, bm := fun _ => rfl, curl := ⟨rfl, rfl⟩
    control := ⟨rfl, rfl, rfl, rfl, rfl, rfl⟩, model := ⟨rfl, rfl, rfl, rfl⟩ }

/-- A cell of the region just written. -/
theorem State.readT_writeT_of_length (s : State) (a n : Nat) (v : List Trit) (h : v.length = n) :
    (s.writeT a v).readT a n = v := by subst h; exact s.readT_writeT a v

theorem State.readB_writeB_of_length (s : State) (a n : Nat) (v : List Byte) (h : v.length = n) :
    (s.writeB a v).readB a n = v := by subst h; exact s.readB_writeB a v

/-! ### The invariant under the writes -/

theorem State.Inv.writeT {s : State} (hi : s.Inv) (d : Nat) (v : List Trit)
    (h : d + v.length ≤ s.params.nt) : (s.writeT d v).Inv :=
  { hi with
    tmWf := Memory.wf_memWrite _ _ _ hi.tmWf
    tmWithin := Memory.within_memWrite _ _ _ _ hi.tmWithin h }

theorem State.Inv.writeB {s : State} (hi : s.Inv) (d : Nat) (v : List Byte)
    (h : d + v.length ≤ s.params.nb) : (s.writeB d v).Inv :=
  { hi with
    bmWf := Memory.wf_memWrite _ _ _ hi.bmWf
    bmWithin := Memory.within_memWrite _ _ _ _ hi.bmWithin h }

theorem State.Inv.setReg {s : State} (hi : s.Inv) (r : Reg) (v : Word) : (s.setReg r v).Inv :=
  { hi with }

theorem State.Inv.setCurl {s : State} (hi : s.Inv) (S : Vector Trit 729) : (s.setCurl S).Inv :=
  { hi with }

theorem State.Inv.setRounds {s : State} (hi : s.Inv) (r : BitVec 8) (h : r ≠ 0) :
    (s.setRounds r).Inv := { hi with roundsLegal := h }

theorem State.Inv.setKerl {s : State} (hi : s.Inv) (K : List Byte) (h : K.length % 48 = 0) :
    (s.setKerl K).Inv := { hi with messageWhole := h }

theorem State.Inv.enterFault {s : State} (hi : s.Inv) (w : CommandWord) (c : Cause) (n : Nat)
    (h : c ≠ .noFault) : (s.enterFault w c n).Inv :=
  { hi with faultedHasCause := fun _ => h, noCauseNoInfo := fun hc => absurd hc h }

end Sys2Proof.Machine
end

