-- ==== Sys2Proof/Laws/Sponges.lean ====
section
/-! SUPPORT. Lengths and composition laws of the sponge functions (spec/42_curl.md R154;
spec/43_kerl.md R172 to R178) and of the functions of the one-time-signature engine
(spec/44_signing.md R201 to R213). -/

namespace Sys2Proof.Machine

open Sys2Proof

/-! ### Curl -/

theorem curlTransform_succ' (r : Nat) (S : Vector Trit 729) :
    curlTransform (r + 1) S = curlRound (curlTransform r S) := by
  induction r generalizing S with
  | zero => rfl
  | succ r ih => exact ih (curlRound S)

theorem curlRound_getElem (S : Vector Trit 729) (i : Nat) (h : i < 729) :
    (curlRound S)[i] = curlF S[(curlWalk i).val] S[(curlWalk (i + 1)).val] := by
  simp [curlRound]

theorem curlOverwrite_getElem (S : Vector Trit 729) (m : List Trit) (i : Nat) (h : i < 729) :
    (curlOverwrite S m)[i] = m.getD i S[i] := by
  simp [curlOverwrite]

theorem curlSqueezeSteps_length (rounds turns k : Nat) (S : Vector Trit 729) (h : k ≤ 243 * turns) :
    (curlSqueezeSteps rounds turns k S).1.length = k := by
  induction turns generalizing k S with
  | zero => simp [curlSqueezeSteps]; omega
  | succ turns ih =>
    simp only [curlSqueezeSteps, List.length_append, List.length_take, Vector.length_toList]
    rw [ih _ _ (by omega)]; omega

@[simp] theorem curlSqueeze_length (rounds : Nat) (S : Vector Trit 729) (k : Nat) :
    (curlSqueeze rounds S k).1.length = k :=
  curlSqueezeSteps_length _ _ _ _ (by omega)

/-- One step of `curl_squeeze` (R154). -/
theorem curlSqueeze_step (rounds : Nat) (S : Vector Trit 729) (k : Nat) (h : 0 < k) :
    curlSqueeze rounds S k =
      (S.toList.take (min 243 k) ++ (curlSqueeze rounds (curlTransform rounds S) (k - 243)).1,
        (curlSqueeze rounds (curlTransform rounds S) (k - 243)).2) := by
  unfold curlSqueeze
  obtain ⟨n, hn⟩ : ∃ n, (k + 242) / 243 = n + 1 := ⟨(k + 242) / 243 - 1, by omega⟩
  have hn2 : (k - 243 + 242) / 243 = n := by omega
  rw [hn, hn2]
  rfl

@[simp] theorem curlSqueeze_zero (rounds : Nat) (S : Vector Trit 729) :
    curlSqueeze rounds S 0 = ([], S) := rfl

/-! ### The binary hash -/

@[simp] theorem bytesOfLane_length (v : Word) : (bytesOfLane v).length = 8 := by simp [bytesOfLane]

@[simp] theorem keccak384_length (M : List Byte) : (keccak384 M).length = 48 := by
  simp [keccak384, List.length_flatMap]

/-- `H384` gives 48 bytes, whichever function it is (R172). -/
@[simp] theorem h384_length (hash : Config.HashChoice) (M : List Byte) : (h384 hash M).length = 48 := by
  cases hash <;> simp [h384]

@[simp] theorem reseed_length (o : Config.KerlReseed) (d : List Byte) : (reseed o d).length = d.length := by
  cases o <;> simp [reseed]

/-- The re-seed complements (R178): byte `j` from byte `47 - j` where it reverses. -/
theorem reseed_reversed_getD (d : List Byte) (j : Nat) (hd : d.length = 48) (hj : j < 48) :
    ((reseed .reversed d).getD j 0).toNat = 255 - (d.getD (47 - j) 0).toNat := by
  have hr : 48 - 1 - j = 47 - j := by omega
  have hl : 47 - j < d.length := by omega
  rw [reseed, List.getD_eq_getElem?_getD, List.getElem?_map, List.getElem?_reverse (by omega), hd, hr]
  simp [hl]

theorem reseed_forward_getD (d : List Byte) (j : Nat) (hj : j < d.length) :
    ((reseed .forward d).getD j 0).toNat = 255 - (d.getD j 0).toNat := by
  simp [reseed, hj]

/-! ### Kerl -/

theorem kerlAbsorb_length (K : List Byte) (m : List Trit) :
    (kerlAbsorb K m).length = K.length + 48 * ((m.length + 242) / 243) := by
  have h : ∀ l : List (List Trit), (l.flatMap fun c => t2b (clearTop c)).length = 48 * l.length := by
    intro l
    induction l with
    | nil => rfl
    | cons c l ih => simp [ih]; ring
  rw [kerlAbsorb, List.length_append, h, chunks243_length]

/-- Absorbing one sequence after another is absorbing both, where the first is whole chunks. -/
theorem kerlAbsorb_append (K : List Byte) (m m' : List Trit) (n : Nat) (h : m.length = 243 * n) :
    kerlAbsorb K (m ++ m') = kerlAbsorb (kerlAbsorb K m) m' := by
  simp [kerlAbsorb, chunks243_append_of_dvd m m' n h, List.flatMap_append]

@[simp] theorem kerlSqueeze1_fst_length (p : Config.Params) (K : List Byte) :
    (kerlSqueeze1 p K).1.length = 243 := by simp [kerlSqueeze1]

@[simp] theorem kerlSqueeze1_snd_length (p : Config.Params) (K : List Byte) :
    (kerlSqueeze1 p K).2.length = 48 := by simp [kerlSqueeze1]

@[simp] theorem kerlSqueezeChunks_length (p : Config.Params) (n : Nat) (K : List Byte) :
    (kerlSqueezeChunks p n K).1.length = 243 * n := by
  induction n generalizing K with
  | zero => rfl
  | succ n ih => simp [kerlSqueezeChunks, ih]; ring

theorem kerlSqueezeChunks_add (p : Config.Params) (n n' : Nat) (K : List Byte) :
    kerlSqueezeChunks p (n + n') K =
      ((kerlSqueezeChunks p n K).1 ++ (kerlSqueezeChunks p n' (kerlSqueezeChunks p n K).2).1,
        (kerlSqueezeChunks p n' (kerlSqueezeChunks p n K).2).2) := by
  induction n generalizing K with
  | zero => simp [kerlSqueezeChunks]
  | succ n ih =>
    have h : n + 1 + n' = (n + n') + 1 := by ring
    rw [h]
    simp only [kerlSqueezeChunks, ih, List.append_assoc]

/-- After at least one chunk the message is a 48-byte re-seed (R175, R181). -/
theorem kerlSqueezeChunks_snd_length (p : Config.Params) (n : Nat) (K : List Byte) (h : 0 < n) :
    (kerlSqueezeChunks p n K).2.length = 48 := by
  induction n generalizing K with
  | zero => omega
  | succ n ih =>
    simp only [kerlSqueezeChunks]
    rcases Nat.eq_zero_or_pos n with rfl | hn
    · simp [kerlSqueezeChunks]
    · exact ih _ hn

theorem kerlSqueeze_length (p : Config.Params) (K : List Byte) (k : Nat) (h : k % 243 = 0) :
    (kerlSqueeze p K k).1.length = k := by
  rw [kerlSqueeze, kerlSqueezeChunks_length]; omega

/-- Trit 242 of every chunk squeezed is 0 (R175, R182). -/
theorem kerlSqueezeChunks_top (p : Config.Params) (n : Nat) (K : List Byte) (j : Nat) (h : j < n) :
    (kerlSqueezeChunks p n K).1[243 * j + 242]? = some .zero := by
  induction n generalizing K j with
  | zero => omega
  | succ n ih =>
    simp only [kerlSqueezeChunks]
    cases j with
    | zero =>
      rw [List.getElem?_append_left (by simp)]
      simp [kerlSqueeze1, clearTop]
    | succ j =>
      have h1 : (kerlSqueeze1 p K).1.length = 243 := kerlSqueeze1_fst_length p K
      rw [List.getElem?_append_right (by omega), h1]
      have h2 : 243 * (j + 1) + 242 - 243 = 243 * j + 242 := by omega
      rw [h2]
      exact ih _ j (by omega)

@[simp] theorem kerlDigest_length (p : Config.Params) (m : List Trit) : (kerlDigest p m).length = 243 := by
  simp [kerlDigest]

theorem kerlDigest_top (p : Config.Params) (m : List Trit) : (kerlDigest p m)[242]? = some .zero := by
  simp [kerlDigest, kerlSqueeze1, clearTop]

/-! ### Hash chains -/

theorem hashChain_add (p : Config.Params) (n n' : Nat) (b : List Trit) :
    hashChain p n' (hashChain p n b) = hashChain p (n + n') b := by
  induction n generalizing b with
  | zero => simp [hashChain]
  | succ n ih =>
    have h : n + 1 + n' = (n + n') + 1 := by ring
    rw [h]
    simp only [hashChain, ih]

theorem hashChain_length (p : Config.Params) (n : Nat) (b : List Trit) (h : b.length = 243) :
    (hashChain p n b).length = 243 := by
  induction n generalizing b with
  | zero => exact h
  | succ n ih => exact ih _ (by simp [kerlHash243])

theorem flatMap_range_length (n size : Nat) (f : Nat → List Trit) (h : ∀ i < n, (f i).length = size) :
    ((List.range n).flatMap f).length = size * n := by
  induction n with
  | zero => simp
  | succ n ih =>
    rw [List.range_succ, List.flatMap_append, List.length_append, ih (fun i hi => h i (by omega))]
    simp [h n (by omega)]; ring

theorem piece_flatMap_range (n size : Nat) (f : Nat → List Trit) (h : ∀ i < n, (f i).length = size)
    (j : Nat) (hj : j < n) : piece size ((List.range n).flatMap f) j = f j := by
  induction n generalizing f j with
  | zero => omega
  | succ n ih =>
    rw [List.range_succ_eq_map, List.flatMap_cons, List.flatMap_map]
    cases j with
    | zero => exact piece_append_zero _ _ _ (h 0 (by omega))
    | succ j =>
      rw [piece_append_add _ _ _ _ (h 0 (by omega))]
      exact ih (fun i => f (i + 1)) (fun i hi => h (i + 1) (by omega)) j (by omega)

theorem chainBlocks_length (p : Config.Params) (chain : Nat → Nat) (fragment : List Trit)
    (h : fragment.length = 6561) : (chainBlocks p chain fragment).length = 6561 := by
  rw [chainBlocks, flatMap_range_length 27 243]
  intro i hi
  apply hashChain_length
  rw [piece_length]; omega

/-! ### Lengths of the engine's results -/

theorem padSeed_length (seed : List Trit) :
    (padSeed seed).length = 243 * ((seed.length + 242) / 243) := by
  simp only [padSeed, zeros, List.length_append, List.length_replicate]; omega

theorem keygen_length (p : Config.Params) (seed : List Trit) (index : Int) (security : Nat) :
    (keygen p seed index security).length = 6561 * security := by
  rw [keygen, kerlSqueeze_length]; omega

theorem digestsOf_length (p : Config.Params) (key : List Trit) :
    (digestsOf p key).length = 243 * (key.length / 6561) := by
  rw [digestsOf, flatMap_range_length _ 243]
  intro i _
  simp [fragmentDigest]

@[simp] theorem sigDigest_length (p : Config.Params) (nf : List Int) (sig : List Trit) :
    (sigDigest p nf sig).length = 243 := by simp [sigDigest]

theorem sigFrag_length (p : Config.Params) (nf : List Int) (kf : List Trit) (h : kf.length = 6561) :
    (sigFrag p nf kf).length = 6561 := chainBlocks_length _ _ _ h

theorem signatureDigests_length (p : Config.Params) (frags h : List Trit) :
    (signatureDigests p frags h).length = 243 * (frags.length / 6561) := by
  rw [signatureDigests, flatMap_range_length _ 243]
  intro i _
  simp

/-! ### Normalization -/

@[simp] theorem decrementFirst_length (v : List Int) : (decrementFirst v).length = v.length := by
  induction v with
  | nil => rfl
  | cons a v ih => unfold decrementFirst; split <;> simp [ih]

@[simp] theorem incrementFirst_length (v : List Int) : (incrementFirst v).length = v.length := by
  induction v with
  | nil => rfl
  | cons a v ih => unfold incrementFirst; split <;> simp [ih]

/-- Where some element is above -13, a unit step lowers the sum by 1 (R201). -/
theorem decrementFirst_sum (v : List Int) (h : ∃ a ∈ v, a > -13) : (decrementFirst v).sum = v.sum - 1 := by
  induction v with
  | nil => simp at h
  | cons a v ih =>
    unfold decrementFirst
    split
    · simp; ring
    · have : ∃ b ∈ v, b > -13 := by simpa [*] using h
      simp [ih this]; ring

theorem incrementFirst_sum (v : List Int) (h : ∃ a ∈ v, a < 13) : (incrementFirst v).sum = v.sum + 1 := by
  induction v with
  | nil => simp at h
  | cons a v ih =>
    unfold incrementFirst
    split
    · simp; ring
    · have : ∃ b ∈ v, b < 13 := by simpa [*] using h
      simp [ih this]; ring

theorem decrementFirst_bounds (v : List Int) (h : ∀ a ∈ v, -13 ≤ a ∧ a ≤ 13) :
    ∀ a ∈ decrementFirst v, -13 ≤ a ∧ a ≤ 13 := by
  induction v with
  | nil => simp [decrementFirst]
  | cons b v ih =>
    have hb := h b (by simp)
    have hv : ∀ a ∈ v, -13 ≤ a ∧ a ≤ 13 := fun a ha => h a (by simp [ha])
    unfold decrementFirst
    split
    · intro a ha
      rcases List.mem_cons.mp ha with rfl | ha
      · omega
      · exact hv a ha
    · intro a ha
      rcases List.mem_cons.mp ha with rfl | ha
      · exact hb
      · exact ih hv a ha

theorem incrementFirst_bounds (v : List Int) (h : ∀ a ∈ v, -13 ≤ a ∧ a ≤ 13) :
    ∀ a ∈ incrementFirst v, -13 ≤ a ∧ a ≤ 13 := by
  induction v with
  | nil => simp [incrementFirst]
  | cons b v ih =>
    have hb := h b (by simp)
    have hv : ∀ a ∈ v, -13 ≤ a ∧ a ≤ 13 := fun a ha => h a (by simp [ha])
    unfold incrementFirst
    split
    · intro a ha
      rcases List.mem_cons.mp ha with rfl | ha
      · omega
      · exact hv a ha
    · intro a ha
      rcases List.mem_cons.mp ha with rfl | ha
      · exact hb
      · exact ih hv a ha

theorem sum_nonpos_of_all (v : List Int) (h : ∀ a ∈ v, a ≤ 0) : v.sum ≤ 0 := by
  induction v with
  | nil => simp
  | cons b v ih =>
    have hb := h b (by simp)
    have := ih fun a ha => h a (by simp [ha])
    simp only [List.sum_cons]; omega

theorem exists_above_of_sum_pos (v : List Int) (h : 0 < v.sum) : ∃ a ∈ v, a > -13 := by
  by_contra hn
  push Not at hn
  have : v.sum ≤ 0 := sum_nonpos_of_all v fun a ha => by have := hn a ha; omega
  omega

theorem exists_below_of_sum_neg (v : List Int) (h : v.sum < 0) : ∃ a ∈ v, a < 13 := by
  by_contra hn
  push Not at hn
  have : 0 ≤ v.sum := List.sum_nonneg fun a ha => by have := hn a ha; omega
  omega

theorem repeatedly_decrementFirst (n : Nat) (v : List Int) (hs : v.sum = n)
    (hb : ∀ a ∈ v, -13 ≤ a ∧ a ≤ 13) :
    (repeatedly decrementFirst n v).sum = 0 ∧ (repeatedly decrementFirst n v).length = v.length
      ∧ ∀ a ∈ repeatedly decrementFirst n v, -13 ≤ a ∧ a ≤ 13 := by
  induction n generalizing v with
  | zero => exact ⟨by simpa [repeatedly] using hs, rfl, hb⟩
  | succ n ih =>
    have hex := exists_above_of_sum_pos v (by omega)
    have := ih (decrementFirst v) (by rw [decrementFirst_sum v hex]; push_cast at hs; omega)
      (decrementFirst_bounds v hb)
    simpa [repeatedly] using this

theorem repeatedly_incrementFirst (n : Nat) (v : List Int) (hs : v.sum = -(n : Int))
    (hb : ∀ a ∈ v, -13 ≤ a ∧ a ≤ 13) :
    (repeatedly incrementFirst n v).sum = 0 ∧ (repeatedly incrementFirst n v).length = v.length
      ∧ ∀ a ∈ repeatedly incrementFirst n v, -13 ≤ a ∧ a ≤ 13 := by
  induction n generalizing v with
  | zero => exact ⟨by simpa [repeatedly] using hs, rfl, hb⟩
  | succ n ih =>
    have hex := exists_below_of_sum_neg v (by omega)
    have := ih (incrementFirst v) (by rw [incrementFirst_sum v hex]; push_cast at hs; omega)
      (incrementFirst_bounds v hb)
    simpa [repeatedly] using this

/-- A group after normalization (R201): its sum is 0 and its elements are in [-13, 13]. -/
theorem normalizeGroup_spec (v : List Int) (hb : ∀ a ∈ v, -13 ≤ a ∧ a ≤ 13) :
    (normalizeGroup v).sum = 0 ∧ (normalizeGroup v).length = v.length
      ∧ ∀ a ∈ normalizeGroup v, -13 ≤ a ∧ a ≤ 13 := by
  unfold normalizeGroup
  split
  · exact repeatedly_decrementFirst _ v (by omega) hb
  · exact repeatedly_incrementFirst _ v (by omega) hb

/-- Decrementing raises no element. -/
theorem decrementFirst_getD_le (v : List Int) (i : Nat) : (decrementFirst v).getD i 0 ≤ v.getD i 0 := by
  induction v generalizing i with
  | nil => simp [decrementFirst]
  | cons a v ih => unfold decrementFirst; split <;> cases i <;> simp_all

/-- Incrementing lowers no element. -/
theorem le_incrementFirst_getD (v : List Int) (i : Nat) : v.getD i 0 ≤ (incrementFirst v).getD i 0 := by
  induction v generalizing i with
  | nil => simp [incrementFirst]
  | cons a v ih => unfold incrementFirst; split <;> cases i <;> simp_all

theorem repeatedly_decrementFirst_getD_le (n : Nat) (v : List Int) (i : Nat) :
    (repeatedly decrementFirst n v).getD i 0 ≤ v.getD i 0 := by
  induction n generalizing v with
  | zero => exact le_rfl
  | succ n ih => exact (ih _).trans (decrementFirst_getD_le v i)

theorem le_repeatedly_incrementFirst_getD (n : Nat) (v : List Int) (i : Nat) :
    v.getD i 0 ≤ (repeatedly incrementFirst n v).getD i 0 := by
  induction n generalizing v with
  | zero => exact le_rfl
  | succ n ih => exact (le_incrementFirst_getD v i).trans (ih _)

/-- A group that sums to zero is unchanged (R201). -/
theorem normalizeGroup_of_sum_zero (v : List Int) (h : v.sum = 0) : normalizeGroup v = v := by
  simp [normalizeGroup, h, repeatedly]

theorem groupOf_mem {v : List Int} {g : Nat} {a : Int} (h : a ∈ groupOf v g) : a ∈ v :=
  List.mem_of_mem_drop (List.mem_of_mem_take h)

theorem groupOf_length (v : List Int) (g : Nat) : (groupOf v g).length = min 27 (v.length - 27 * g) := by
  simp [groupOf]

theorem normalize_groups (h : List Trit) (hl : h.length = 243) :
    groupOf (normalize h) 0 = normalizeGroup (groupOf (tryteValues h) 0)
      ∧ groupOf (normalize h) 1 = normalizeGroup (groupOf (tryteValues h) 1)
      ∧ groupOf (normalize h) 2 = normalizeGroup (groupOf (tryteValues h) 2) := by
  have hb := tryteValues_bounds h
  have hlen : (tryteValues h).length = 81 := by simp [hl]
  have h0 := (normalizeGroup_spec (groupOf (tryteValues h) 0) fun a ha => hb a (groupOf_mem ha)).2.1
  have h1 := (normalizeGroup_spec (groupOf (tryteValues h) 1) fun a ha => hb a (groupOf_mem ha)).2.1
  have h2 := (normalizeGroup_spec (groupOf (tryteValues h) 2) fun a ha => hb a (groupOf_mem ha)).2.1
  rw [groupOf_length, hlen] at h0 h1 h2
  simp only [normalize]
  generalize normalizeGroup (groupOf (tryteValues h) 0) = A at *
  generalize normalizeGroup (groupOf (tryteValues h) 1) = B at *
  generalize normalizeGroup (groupOf (tryteValues h) 2) = C at *
  have h0' : A.length = 27 := by omega
  have h1' : B.length = 27 := by omega
  have h2' : C.length = 27 := by omega
  have hC : C.take 27 = C := List.take_of_length_le (by omega)
  have hA : A.drop 54 = [] := List.drop_eq_nil_of_le (by omega)
  refine ⟨?_, ?_, ?_⟩ <;> simp [groupOf, List.drop_append, h0', h1', hC, hA]

@[simp] theorem normalize_length (h : List Trit) (hl : h.length = 243) : (normalize h).length = 81 := by
  have hb := tryteValues_bounds h
  have hlen : (tryteValues h).length = 81 := by simp [hl]
  have h0 := (normalizeGroup_spec (groupOf (tryteValues h) 0) fun a ha => hb a (groupOf_mem ha)).2.1
  have h1 := (normalizeGroup_spec (groupOf (tryteValues h) 1) fun a ha => hb a (groupOf_mem ha)).2.1
  have h2 := (normalizeGroup_spec (groupOf (tryteValues h) 2) fun a ha => hb a (groupOf_mem ha)).2.1
  rw [groupOf_length, hlen] at h0 h1 h2
  simp only [normalize, List.length_append, h0, h1, h2]
  norm_num

theorem normalize_bounds (h : List Trit) : ∀ a ∈ normalize h, -13 ≤ a ∧ a ≤ 13 := by
  have hb := tryteValues_bounds h
  intro a ha
  simp only [normalize, List.mem_append] at ha
  rcases ha with (ha | ha) | ha <;>
    exact (normalizeGroup_spec _ fun b hb' => hb b (groupOf_mem hb')).2.2 a ha

end Sys2Proof.Machine
end

