-- ==== Sys2Proof/Laws/Commands.lean ====
section
/-! SUPPORT. What a command can do, said once (`exec_effect`): it raises a fault or has one of the
effects of its kind. Facts about every command follow from it by cases. -/

namespace Sys2Proof.Machine

open Sys2Proof

/-- The commands that write a register, and which one (spec/10_state.md R22). -/
def registerWritten : Instr → Option Reg
  | .li ra _ => some ra
  | .int2t _ _ rc => some rc
  | .t2int ra _ _ => some ra
  | .validate ra _ _ _ _ _ => some ra
  | _ => none

/-- What the command `i` can make of `s`. -/
inductive Effect (i : Instr) (s : State) : State → Prop
  /-- it raises a fault -/
  | fault (c : Cause) (n : Nat) (hc : c ≠ .noFault) : Effect i s (s.enterFault (encode i) c n)
  /-- it writes its destination register -/
  | register (r : Reg) (v : Word) (hr : registerWritten i = some r) : Effect i s (s.setReg r v)
  /-- `INT2T`: a region of TM and a register -/
  | length (r : Reg) (d : Nat) (t : List Trit) (v : Word) (hr : registerWritten i = some r)
      (hd : d + t.length ≤ s.params.nt) : Effect i s ((s.writeT d t).setReg r v)
  /-- it writes a region of TM -/
  | trits (d : Nat) (t : List Trit) (hd : d + t.length ≤ s.params.nt) : Effect i s (s.writeT d t)
  /-- it writes a region of BM -/
  | bytes (d : Nat) (b : List Byte) (hd : d + b.length ≤ s.params.nb) : Effect i s (s.writeB d b)
  /-- `CINIT` -/
  | rounds (imm20 : BitVec 20) (S : Vector Trit 729) (r : BitVec 8) (hi : i = .cinit imm20)
      (hr : r ≠ 0) : Effect i s ((s.setRounds r).setCurl S)
  /-- `CRESET`, `CXFORM`, `CABSORB` -/
  | curl (S : Vector Trit 729)
      (hi : i = .creset ∨ i = .cxform ∨ ∃ ra rb rc, i = .cabsorb ra rb rc) :
      Effect i s (s.setCurl S)
  /-- `CSQUEEZE` -/
  | curlOut (S : Vector Trit 729) (d : Nat) (t : List Trit) (hi : ∃ ra rb rc, i = .csqueeze ra rb rc)
      (hd : d + t.length ≤ s.params.nt) : Effect i s ((s.setCurl S).writeT d t)
  /-- `KRESET`, `KABSORB` -/
  | kerl (K : List Byte) (hi : i = .kreset ∨ ∃ ra rb rc, i = .kabsorb ra rb rc)
      (hK : s.km.length % 48 = 0 → K.length % 48 = 0) : Effect i s (s.setKerl K)
  /-- `KSQUEEZE` -/
  | kerlOut (K : List Byte) (d : Nat) (t : List Trit) (hi : ∃ ra rb rc, i = .ksqueeze ra rb rc)
      (hK : K.length = 48) (hd : d + t.length ≤ s.params.nt) : Effect i s ((s.setKerl K).writeT d t)

/-- A checked command raises a fault that its checks name, or runs with no check failing. -/
theorem checked_effect {i : Instr} {cs : List Check}
    {run : State → Host.Outcome State Fault Refusal} {s : State}
    (hc : ∀ c ∈ cs, c.cause ≠ .noFault)
    (hrun : (∀ c ∈ cs, c.fails = false) → ∃ t, run s = .next t ∧ Effect i s t) :
    ∃ t, checked i cs run s = .next t ∧ Effect i s t := by
  rcases checked_cases i cs run s with ⟨c, hmem, _, h⟩ | ⟨hall, h⟩
  · exact ⟨_, h, .fault c.cause c.info (hc c hmem)⟩
  · rw [h]; exact hrun hall

theorem roundCount_ne_zero (imm20 : BitVec 20) (h : imm20.toNat ≤ 255) : roundCount imm20 ≠ 0 := by
  unfold roundCount
  split
  · decide
  · rename_i hne
    intro h0
    apply hne
    apply BitVec.eq_of_toNat_eq
    have := congrArg BitVec.toNat h0
    simp only [BitVec.toNat_setWidth, BitVec.toNat_zero, BitVec.ofNat_eq_ofNat] at this ⊢
    omega

theorem flatMap_tripleOf_length (b : List Byte) : (b.flatMap tripleOf).length = 3 * b.length := by
  induction b with
  | nil => rfl
  | cons c b ih => simp [ih]; ring

theorem codeUnits_length (b : List Byte) : (codeUnits b).length = b.length / 2 := by
  induction b using codeUnits.induct with
  | case1 lo hi rest ih => simp [codeUnits, ih]; omega
  | case2 b h =>
    match b, h with
    | [], _ => simp [codeUnits]
    | [_], _ => simp [codeUnits]
    | lo :: hi :: r, h => exact absurd rfl (h lo hi r)

theorem flatMap_unitSymbols_length (u : List Nat) : (u.flatMap unitSymbols).length = 2 * u.length := by
  induction u with
  | nil => rfl
  | cons c u ih => simp [unitSymbols]; ring

theorem unitBytes_length (b : List Byte) : (unitBytes b).length = 2 * (b.length / 2) := by
  induction b using unitBytes.induct with
  | case1 lo hi rest ih => simp [unitBytes, ih]; omega
  | case2 b h =>
    match b, h with
    | [], _ => simp [unitBytes]
    | [_], _ => simp [unitBytes]
    | lo :: hi :: r, h => exact absurd rfl (h lo hi r)

/-- What a command can do, said once. -/
theorem exec_effect (i : Instr) (s : State) : ∃ t, exec i s = .next t ∧ Effect i s t := by
  cases i with
  | li ra imm20 => exact ⟨_, rfl, .register ra _ rfl⟩
  | try2t ra rb rc =>
    dsimp only [exec, execTry2t]
    refine checked_effect ?_ fun hall => ?_
    · simp
    simp only [List.forall_mem_cons, inBM_fails, inTM_fails, decide_eq_false_iff_not, not_lt] at hall
    split
    · exact ⟨_, rfl, .fault _ _ (by simp)⟩
    · exact ⟨_, rfl, .trits _ _ (by rw [flatMap_tripleOf_length]; simpa using hall.2.1)⟩
  | int2t ra rb rc =>
    dsimp only [exec, execInt2t]
    refine checked_effect ?_ fun hall => ?_
    · simp
    simp only [List.forall_mem_cons, inTM_fails, decide_eq_false_iff_not, not_lt] at hall
    exact ⟨_, rfl, .length rc _ _ _ rfl hall.1⟩
  | t2try ra rb rc =>
    dsimp only [exec, execT2try]
    refine checked_effect ?_ fun hall => ?_
    · simp [multipleOf3]
    simp only [List.forall_mem_cons, inBM_fails, inTM_fails, decide_eq_false_iff_not, not_lt] at hall
    exact ⟨_, rfl, .bytes _ _ (by simpa using hall.2.2.1)⟩
  | t2int ra rb rc =>
    dsimp only [exec, execT2int]
    refine checked_effect ?_ fun hall => ?_
    · simp [multipleOf3]
    split
    · exact ⟨_, rfl, .fault _ _ (by simp)⟩
    · exact ⟨_, rfl, .register ra _ rfl⟩
  | str2try ra rb rc =>
    dsimp only [exec, execStr2try]
    refine checked_effect ?_ fun hall => ?_
    · simp
    simp only [List.forall_mem_cons, inBM_fails, decide_eq_false_iff_not, not_lt] at hall
    split
    · exact ⟨_, rfl, .fault _ _ (by simp)⟩
    · refine ⟨_, rfl, .bytes _ _ ?_⟩
      rw [flatMap_unitSymbols_length, codeUnits_length, State.readB_length]
      have := hall.2.1
      omega
  | try2str ra rb rc =>
    dsimp only [exec, execTry2str]
    refine checked_effect ?_ fun hall => ?_
    · simp [even]
    simp only [List.forall_mem_cons, inBM_fails, decide_eq_false_iff_not, not_lt] at hall
    split
    · exact ⟨_, rfl, .fault _ _ (by simp)⟩
    · refine ⟨_, rfl, .bytes _ _ ?_⟩
      rw [unitBytes_length, State.readB_length]
      have := hall.2.2.1
      omega
  | t2b ra rb rc =>
    dsimp only [exec, execT2b]
    refine checked_effect ?_ fun hall => ?_
    · simp [exactly243]
    simp only [List.forall_mem_cons, inBM_fails, inTM_fails, decide_eq_false_iff_not, not_lt] at hall
    exact ⟨_, rfl, .bytes _ _ (by simpa using hall.2.2.1)⟩
  | b2t ra rb rc =>
    dsimp only [exec, execB2t]
    refine checked_effect ?_ fun hall => ?_
    · simp [exactly48]
    simp only [List.forall_mem_cons, inBM_fails, inTM_fails, decide_eq_false_iff_not, not_lt] at hall
    exact ⟨_, rfl, .trits _ _ (by simpa using hall.2.2.1)⟩
  | tadd ra rb rc rd re =>
    dsimp only [exec, execTadd]
    refine checked_effect ?_ fun hall => ?_
    · simp
    simp only [List.forall_mem_cons, inTM_fails, decide_eq_false_iff_not, not_lt] at hall
    exact ⟨_, rfl, .trits _ _ (by simpa using hall.2.2.1)⟩
  | cinit imm20 =>
    by_cases h : imm20.toNat ≤ 255
    · exact ⟨_, by simp only [exec, execCinit, h, if_true], .rounds imm20 zeroCurl _ rfl (roundCount_ne_zero _ h)⟩
    · exact ⟨_, by simp only [exec, execCinit, h, if_false]; rfl, .fault _ _ (by simp)⟩
  | creset => exact ⟨_, rfl, .curl _ (by simp)⟩
  | cxform => exact ⟨_, rfl, .curl _ (by simp)⟩
  | cabsorb ra rb rc =>
    dsimp only [exec, execCabsorb]
    refine checked_effect ?_ fun hall => ?_
    · simp [curlChecks, arrayInTM]
    exact ⟨_, rfl, .curl _ (by simp)⟩
  | csqueeze ra rb rc =>
    dsimp only [exec, execCsqueeze]
    refine checked_effect ?_ fun hall => ?_
    · simp [curlChecks, arrayInTM]
    refine ⟨_, rfl, .curlOut _ _ _ ⟨ra, rb, rc, rfl⟩ ?_⟩
    simp only [curlChecks, arrayInTM, List.forall_mem_cons, decide_eq_false_iff_not, not_lt, not_le] at hall
    rw [curlSqueeze_length]
    omega
  | kreset => exact ⟨_, rfl, .kerl _ (by simp) (by simp)⟩
  | kabsorb ra rb rc =>
    dsimp only [exec, execKabsorb]
    refine checked_effect ?_ fun hall => ?_
    · simp [kerlChecks, arrayInTM, multipleOf243]
    refine ⟨_, rfl, .kerl _ (by simp) ?_⟩
    rw [kerlAbsorb_length]
    omega
  | ksqueeze ra rb rc =>
    dsimp only [exec, execKsqueeze]
    refine checked_effect ?_ fun hall => ?_
    · simp [kerlChecks, arrayInTM, multipleOf243]
    simp only [kerlChecks, arrayInTM, multipleOf243, List.forall_mem_cons, decide_eq_false_iff_not, not_lt,
      not_le, not_or, ne_eq, not_not] at hall
    refine ⟨_, rfl, .kerlOut _ _ _ ⟨ra, rb, rc, rfl⟩ ?_ ?_⟩
    · exact kerlSqueezeChunks_snd_length _ _ _ (by omega)
    · rw [kerlSqueeze_length _ _ _ (by omega)]
      omega
  | keygen ra rb rc rd re =>
    dsimp only [exec, execKeygen]
    refine checked_effect ?_ fun hall => ?_
    · simp [positive]
    simp only [List.forall_mem_cons, inTM_fails, decide_eq_false_iff_not, not_lt] at hall
    exact ⟨_, rfl, .trits _ _ (by rw [keygen_length]; exact hall.2.2.2.1)⟩
  | digests ra rb rc =>
    dsimp only [exec, execDigests]
    refine checked_effect ?_ fun hall => ?_
    · simp [positiveMultipleOf6561]
    simp only [List.forall_mem_cons, inTM_fails, decide_eq_false_iff_not, not_lt] at hall
    exact ⟨_, rfl, .trits _ _ (by rw [digestsOf_length]; simpa using hall.2.2.1)⟩
  | address ra rb rc =>
    dsimp only [exec, execAddress]
    refine checked_effect ?_ fun hall => ?_
    · simp [positiveMultipleOf243]
    simp only [List.forall_mem_cons, inTM_fails, decide_eq_false_iff_not, not_lt] at hall
    exact ⟨_, rfl, .trits _ _ (by simpa using hall.2.2.1)⟩
  | sigdigest ra rb rc =>
    dsimp only [exec, execSigdigest]
    refine checked_effect ?_ fun hall => ?_
    · simp
    simp only [List.forall_mem_cons, inTM_fails, decide_eq_false_iff_not, not_lt] at hall
    exact ⟨_, rfl, .trits _ _ (by simpa using hall.2.2.1)⟩
  | sigfrag ra rb rc =>
    dsimp only [exec, execSigfrag]
    refine checked_effect ?_ fun hall => ?_
    · simp
    simp only [List.forall_mem_cons, inTM_fails, decide_eq_false_iff_not, not_lt] at hall
    exact ⟨_, rfl, .trits _ _ (by rw [sigFrag_length _ _ _ (by simp)]; exact hall.2.2.1)⟩
  | normalize ra rb =>
    dsimp only [exec, execNormalize]
    refine checked_effect ?_ fun hall => ?_
    · simp
    simp only [List.forall_mem_cons, inTM_fails, decide_eq_false_iff_not, not_lt] at hall
    exact ⟨_, rfl, .trits _ _ (by simpa using hall.2.1)⟩
  | validate ra rb rc rd re rf =>
    dsimp only [exec, execValidate]
    refine checked_effect ?_ fun hall => ?_
    · simp [hashPresent, exactly243, positive]
    exact ⟨_, rfl, .register ra _ rfl⟩

/-- If a command answers a next state, that state is one of its effects. -/
theorem effect_of_exec {i : Instr} {s t : State} (h : exec i s = .next t) : Effect i s t := by
  obtain ⟨t', h', he⟩ := exec_effect i s
  rw [h] at h'
  cases h'
  exact he

end Sys2Proof.Machine
end

