-- ==== Sys2Proof/Laws/CurlEval.lean ====
section
/-! SUPPORT. The Curl round over lists, each trit worked out before the next (spec/42_curl.md R151 to R153),
and its equality with `curlRound`: the form in which the kernel can work out a transform. The index walk
0, 364, 728, 363, 727, ... alternates between two descending runs, so a round reads two reversed parts of
the state in turn. -/

namespace Sys2Proof.Machine.CurlEval

open Sys2Proof Sys2Proof.Machine

/-- `k t`, with `t` worked out first. -/
def strict {α : Type} (t : Trit) (k : Trit → α) : α :=
  match t with
  | .neg => k .neg
  | .zero => k .zero
  | .pos => k .pos

theorem strict_eq {α : Type} (t : Trit) (k : Trit → α) : strict t k = k t := by cases t <;> rfl

/-- `curlF` as nine cases. -/
def newTrit : Trit → Trit → Trit
  | .neg, .neg => .pos
  | .zero, .neg => .zero
  | .pos, .neg => .neg
  | .neg, .zero => .pos
  | .zero, .zero => .neg
  | .pos, .zero => .zero
  | .neg, .pos => .neg
  | .zero, .pos => .pos
  | .pos, .pos => .zero

theorem newTrit_eq (a b : Trit) : newTrit a b = curlF a b := by cases a <;> cases b <;> decide

/-- The elements of two lists in turn. -/
def interleave : List Trit → List Trit → List Trit
  | a :: as, b :: bs => a :: b :: interleave as bs
  | as, [] => as
  | [], bs => bs

theorem interleave_length (as bs : List Trit) :
    (interleave as bs).length = as.length + bs.length := by
  induction as generalizing bs with
  | nil => cases bs <;> simp [interleave]
  | cons a as ih =>
    cases bs with
    | nil => simp [interleave]
    | cons b bs => simp [interleave, ih]; omega

theorem interleave_getElem? (as bs : List Trit) (h : as.length = bs.length + 1) (j : Nat) :
    (j ≤ bs.length → (interleave as bs)[2 * j]? = as[j]?)
      ∧ (j < bs.length → (interleave as bs)[2 * j + 1]? = bs[j]?) := by
  induction bs generalizing as j with
  | nil =>
    refine ⟨fun hj => ?_, fun hj => by simp at hj⟩
    obtain rfl : j = 0 := by simpa using hj
    cases as <;> simp [interleave]
  | cons b bs ih =>
    match as, h with
    | a :: as, h =>
      have h' : as.length = bs.length + 1 := by simpa using h
      cases j with
      | zero => simp [interleave]
      | succ j =>
        have h2 : 2 * (j + 1) = 2 * j + 1 + 1 := by ring
        simp only [h2, interleave, List.getElem?_cons_succ, List.length_cons]
        exact ⟨fun hj => (ih as h' j).1 (by omega), fun hj => (ih as h' j).2 (by omega)⟩

/-- The cells of a state in the order of the walk. -/
def walked : List Trit → List Trit
  | [] => []
  | a :: l => interleave (a :: (l.drop 364).reverse) (l.take 364).reverse

theorem walked_getElem? (l : List Trit) (h : l.length = 729) (i : Nat) (hi : i < 729) :
    (walked l)[i]? = l[364 * i % 729]? := by
  match l, h with
  | a :: l, h =>
    have hl : l.length = 728 := by simpa using h
    have hg := interleave_getElem? (a :: (l.drop 364).reverse) (l.take 364).reverse
      (by simp [hl]) (i / 2)
    have hlen : (l.take 364).reverse.length = 364 := by simp [hl]
    rw [hlen] at hg
    rcases Nat.even_or_odd' i with ⟨j, rfl | rfl⟩
    · have hj : 2 * j / 2 = j := by omega
      rw [walked, show 2 * j = 2 * (2 * j / 2) by omega, hg.1 (by omega), hj]
      cases j with
      | zero => rfl
      | succ j =>
        have hw : 364 * (2 * (j + 1)) % 729 = 727 - j + 1 := by omega
        rw [hw, List.getElem?_cons_succ, List.getElem?_cons_succ,
          List.getElem?_reverse (by simp [hl]; omega), List.getElem?_drop]
        refine congrArg (fun n => l[n]?) ?_
        simp only [List.length_drop, hl]; omega
    · have hj : (2 * j + 1) / 2 = j := by omega
      rw [hj] at hg
      rw [walked, hg.2 (by omega)]
      have hw : 364 * (2 * j + 1) % 729 = 363 - j + 1 := by omega
      rw [hw, List.getElem?_cons_succ, List.getElem?_reverse (by simp [hl]; omega),
        List.getElem?_take]
      simp [hl]
      omega

/-- The new trit of every two neighbours of `a :: l`, the last one's being `w`, then `k`. -/
def pairs {α : Type} (w : Trit) : (a : Trit) → (l : List Trit) → (k : List Trit → α) → α
  | a, [], k => strict (newTrit a w) fun t => k [t]
  | a, b :: l, k => strict (newTrit a b) fun t => pairs w b l fun l => k (t :: l)

theorem pairs_eq {α : Type} (w a : Trit) (l : List Trit) (k : List Trit → α) :
    pairs w a l k = k (List.zipWith curlF (a :: l) (l ++ [w])) := by
  induction l generalizing a k with
  | nil => simp [pairs, strict_eq, newTrit_eq]
  | cons b l ih => simp [pairs, strict_eq, newTrit_eq, ih]

/-- One round, then `k`. -/
def round {α : Type} (l : List Trit) (k : List Trit → α) : α :=
  match walked l with
  | [] => k []
  | a :: m => pairs a a m k

/-- `n` rounds. -/
def rounds : (n : Nat) → (l : List Trit) → List Trit
  | 0, l => l
  | n + 1, l => round l fun l => rounds n l

theorem round_eq {α : Type} (S : Vector Trit 729) (k : List Trit → α) :
    round S.toList k = k (curlRound S).toList := by
  have hlen : (walked S.toList).length = 729 := by
    have h : S.toList.length = 729 := by simp
    generalize S.toList = l at h
    match l, h with
    | a :: l, h =>
      have hl : l.length = 728 := by simpa using h
      simp [walked, interleave_length, hl]
  have hw := walked_getElem? S.toList (by simp)
  unfold round
  generalize walked S.toList = W at hlen hw
  match W, hlen with
  | a :: m, hlen =>
    have hm : m.length = 728 := by simpa using hlen
    simp only [pairs_eq]
    refine congrArg k ?_
    apply List.ext_getElem
    · simp [hm]
    · intro i h1 h2
      have hi : i < 729 := by simpa using h2
      have e1 : (a :: m)[i]'(by simp; omega) = S[364 * i % 729]'(by omega) := by
        have h := hw i hi
        rw [List.getElem?_eq_getElem (by simp; omega), List.getElem?_eq_getElem (by simp; omega)] at h
        simpa using h
      have e2 : (m ++ [a])[i]'(by simp; omega) = S[364 * (i + 1) % 729]'(by omega) := by
        by_cases hlast : i = 728
        · subst hlast
          have h := hw 0 (by omega)
          rw [List.getElem?_eq_getElem (by simp), List.getElem?_eq_getElem (by simp)] at h
          rw [List.getElem_append_right (by omega)]
          simpa [hm] using h
        · have h := hw (i + 1) (by omega)
          rw [List.getElem?_eq_getElem (by simp; omega), List.getElem?_eq_getElem (by simp; omega)]
            at h
          rw [List.getElem_append_left (by omega)]
          simpa using h
      rw [List.getElem_zipWith, e1, e2, Vector.getElem_toList, curlRound_getElem]
      rfl

/-- A transform worked out over lists. -/
theorem rounds_eq (n : Nat) (S : Vector Trit 729) :
    (curlTransform n S).toList = rounds n S.toList := by
  induction n generalizing S with
  | zero => rfl
  | succ n ih => rw [rounds, round_eq, curlTransform, ih]

/-- The cells of a fresh state after one chunk is written over it. -/
theorem overwrite_zero (m : List Trit) (h : m.length ≤ 729) :
    (curlOverwrite (Vector.replicate 729 .zero) m).toList = m ++ zeros (729 - m.length) := by
  apply List.ext_getElem
  · simp [zeros]; omega
  · intro i h1 h2
    have hi : i < 729 := by simpa using h1
    rw [Vector.getElem_toList, curlOverwrite_getElem, List.getD_eq_getElem?_getD]
    by_cases hm : i < m.length
    · rw [List.getElem_append_left hm, List.getElem?_eq_getElem hm]; rfl
    · rw [List.getElem_append_right (by omega), List.getElem?_eq_none (by omega)]
      simp [zeros]

end Sys2Proof.Machine.CurlEval
end

