-- ==== Sys2Proof/Laws/Encoding.lean ====
section
/-! SUPPORT. Command words as numbers (spec/30_encoding.md R91, R92): what each field of a written word
reads back as. -/

namespace Sys2Proof

theorem wordR_toNat (op : Nat) (ra rb rc rd re rf : Reg) (h : op < 256) :
    (wordR op ra rb rc rd re rf).toNat = op + 2 ^ 8 * ra.val + 2 ^ 12 * rb.val + 2 ^ 16 * rc.val
      + 2 ^ 20 * rd.val + 2 ^ 24 * re.val + 2 ^ 28 * rf.val := by
  simp only [wordR, BitVec.toNat_ofNat]
  apply Nat.mod_eq_of_lt
  have := ra.isLt; have := rb.isLt; have := rc.isLt; have := rd.isLt; have := re.isLt
  have := rf.isLt
  omega

theorem wordI_toNat (op : Nat) (ra : Reg) (imm20 : BitVec 20) (h : op < 256) :
    (wordI op ra imm20).toNat = op + 2 ^ 8 * ra.val + 2 ^ 12 * imm20.toNat := by
  simp only [wordI, BitVec.toNat_ofNat]
  apply Nat.mod_eq_of_lt
  have := ra.isLt; have := imm20.isLt
  omega

theorem opcodeOf_wordR (op : Nat) (ra rb rc rd re rf : Reg) (h : op < 256) :
    opcodeOf (wordR op ra rb rc rd re rf) = op := by
  rw [opcodeOf, wordR_toNat _ _ _ _ _ _ _ h]; omega

theorem opcodeOf_wordI (op : Nat) (ra : Reg) (imm20 : BitVec 20) (h : op < 256) :
    opcodeOf (wordI op ra imm20) = op := by
  rw [opcodeOf, wordI_toNat _ _ _ h]; omega

theorem regAt_val (w : CommandWord) (lo : Nat) : (regAt w lo).val = w.toNat / 2 ^ lo % 16 := rfl

theorem regAt_wordR (op : Nat) (ra rb rc rd re rf : Reg) (h : op < 256) :
    regAt (wordR op ra rb rc rd re rf) 8 = ra ∧ regAt (wordR op ra rb rc rd re rf) 12 = rb
      ∧ regAt (wordR op ra rb rc rd re rf) 16 = rc ∧ regAt (wordR op ra rb rc rd re rf) 20 = rd
      ∧ regAt (wordR op ra rb rc rd re rf) 24 = re ∧ regAt (wordR op ra rb rc rd re rf) 28 = rf := by
  have h1 := ra.isLt; have h2 := rb.isLt; have h3 := rc.isLt
  have h4 := rd.isLt; have h5 := re.isLt; have h6 := rf.isLt
  refine ⟨?_, ?_, ?_, ?_, ?_, ?_⟩ <;> apply Fin.ext <;>
    rw [regAt_val, wordR_toNat _ _ _ _ _ _ _ h] <;> omega

theorem regAt_wordI (op : Nat) (ra : Reg) (imm20 : BitVec 20) (h : op < 256) :
    regAt (wordI op ra imm20) 8 = ra := by
  have h1 := ra.isLt; have h2 := imm20.isLt
  apply Fin.ext
  rw [regAt_val, wordI_toNat _ _ _ h]; omega

theorem imm20Of_wordI (op : Nat) (ra : Reg) (imm20 : BitVec 20) (h : op < 256) :
    imm20Of (wordI op ra imm20) = imm20 := by
  have h1 := ra.isLt; have h2 := imm20.isLt
  apply BitVec.eq_of_toNat_eq
  rw [imm20Of, BitVec.toNat_ofNat, wordI_toNat _ _ _ h]; omega

/-- The unused fields of a written word are 0. -/
theorem wordR_zero_from (op : Nat) (ra rb rc rd re : Reg) (h : op < 256) :
    (wordR op ra rb rc rd re 0).toNat / 2 ^ 28 = 0
      ∧ (wordR op ra rb rc 0 0 0).toNat / 2 ^ 20 = 0
      ∧ (wordR op ra rb 0 0 0 0).toNat / 2 ^ 16 = 0
      ∧ (wordR op 0 0 0 0 0 0).toNat / 2 ^ 8 = 0 := by
  have h1 := ra.isLt; have h2 := rb.isLt; have h3 := rc.isLt
  have h4 := rd.isLt; have h5 := re.isLt
  refine ⟨?_, ?_, ?_, ?_⟩ <;> rw [wordR_toNat _ _ _ _ _ _ _ h] <;> simp only [Fin.val_zero] <;> omega

/-! ### Masks (R97) -/

/-- Masking off the bits from 8 up to `k` leaves the low byte and the bits from `k` up. -/
theorem nat_mask_iff (x M k : Nat) (hk : 8 ≤ k) (hk2 : k ≤ 32) (hx : x < 2 ^ 32)
    (hM : M % 2 ^ 8 = 2 ^ 8 - 1) (hM2 : M / 2 ^ 8 % 2 ^ (k - 8) = 0) (hM3 : M / 2 ^ k = 2 ^ (32 - k) - 1)
    (p : Nat) (hp : p < 256) : x &&& M = p ↔ x % 256 = p ∧ x / 2 ^ k = 0 := by
  have a : (x &&& M) % 2 ^ 8 = x % 2 ^ 8 := by
    rw [Nat.and_mod_two_pow, hM, Nat.and_two_pow_sub_one_eq_mod, Nat.mod_mod]
  have b : (x &&& M) / 2 ^ 8 % 2 ^ (k - 8) = 0 := by
    rw [Nat.and_div_two_pow, Nat.and_mod_two_pow, hM2, Nat.and_zero]
  have c : (x &&& M) / 2 ^ k = x / 2 ^ k := by
    rw [Nat.and_div_two_pow, hM3, Nat.and_two_pow_sub_one_eq_mod]
    apply Nat.mod_eq_of_lt
    rw [Nat.div_lt_iff_lt_mul (by positivity), ← Nat.pow_add]
    rwa [Nat.sub_add_cancel hk2]
  have d : (x &&& M) / 2 ^ 8 / 2 ^ (k - 8) = (x &&& M) / 2 ^ k := by
    rw [Nat.div_div_eq_div_mul, ← Nat.pow_add]; congr 2; omega
  have e := Nat.div_add_mod ((x &&& M) / 2 ^ 8) (2 ^ (k - 8))
  rw [b, d, c] at e
  have f := Nat.div_add_mod (x &&& M) (2 ^ 8)
  rw [a, ← e] at f
  constructor
  · rintro rfl
    have h256 : 2 ^ 8 ≤ 2 ^ k := Nat.pow_le_pow_right (by decide) hk
    have : x / 2 ^ k = 0 := by rw [← c]; exact Nat.div_eq_of_lt (lt_of_lt_of_le hp h256)
    exact ⟨by omega, this⟩
  · rintro ⟨h1, h2⟩
    rw [h2] at f; simp at f; omega

/-- A row of the opcode map whose mask is the opcode byte and the bits from `k` up. -/
theorem word_mask_iff (k : Nat) (M p : CommandWord) (hk : 8 ≤ k) (hk2 : k ≤ 32)
    (hM : M.toNat % 2 ^ 8 = 2 ^ 8 - 1) (hM2 : M.toNat / 2 ^ 8 % 2 ^ (k - 8) = 0)
    (hM3 : M.toNat / 2 ^ k = 2 ^ (32 - k) - 1) (hp : p.toNat < 256) (w : CommandWord) :
    w &&& M = p ↔ opcodeOf w = p.toNat ∧ w.toNat / 2 ^ k = 0 := by
  rw [← BitVec.toNat_inj, BitVec.toNat_and]
  exact nat_mask_iff _ _ k hk hk2 w.isLt hM hM2 hM3 _ hp

/-- The row of `CINIT`. -/
theorem cinit_mask_iff (w : CommandWord) : w &&& 0xFFF00FFF = 0x30 ↔
    opcodeOf w = 0x30 ∧ regAt w 8 = 0 ∧ (imm20Of w).toNat ≤ 255 := by
  have := w.isLt
  have a : (w.toNat &&& 0xFFF00FFF) % 2 ^ 12 = w.toNat % 2 ^ 12 := by
    rw [Nat.and_mod_two_pow, show 0xFFF00FFF % 2 ^ 12 = 2 ^ 12 - 1 from rfl, Nat.and_two_pow_sub_one_eq_mod, Nat.mod_mod]
  have b : (w.toNat &&& 0xFFF00FFF) / 2 ^ 12 % 2 ^ 8 = 0 := by
    rw [Nat.and_div_two_pow, Nat.and_mod_two_pow, show 0xFFF00FFF / 2 ^ 12 % 2 ^ 8 = 0 from rfl, Nat.and_zero]
  have c : (w.toNat &&& 0xFFF00FFF) / 2 ^ 20 = w.toNat / 2 ^ 20 := by
    rw [Nat.and_div_two_pow, show 0xFFF00FFF / 2 ^ 20 = 2 ^ 12 - 1 from rfl, Nat.and_two_pow_sub_one_eq_mod]
    omega
  have h48 : (48 : CommandWord).toNat = 48 := rfl
  have hm : (0xFFF00FFF : CommandWord).toNat = 0xFFF00FFF := rfl
  rw [← BitVec.toNat_inj, BitVec.toNat_and, ← Fin.val_inj, regAt_val, imm20Of, opcodeOf, BitVec.toNat_ofNat, hm, h48]
  simp only [Fin.val_zero]
  generalize w.toNat &&& 0xFFF00FFF = y at *
  omega

/-- A row whose mask is the opcode byte alone. -/
theorem opcode_mask_iff (w p : CommandWord) (hp : p.toNat < 256) : w &&& 0xFF = p ↔ opcodeOf w = p.toNat := by
  rw [word_mask_iff 32 0xFF p (by decide) (by decide) (by decide) (by decide) (by decide) hp]
  have := w.isLt
  constructor
  · exact And.left
  · exact fun h => ⟨h, by omega⟩

end Sys2Proof
end

