-- ==== Sys2Proof/Laws/KeccakEval.lean ====
section
/-! SUPPORT. Keccak-f[1600] over lists of numbers, each lane worked out before the next step, and its
equality with `keccakF` (spec/43_kerl.md R173): the form in which the kernel can work out a hash, at about a
quarter of a second for a permutation. -/

namespace Sys2Proof.Machine.KeccakEval

open Sys2Proof Sys2Proof.Machine

/-- `k n`, with `n` worked out first. -/
def strict {α : Type} (n : Nat) (k : Nat → α) : α :=
  match n with
  | 0 => k 0
  | n + 1 => k (n + 1)

theorem strict_eq {α : Type} (n : Nat) (k : Nat → α) : strict n k = k n := by cases n <;> rfl

/-- `k l`, with every number of `l` worked out first. -/
def strictList {α : Type} : (l : List Nat) → (k : List Nat → α) → α
  | [], k => k []
  | n :: l, k => strict n fun n => strictList l fun l => k (n :: l)

theorem strictList_eq {α : Type} (l : List Nat) (k : List Nat → α) : strictList l k = k l := by
  induction l generalizing k with
  | nil => rfl
  | cons n l ih => rw [strictList, strict_eq, ih]

/-- The numbers in 25 lanes. -/
def numbers (A : Lanes) : List Nat := A.toList.map BitVec.toNat

/-- The list that holds `f x y` at place `x + 5*y`. -/
def placed (f : Nat → Nat → Nat) : List Nat := (List.range 25).map fun i => f (i % 5) (i / 5)

/-- The number at `A[x][y]`. -/
def at5 (l : List Nat) (x y : Nat) : Nat := l.getD (x % 5 + 5 * (y % 5)) 0

/-- `rol` on a 64-bit number. -/
def rol (n r : Nat) : Nat := (n <<< (r % 64)) % 18446744073709551616 ||| n >>> (64 - r % 64)

theorem at5_numbers (A : Lanes) (x y : Nat) : at5 (numbers A) x y = (laneAt A x y).toNat := by
  have h : x % 5 + 5 * (y % 5) < 25 := by omega
  simp [at5, numbers, laneAt, List.getD_eq_getElem?_getD, h]

theorem numbers_lanesOf (f : Nat → Nat → Word) :
    numbers (lanesOf f) = placed fun x y => (f x y).toNat := by
  apply List.ext_getElem
  · simp [numbers, placed]
  · intro i h1 h2; simp [numbers, placed, lanesOf]

theorem rol_toNat (w : Word) (r : Nat) : rol w.toNat r = (w.rotateLeft r).toNat := by
  rw [BitVec.toNat_rotateLeft]; rfl

/-- The five column parities. -/
def columns (l : List Nat) : List Nat :=
  (List.range 5).map fun x => at5 l x 0 ^^^ at5 l x 1 ^^^ at5 l x 2 ^^^ at5 l x 3 ^^^ at5 l x 4

/-- The words `D[x]` from the column parities. -/
def mixed (C : List Nat) : List Nat :=
  (List.range 5).map fun x => C.getD ((x + 4) % 5) 0 ^^^ rol (C.getD ((x + 1) % 5) 0) 1

/-- `keccakTheta` from the words `D[x]`. -/
def theta (l D : List Nat) : List Nat := placed fun x y => at5 l x y ^^^ D.getD (x % 5) 0

/-- `keccakRhoPi`. -/
def rhoPi (l : List Nat) : List Nat :=
  placed fun x y => rol (at5 l (x + 3 * y) x) (rotAt (x + 3 * y) x)

/-- `keccakChi`. -/
def chi (l : List Nat) : List Nat :=
  placed fun x y => at5 l x y ^^^ ((2 ^ 64 - 1 - at5 l (x + 1) y) &&& at5 l (x + 2) y)

/-- `keccakIota`. -/
def iota (l : List Nat) (rc : Nat) : List Nat :=
  placed fun x y => if x = 0 ∧ y = 0 then at5 l x y ^^^ rc else at5 l x y

/-- A round, step by step. -/
def roundOf (l : List Nat) (rc : Nat) : List Nat :=
  iota (chi (rhoPi (theta l (mixed (columns l))))) rc

/-- `k` of a round of 25 lanes, written out: the column parities `c`, the words `d`, the rotated and moved
lanes `b`, and the last two lines, each worked out before it is used. -/
def roundThen {α : Type} : List Nat → Nat → (List Nat → α) → α
  | [a0, a1, a2, a3, a4, a5, a6, a7, a8, a9, a10, a11, a12, a13, a14, a15, a16, a17, a18, a19, a20, a21, a22, a23, a24], rc, k =>
    strict (a0 ^^^ a5 ^^^ a10 ^^^ a15 ^^^ a20) fun c0 =>
    strict (a1 ^^^ a6 ^^^ a11 ^^^ a16 ^^^ a21) fun c1 =>
    strict (a2 ^^^ a7 ^^^ a12 ^^^ a17 ^^^ a22) fun c2 =>
    strict (a3 ^^^ a8 ^^^ a13 ^^^ a18 ^^^ a23) fun c3 =>
    strict (a4 ^^^ a9 ^^^ a14 ^^^ a19 ^^^ a24) fun c4 =>
    strict (c4 ^^^ rol c1 1) fun d0 =>
    strict (c0 ^^^ rol c2 1) fun d1 =>
    strict (c1 ^^^ rol c3 1) fun d2 =>
    strict (c2 ^^^ rol c4 1) fun d3 =>
    strict (c3 ^^^ rol c0 1) fun d4 =>
    strict (rol (a0 ^^^ d0) 0) fun b0 =>
    strict (rol (a6 ^^^ d1) 44) fun b1 =>
    strict (rol (a12 ^^^ d2) 43) fun b2 =>
    strict (rol (a18 ^^^ d3) 21) fun b3 =>
    strict (rol (a24 ^^^ d4) 14) fun b4 =>
    strict (rol (a3 ^^^ d3) 28) fun b5 =>
    strict (rol (a9 ^^^ d4) 20) fun b6 =>
    strict (rol (a10 ^^^ d0) 3) fun b7 =>
    strict (rol (a16 ^^^ d1) 45) fun b8 =>
    strict (rol (a22 ^^^ d2) 61) fun b9 =>
    strict (rol (a1 ^^^ d1) 1) fun b10 =>
    strict (rol (a7 ^^^ d2) 6) fun b11 =>
    strict (rol (a13 ^^^ d3) 25) fun b12 =>
    strict (rol (a19 ^^^ d4) 8) fun b13 =>
    strict (rol (a20 ^^^ d0) 18) fun b14 =>
    strict (rol (a4 ^^^ d4) 27) fun b15 =>
    strict (rol (a5 ^^^ d0) 36) fun b16 =>
    strict (rol (a11 ^^^ d1) 10) fun b17 =>
    strict (rol (a17 ^^^ d2) 15) fun b18 =>
    strict (rol (a23 ^^^ d3) 56) fun b19 =>
    strict (rol (a2 ^^^ d2) 62) fun b20 =>
    strict (rol (a8 ^^^ d3) 55) fun b21 =>
    strict (rol (a14 ^^^ d4) 39) fun b22 =>
    strict (rol (a15 ^^^ d0) 41) fun b23 =>
    strict (rol (a21 ^^^ d1) 2) fun b24 =>
    strictList [(b0 ^^^ ((18446744073709551615 - b1) &&& b2)) ^^^ rc,
      b1 ^^^ ((18446744073709551615 - b2) &&& b3),
      b2 ^^^ ((18446744073709551615 - b3) &&& b4),
      b3 ^^^ ((18446744073709551615 - b4) &&& b0),
      b4 ^^^ ((18446744073709551615 - b0) &&& b1),
      b5 ^^^ ((18446744073709551615 - b6) &&& b7),
      b6 ^^^ ((18446744073709551615 - b7) &&& b8),
      b7 ^^^ ((18446744073709551615 - b8) &&& b9),
      b8 ^^^ ((18446744073709551615 - b9) &&& b5),
      b9 ^^^ ((18446744073709551615 - b5) &&& b6),
      b10 ^^^ ((18446744073709551615 - b11) &&& b12),
      b11 ^^^ ((18446744073709551615 - b12) &&& b13),
      b12 ^^^ ((18446744073709551615 - b13) &&& b14),
      b13 ^^^ ((18446744073709551615 - b14) &&& b10),
      b14 ^^^ ((18446744073709551615 - b10) &&& b11),
      b15 ^^^ ((18446744073709551615 - b16) &&& b17),
      b16 ^^^ ((18446744073709551615 - b17) &&& b18),
      b17 ^^^ ((18446744073709551615 - b18) &&& b19),
      b18 ^^^ ((18446744073709551615 - b19) &&& b15),
      b19 ^^^ ((18446744073709551615 - b15) &&& b16),
      b20 ^^^ ((18446744073709551615 - b21) &&& b22),
      b21 ^^^ ((18446744073709551615 - b22) &&& b23),
      b22 ^^^ ((18446744073709551615 - b23) &&& b24),
      b23 ^^^ ((18446744073709551615 - b24) &&& b20),
      b24 ^^^ ((18446744073709551615 - b20) &&& b21)] k
  | _, _, k => k []

theorem roundThen_eq {α : Type} (l : List Nat) (rc : Nat) (k : List Nat → α) (h : l.length = 25) :
    roundThen l rc k = k (roundOf l rc) := by
  match l, h with
  | [a0, a1, a2, a3, a4, a5, a6, a7, a8, a9, a10, a11, a12, a13, a14, a15, a16, a17, a18, a19, a20, a21,
      a22, a23, a24], _ =>
    simp only [roundThen, strict_eq, strictList_eq]
    rfl

/-- `k` of the rounds for a list of round constants. -/
def rounds {α : Type} : (rcs : List Word) → (l : List Nat) → (k : List Nat → α) → α
  | [], l, k => k l
  | rc :: rcs, l, k => strict rc.toNat fun rc => roundThen l rc fun l => rounds rcs l k

theorem theta_numbers (A : Lanes) :
    theta (numbers A) (mixed (columns (numbers A))) = numbers (keccakTheta A) := by
  rw [keccakTheta, numbers_lanesOf, theta]
  apply List.map_congr_left
  intro i hi
  have hi5 : i % 5 % 5 < 5 := by omega
  have h4 : (i % 5 % 5 + 4) % 5 < 5 := by omega
  have h1 : (i % 5 % 5 + 1) % 5 < 5 := by omega
  simp only [at5_numbers, mixed, columns, List.getD_eq_getElem?_getD, List.getElem?_map,
    List.getElem?_range hi5, List.getElem?_range h4, List.getElem?_range h1, Option.map_some,
    Option.getD_some, ← BitVec.toNat_xor, rol_toNat, tabulate_getElem, columnParity]

theorem rhoPi_numbers (A : Lanes) : rhoPi (numbers A) = numbers (keccakRhoPi A) := by
  simp only [rhoPi, keccakRhoPi, numbers_lanesOf, at5_numbers, rol_toNat]

theorem chi_numbers (A : Lanes) : chi (numbers A) = numbers (keccakChi A) := by
  simp only [chi, keccakChi, numbers_lanesOf, at5_numbers, ← BitVec.toNat_not, ← BitVec.toNat_and,
    ← BitVec.toNat_xor]

theorem iota_numbers (A : Lanes) (rc : Word) :
    iota (numbers A) rc.toNat = numbers (keccakIota A rc) := by
  simp only [iota, keccakIota, numbers_lanesOf, at5_numbers, apply_ite BitVec.toNat,
    BitVec.toNat_xor]

theorem numbers_length (A : Lanes) : (numbers A).length = 25 := by simp [numbers]

theorem roundOf_numbers (A : Lanes) (rc : Word) :
    roundOf (numbers A) rc.toNat = numbers (keccakRound A rc) := by
  simp only [roundOf, theta_numbers, rhoPi_numbers, chi_numbers, iota_numbers, keccakRound]

theorem rounds_numbers {α : Type} (rcs : List Word) (A : Lanes) (k : List Nat → α) :
    rounds rcs (numbers A) k = k (numbers (rcs.foldl keccakRound A)) := by
  induction rcs generalizing A with
  | nil => rfl
  | cons rc rcs ih =>
    rw [rounds, strict_eq, roundThen_eq _ _ _ (numbers_length A), roundOf_numbers, ih, List.foldl_cons]

/-! ### Absorbing -/

/-- The first `n` lanes of a byte sequence, 8 bytes each, least significant first. -/
def byteLanes : (n : Nat) → List Byte → List Nat
  | n + 1, b0 :: b1 :: b2 :: b3 :: b4 :: b5 :: b6 :: b7 :: rest =>
    (b0.toNat + 256 * (b1.toNat + 256 * (b2.toNat + 256 * (b3.toNat + 256 * (b4.toNat
      + 256 * (b5.toNat + 256 * (b6.toNat + 256 * (b7.toNat + 256 * 0)))))))) % 2 ^ 64
      :: byteLanes n rest
  | _, _ => []

/-- The first `n` lanes of a state combined with lanes of a message. -/
def mixIn : (n : Nat) → (lanes l : List Nat) → List Nat
  | n + 1, w :: lanes, a :: l => (a ^^^ w) :: mixIn n lanes l
  | _, _, l => l

/-- `k` of a state that has absorbed `n` blocks of 13 lanes. -/
def absorb {α : Type} : (n : Nat) → (lanes l : List Nat) → (k : List Nat → α) → α
  | 0, _, l, k => k l
  | n + 1, lanes, l, k =>
    strictList (mixIn 13 lanes l) fun l => rounds keccakRC l fun l => absorb n (lanes.drop 13) l k

theorem byteLanes_getElem? (n : Nat) (P : List Byte) (i : Nat) (hi : i < n) (hP : 8 * n ≤ P.length) :
    (byteLanes n P)[i]? = some (laneOfBytes ((P.drop (8 * i)).take 8)).toNat := by
  induction n generalizing P i with
  | zero => omega
  | succ n ih =>
    match P, hP with
    | b0 :: b1 :: b2 :: b3 :: b4 :: b5 :: b6 :: b7 :: rest, hP =>
      rw [byteLanes]
      cases i with
      | zero => rfl
      | succ i =>
        have h8 : 8 * (i + 1) = 8 * i + 8 := by ring
        rw [List.getElem?_cons_succ, ih rest i (by omega) (by simp at hP; omega), h8]
        rfl

theorem mixIn_getElem? (n : Nat) (lanes l : List Nat) (i : Nat) :
    (mixIn n lanes l)[i]? = if i < n then
      (l[i]?).map (fun a => match lanes[i]? with | some w => a ^^^ w | none => a) else l[i]? := by
  induction n, lanes, l using mixIn.induct generalizing i with
  | case1 n w lanes a l ih =>
    rw [mixIn]
    cases i with
    | zero => simp
    | succ i => simp [ih]
  | case2 n lanes l h =>
    rw [mixIn]
    · cases n with
      | zero => simp
      | succ n =>
        cases lanes with
        | nil => simp
        | cons w lanes =>
          cases l with
          | nil => simp
          | cons a l => exact (h n w lanes a l rfl rfl rfl).elim
    · exact h

/-- Mixing in block `k` of a padded message. -/
theorem mixIn_numbers (P : List Byte) (N : Nat) (A : Lanes) (k : Nat) (hN : 8 * N ≤ P.length)
    (hk : 13 * k + 13 ≤ N) :
    mixIn 13 ((byteLanes N P).drop (13 * k)) (numbers A) = numbers (lanesOf fun x y =>
      if x + 5 * y < 13 then
        laneAt A x y ^^^ laneOfBytes ((P.drop (104 * k + 8 * (x + 5 * y))).take 8)
      else laneAt A x y) := by
  apply List.ext_getElem?
  intro i
  rw [mixIn_getElem?, numbers_lanesOf, placed, List.getElem?_map]
  by_cases hi : i < 25
  · have hA : (numbers A)[i]? = some (laneAt A (i % 5) (i / 5)).toNat := by
      have h5 : i % 5 + 5 * (i / 5 % 5) = i := by omega
      simp [numbers, laneAt, h5, hi]
    have hx : i % 5 + 5 * (i / 5) = i := by omega
    rw [hA, List.getElem?_range hi, Option.map_some, Option.map_some, hx]
    by_cases h13 : i < 13
    · have h8 : 8 * (13 * k + i) = 104 * k + 8 * i := by ring
      rw [if_pos h13, if_pos h13, List.getElem?_drop,
        byteLanes_getElem? N P _ (by omega) hN, h8, BitVec.toNat_xor]
    · rw [if_neg h13, if_neg h13]
  · rw [List.getElem?_eq_none (l := numbers A) (by rw [numbers_length]; omega),
      List.getElem?_eq_none (l := List.range 25) (by simp; omega)]
    simp

theorem absorb_numbers {α : Type} (P : List Byte) (N n k : Nat) (A : Lanes) (f : List Nat → α)
    (hN : 8 * N ≤ P.length) (hk : 13 * (k + n) ≤ N) :
    absorb n ((byteLanes N P).drop (13 * k)) (numbers A) f
      = f (numbers (((List.range' k n)).foldl (keccakBlock P) A)) := by
  induction n generalizing k A with
  | zero => rfl
  | succ n ih =>
    have h13 : 13 * k + 13 = 13 * (k + 1) := by ring
    rw [absorb, strictList_eq, mixIn_numbers P N A k hN (by omega), rounds_numbers, List.drop_drop, h13]
    exact ih (k + 1) (keccakBlock P A k) (by omega)

/-- The first 48 bytes, as one number with the most significant byte first, of six lanes. -/
def digestNumber (l : List Nat) : Nat :=
  (l.take 6).foldl (fun v n =>
    (List.range 8).foldl (fun v i => 256 * v + n / 256 ^ i % 256) v) 0

theorem digestNumber_numbers (A : Lanes) :
    digestNumber (numbers A)
      = bytesValue ((List.range 6).flatMap fun i => bytesOfLane (laneAt A (i % 5) (i / 5))) := by
  have h : ((numbers A).take 6) = (List.range 6).map fun i => (laneAt A (i % 5) (i / 5)).toNat := by
    apply List.ext_getElem
    · simp [numbers]
    · intro i h1 h2
      have h6 : i < 6 := by simpa using h2
      have hi : i % 5 % 5 + 5 * (i / 5 % 5) = i := by omega
      simp only [numbers, laneAt, List.getElem_take, List.getElem_map, Vector.getElem_toList,
        List.getElem_range, hi]
  rw [digestNumber, h, bytesValue, List.foldl_map, List.foldl_flatMap]
  simp only [bytesOfLane, List.foldl_map, BitVec.toNat_ofNat]

/-- A message with its padding (R172). -/
def padded (M : List Byte) : List Byte := M ++ keccakPad (104 - M.length % 104)

/-- `k` of the hash of a message of `n` blocks with its padding, as a number. -/
def hashThen {α : Type} (M : List Byte) (n : Nat) (k : Nat → α) : α :=
  strictList (byteLanes (13 * n) (padded M)) fun lanes =>
    absorb n lanes (List.replicate 25 0) fun l => strict (digestNumber l) k

theorem padded_length (M : List Byte) : (padded M).length = 104 * (M.length / 104 + 1) := by
  have h : 1 ≤ 104 - M.length % 104 := by omega
  have hp : (keccakPad (104 - M.length % 104)).length = 104 - M.length % 104 := by
    unfold keccakPad; split
    · simp; omega
    · simp; omega
  rw [padded, List.length_append, hp]; omega

/-- The hash of a message as a number, in the form the kernel can work out. -/
theorem hashThen_eq {α : Type} (M : List Byte) (n : Nat) (k : Nat → α) (h : M.length / 104 + 1 = n) :
    hashThen M n k = k (bytesValue (keccak384 M)) := by
  have hl := padded_length M
  have hz : List.replicate 25 0 = numbers (Vector.replicate 25 (0 : Word)) := by decide
  have ha := absorb_numbers (padded M) (13 * n) n 0 (Vector.replicate 25 0)
    (fun l => strict (digestNumber l) k) (by omega) (by omega)
  rw [Nat.mul_zero, List.drop_zero] at ha
  rw [hashThen, strictList_eq, hz, ha, strict_eq, digestNumber_numbers, ← List.range_eq_range']
  have hn : (padded M).length / 104 = n := by omega
  rw [keccak384]
  change _ = k (bytesValue ((List.range 6).flatMap fun i => bytesOfLane (laneAt
    ((List.range ((padded M).length / 104)).foldl (keccakBlock (padded M)) (Vector.replicate 25 0))
    (i % 5) (i / 5))))
  rw [hn]

end Sys2Proof.Machine.KeccakEval
end

