-- ==== Sys2Proof/Laws/Regions.lean ====
section
/-! SUPPORT. Regions of TM and BM read in part (spec/20_memory.md R66, R67), the checks of a command that
all pass, the chains and rounds as iterates, and where an access to the port lands (R80). -/

namespace Sys2Proof.Machine

open Sys2Proof

/-- A command none of whose checks fails has its effect. -/
theorem checked_run {i : Instr} {cs : List Check} {run : State → Host.Outcome State Fault Refusal}
    {s : State} (h : ∀ c ∈ cs, c.fails = false) : checked i cs run s = run s := by
  rcases checked_cases i cs run s with ⟨c, hm, hf, _⟩ | ⟨_, h'⟩
  · simp [h c hm] at hf
  · exact h'

/-- A region reads as `l` where each of its cells reads as the element of `l`. -/
theorem State.readT_eq_of (s : State) (a n : Nat) (l : List Trit) (hl : l.length = n)
    (h : ∀ i (hi : i < n), s.tmAt (a + i) = l[i]'(by omega)) : s.readT a n = l := by
  apply List.ext_getElem
  · simp [hl]
  · intro i h1 h2
    rw [State.readT_getElem]; exact h i (by omega)

/-- A part of a region just written. -/
theorem State.readT_writeT_part (s : State) (d : Nat) (v : List Trit) (o n : Nat)
    (h : o + n ≤ v.length) : (s.writeT d v).readT (d + o) n = (v.drop o).take n := by
  refine State.readT_eq_of _ _ _ _ (by simp; omega) ?_
  intro i hi
  rw [Nat.add_assoc, State.tmAt_writeT_inside _ _ _ _ (by omega)]
  simp

/-- The first cells of a region. -/
theorem State.readT_take (s : State) (a n m : Nat) (h : n ≤ m) :
    (s.readT a m).take n = s.readT a n := by
  apply List.ext_getElem
  · simp [h]
  · intro i h1 h2; simp

/-- A piece of a region. -/
theorem State.piece_readT (s : State) (a n j size : Nat) (h : size * j + size ≤ n) :
    piece size (s.readT a n) j = s.readT (a + size * j) size := by
  apply List.ext_getElem
  · simp; omega
  · intro i h1 h2; simp [piece, Nat.add_assoc]

/-- The chunks of a region of whole chunks. -/
theorem State.chunks243_readT (s : State) (a n : Nat) (h : n % 243 = 0) :
    chunks243 (s.readT a n) = (List.range (n / 243)).map fun j => s.readT (a + 243 * j) 243 := by
  unfold chunks243
  have hn : (n + 242) / 243 = n / 243 := by omega
  rw [State.readT_length, hn]
  apply List.map_congr_left
  intro j hj
  simp at hj
  exact State.piece_readT _ _ _ _ _ (by omega)

/-- Piece number `k` of results of equal length put end to end. -/
theorem flatMap_piece {α β : Type} (l : List α) (f : α → List β) (n k : Nat)
    (hf : ∀ a ∈ l, (f a).length = n) (hk : k < l.length) :
    ((l.flatMap f).drop (n * k)).take n = f l[k] := by
  induction l generalizing k with
  | nil => simp at hk
  | cons a l ih =>
    have ha := hf a (by simp)
    cases k with
    | zero => simp [List.flatMap_cons, ha]
    | succ k =>
      have hmul : n * (k + 1) = n * k + (f a).length := by rw [ha]; ring
      have hdrop : (f a).length ≤ (f a).length + n * k := by omega
      rw [List.flatMap_cons, hmul, Nat.add_comm, List.drop_append]
      simp only [List.drop_of_length_le hdrop, List.nil_append, Nat.add_sub_cancel_left,
        List.getElem_cons_succ]
      exact ih k (fun b hb => hf b (by simp [hb])) (by simpa using hk)

/-- A hash chain is the hash iterated. -/
theorem hashChain_iterate (p : Config.Params) (n : Nat) (b : List Trit) :
    hashChain p n b = (kerlHash243 p)^[n] b := by
  induction n generalizing b with
  | zero => rfl
  | succ n ih => exact ih (kerlHash243 p b)

/-- A transform is the round iterated. -/
theorem curlTransform_iterate (r : Nat) (S : Vector Trit 729) :
    curlTransform r S = (curlRound)^[r] S := by
  induction r generalizing S with
  | zero => rfl
  | succ r ih => exact ih (curlRound S)

/-- Sequences of one length whose values agree modulo `3^n` are equal. -/
theorem btValue_congr {t u : List Trit} (hl : t.length = u.length)
    (h : (3 ^ t.length : Int) ∣ btValue t - btValue u) : t = u := by
  apply btValue_injective hl
  obtain ⟨k, hk⟩ := h
  have ht := btValue_bounds t
  have hu := btValue_bounds u
  rw [← hl] at hu
  have hpos : (0 : Int) < 3 ^ t.length := by positivity
  have hk0 : k = 0 := by
    rcases lt_trichotomy k 0 with hneg | h0 | hp
    · nlinarith
    · exact h0
    · nlinarith
  rw [hk0] at hk; linarith

/-! ### Where an access lands -/

theorem accessAt_register (p : Config.Params) (r : Reg) :
    accessAt p (0x080 + 8 * r.val) 64 = some (.reg r) := by
  have hr := r.isLt
  have h : portAt p (0x080 + 8 * r.val) = some (.reg r) := by
    unfold portAt
    rw [if_neg (by omega), if_pos (by omega), if_pos (by omega)]
    congr 2
    apply Fin.ext; simp [Fin.ofNat]
  simp [accessAt, h, unitWidth]

theorem accessAt_tritWindow (p : Config.Params) (a : Nat) (h : a < p.nt) :
    accessAt p (0x100000 + a) 8 = some (.trit a) := by
  have h : portAt p (0x100000 + a) = some (.trit a) := by
    unfold portAt
    rw [if_neg (by omega), if_neg (by omega), if_pos (by omega)]
    simp
  simp [accessAt, h, unitWidth]

theorem accessAt_byteWindow (p : Config.Params) (a : Nat) (hn : p.nt ≤ Config.windowLimit)
    (h : a < p.nb) : accessAt p (0x200000 + a) 8 = some (.byte a) := by
  unfold Config.windowLimit at hn
  have h : portAt p (0x200000 + a) = some (.byte a) := by
    unfold portAt
    rw [if_neg (by omega), if_neg (by omega), if_neg (by omega), if_pos (by omega)]
    simp
  simp [accessAt, h, unitWidth]

/-- A step at a state with a next action performs it. -/
theorem step_withNext (s : State) (a : HostAction) : step (s.withNext a) = performAction a s := rfl

end Sys2Proof.Machine
end

