-- ==== Sys2Proof/Laws/Verification.lean ====
section
/-! SUPPORT. What two verifications that reach one verdict have in common, link by link
(spec/44_signing.md R208, R213, R216): the converse of the lemmas by which Kerl ignores trit 242. -/

namespace Sys2Proof.Machine

open Sys2Proof

/-- Two sequences agree at every index that is not congruent to 242 modulo 243 (spec/43_kerl.md R171). -/
def AgreeOffTop (t u : List Trit) : Prop := ∀ i, i % 243 ≠ 242 → t[i]? = u[i]?

theorem AgreeOffTop.refl (t : List Trit) : AgreeOffTop t t := fun _ _ => rfl

/-! ### One chunk -/

theorem agreeOffTop_chunk_iff (t u : List Trit) (ht : t.length = 243) (hu : u.length = 243) :
    AgreeOffTop t u ↔ clearTop t = clearTop u := by
  constructor
  · intro h
    apply List.ext_getElem?
    intro i
    simp only [clearTop, List.getElem?_set]
    split
    · simp [ht, hu]
    · by_cases hi : i < 243
      · exact h i (by omega)
      · rw [List.getElem?_eq_none (by omega), List.getElem?_eq_none (by omega)]
  · intro h i hi
    have hne : 242 ≠ i := by omega
    have := congrArg (·[i]?) h
    simpa only [clearTop, List.getElem?_set_ne hne] using this

theorem eq_of_agreeOffTop (t u : List Trit) (ht : t.length = 243) (hu : u.length = 243)
    (h1 : t[242]? = some .zero) (h2 : u[242]? = some .zero) (h : AgreeOffTop t u) : t = u := by
  apply List.ext_getElem?
  intro i
  by_cases hi : i % 243 = 242
  · by_cases h242 : i = 242
    · rw [h242, h1, h2]
    · rw [List.getElem?_eq_none (by omega), List.getElem?_eq_none (by omega)]
  · exact h i hi

theorem t2b_eq_iff (t u : List Trit) (ht : t.length = 243) (hu : u.length = 243) :
    t2b t = t2b u ↔ AgreeOffTop t u := by
  rw [agreeOffTop_chunk_iff t u ht hu]
  constructor
  · intro h
    apply btValue_injective (by simp [ht, hu])
    rw [← signed384_t2b t ht, ← signed384_t2b u hu, h]
  · intro h
    rw [← t2b_clearTop t, ← t2b_clearTop u, h]

/-- The value of a digest is that of its chunk, up to a multiple of `3^242` (trit 242 of R175). -/
theorem signed384_eq_chunk (d : List Byte) (h : d.length = 48) :
    ∃ k : Int, signed384 (bytesValue d) = btValue (clearTop (b2t d)) + 3 ^ 242 * k := by
  have hl : (b2t d).length = 243 := b2t_length d
  refine ⟨btValue ((b2t d).drop 242), ?_⟩
  rw [← btValue_b2t d h, btValue_clearTop _ hl]
  conv_lhs => rw [← List.take_append_drop 242 (b2t d), btValue_append]
  simp [hl]

/-- A chunk with trit 242 cleared has a value in the range of 242 trits. -/
theorem two_mul_btValue_clearTop_bounds (t : List Trit) (h : t.length = 243) :
    -(3 ^ 242 - 1) ≤ 2 * btValue (clearTop t) ∧ 2 * btValue (clearTop t) ≤ 3 ^ 242 - 1 := by
  have hb := btValue_bounds (t.take 242)
  have hl : (t.take 242).length = 242 := by simp [h]
  rw [hl] at hb
  rw [btValue_clearTop t h]
  omega

/-- Two digests give one chunk exactly when their values agree modulo `3^242`. -/
theorem clearTop_b2t_eq_iff (d d' : List Byte) (h : d.length = 48) (h' : d'.length = 48) :
    clearTop (b2t d) = clearTop (b2t d')
      ↔ (3 ^ 242 : Int) ∣ signed384 (bytesValue d) - signed384 (bytesValue d') := by
  obtain ⟨k, hk⟩ := signed384_eq_chunk d h
  obtain ⟨k', hk'⟩ := signed384_eq_chunk d' h'
  rw [hk, hk']
  constructor
  · intro he
    exact ⟨k - k', by rw [he]; ring⟩
  · rintro ⟨c, hc⟩
    have hb := two_mul_btValue_clearTop_bounds (b2t d) (b2t_length d)
    have hb' := two_mul_btValue_clearTop_bounds (b2t d') (b2t_length d')
    apply btValue_injective (by simp)
    have hz : c - k + k' = 0 := by
      have h3 : (0 : Int) < 3 ^ 242 := by positivity
      have he : btValue (clearTop (b2t d)) - btValue (clearTop (b2t d')) = 3 ^ 242 * (c - k + k') := by
        linarith
      rcases lt_trichotomy (c - k + k') 0 with hn | hz | hp
      · nlinarith
      · exact hz
      · nlinarith
    have : btValue (clearTop (b2t d)) - btValue (clearTop (b2t d')) = 3 ^ 242 * (c - k + k') := by
      linarith
    rw [hz] at this
    linarith

/-! ### What is absorbed -/

theorem freshMessage_single (m : List Trit) (h : m.length = 243) : freshMessage m = t2b m := by
  simp [freshMessage, kerlAbsorb, chunks243_single m h, t2b_clearTop]

/-- One message for what agrees off trit 242, and conversely (spec/43_kerl.md R171, R174). -/
theorem freshMessage_eq_iff (n : Nat) (m m' : List Trit) (h : m.length = 243 * n)
    (h' : m'.length = 243 * n) : freshMessage m = freshMessage m' ↔ AgreeOffTop m m' := by
  induction n generalizing m m' with
  | zero =>
    rw [List.length_eq_zero_iff.mp h, List.length_eq_zero_iff.mp h']
    exact ⟨fun _ => AgreeOffTop.refl _, fun _ => rfl⟩
  | succ n ih =>
    have split : ∀ m : List Trit, m.length = 243 * (n + 1) →
        freshMessage m = t2b (m.take 243) ++ freshMessage (m.drop 243) := by
      intro m hm
      have hl : (m.take 243).length = 243 := by simp; omega
      have hc := chunks243_append (m.take 243) (m.drop 243) hl
      rw [List.take_append_drop] at hc
      simp [freshMessage, kerlAbsorb, hc, t2b_clearTop]
    have hd : (m.drop 243).length = 243 * n := by simp; omega
    have hd' : (m'.drop 243).length = 243 * n := by simp; omega
    have ht : (m.take 243).length = 243 := by simp; omega
    have ht' : (m'.take 243).length = 243 := by simp; omega
    rw [split m h, split m' h']
    constructor
    · intro he
      obtain ⟨e1, e2⟩ := List.append_inj he (by simp)
      rw [t2b_eq_iff _ _ ht ht'] at e1
      rw [ih _ _ hd hd'] at e2
      intro i hi
      by_cases hlt : i < 243
      · have := e1 i hi
        simpa [List.getElem?_take, hlt] using this
      · have := e2 (i - 243) (by omega)
        simpa [List.getElem?_drop, show 243 + (i - 243) = i by omega] using this
    · intro ha
      congr 1
      · rw [t2b_eq_iff _ _ ht ht']
        intro i hi
        simp only [List.getElem?_take]
        split
        · exact ha i hi
        · rfl
      · rw [ih _ _ hd hd']
        intro i hi
        simp only [List.getElem?_drop]
        exact ha (243 + i) (by omega)

theorem kerlDigest_eq (p : Config.Params) (m : List Trit) :
    kerlDigest p m = clearTop (b2t (h384 p.hash (freshMessage m))) := rfl

/-- One digest, and no collision: what was absorbed agrees off trit 242. -/
theorem agreeOffTop_of_kerlDigest_eq (p : Config.Params) (n : Nat) (m m' : List Trit)
    (h : m.length = 243 * n) (h' : m'.length = 243 * n)
    (hc : NoCollision p (freshMessage m) (freshMessage m')) (he : kerlDigest p m = kerlDigest p m') :
    AgreeOffTop m m' :=
  (freshMessage_eq_iff n m m' h h').mp (hc he)

theorem noCollision_of_kerlDigest_ne (p : Config.Params) (m m' : List Trit)
    (h : kerlDigest p m ≠ kerlDigest p m') : NoCollision p (freshMessage m) (freshMessage m') :=
  fun he => absurd he h

theorem NoCollision.refl (p : Config.Params) (M : List Byte) : NoCollision p M M := fun _ => rfl

theorem kerlDigest_congr (p : Config.Params) (n : Nat) (m m' : List Trit) (h : m.length = 243 * n)
    (h' : m'.length = 243 * n) (ha : AgreeOffTop m m') : kerlDigest p m = kerlDigest p m' := by
  rw [kerlDigest_eq, kerlDigest_eq, (freshMessage_eq_iff n m m' h h').mpr ha]

/-! ### Chains -/

theorem hashChain_succ' (p : Config.Params) (n : Nat) (b : List Trit) :
    hashChain p (n + 1) b = kerlDigest p (hashChain p n b) :=
  (hashChain_add p n 1 b).symm

/-- Chains that end alike, without a collision on the way, began alike. -/
theorem agreeOffTop_of_hashChain (p : Config.Params) (n : Nat) (b b' : List Trit)
    (h : b.length = 243) (h' : b'.length = 243)
    (hc : ∀ k, k < n → NoCollision p (freshMessage (hashChain p k b)) (freshMessage (hashChain p k b')))
    (ha : AgreeOffTop (hashChain p n b) (hashChain p n b')) : AgreeOffTop b b' := by
  induction n with
  | zero => exact ha
  | succ n ih =>
    refine ih (fun k hk => hc k (by omega)) ?_
    rw [hashChain_succ', hashChain_succ'] at ha
    refine agreeOffTop_of_kerlDigest_eq p 1 _ _ (hashChain_length p n b h) (hashChain_length p n b' h')
      (hc n (by omega)) ?_
    exact eq_of_agreeOffTop _ _ (by simp) (by simp) (kerlDigest_top _ _) (kerlDigest_top _ _) ha

/-- Chains that begin alike end alike. -/
theorem hashChain_agreeOffTop (p : Config.Params) (n : Nat) (b b' : List Trit) (h : b.length = 243)
    (h' : b'.length = 243) (ha : AgreeOffTop b b') :
    AgreeOffTop (hashChain p n b) (hashChain p n b') := by
  induction n with
  | zero => exact ha
  | succ n ih =>
    rw [hashChain_succ', hashChain_succ', kerlDigest_congr p 1 _ _ (hashChain_length p n b h)
      (hashChain_length p n b' h') ih]
    exact AgreeOffTop.refl _

/-! ### Pieces -/

theorem piece_getElem? (size : Nat) (t : List Trit) (j k : Nat) (hk : k < size) :
    (piece size t j)[k]? = t[size * j + k]? := by
  simp [piece, List.getElem?_drop, hk]

theorem AgreeOffTop.piece {t u : List Trit} (size : Nat) (hs : size % 243 = 0) (h : AgreeOffTop t u)
    (j : Nat) : AgreeOffTop (piece size t j) (Machine.piece size u j) := by
  intro k hk
  by_cases hlt : k < size
  · rw [piece_getElem? _ _ _ _ hlt, piece_getElem? _ _ _ _ hlt]
    refine h _ ?_
    rw [Nat.add_mod, Nat.mul_mod, hs]
    simpa using hk
  · rw [List.getElem?_eq_none (by simp; omega), List.getElem?_eq_none (by simp; omega)]

/-- Sequences of `n` pieces agree off trit 242 when their pieces do. -/
theorem agreeOffTop_of_pieces (size n : Nat) (hs : 0 < size) (hm : size % 243 = 0) (t u : List Trit)
    (ht : t.length = size * n) (hu : u.length = size * n)
    (h : ∀ j, j < n → AgreeOffTop (Machine.piece size t j) (Machine.piece size u j)) :
    AgreeOffTop t u := by
  intro i hi
  by_cases hlt : i < size * n
  · have hj : i / size < n := Nat.div_lt_of_lt_mul hlt
    have hk : i % size < size := Nat.mod_lt _ hs
    have := h (i / size) hj (i % size) (by rw [Nat.mod_mod_of_dvd _ (Nat.dvd_of_mod_eq_zero hm)]; exact hi)
    rwa [piece_getElem? _ _ _ _ hk, piece_getElem? _ _ _ _ hk, Nat.div_add_mod] at this
  · rw [List.getElem?_eq_none (by omega), List.getElem?_eq_none (by omega)]

theorem piece_length_of_whole (size n : Nat) (t : List Trit) (ht : t.length = size * n) (j : Nat)
    (hj : j < n) : (piece size t j).length = size := by
  rw [piece_length, ht]
  have : size * (j + 1) ≤ size * n := Nat.mul_le_mul_left _ hj
  rw [Nat.mul_add] at this
  omega

theorem piece_chainBlocks (p : Config.Params) (chain : Nat → Nat) (t : List Trit) (ht : t.length = 6561)
    (i : Nat) (hi : i < 27) :
    piece 243 (chainBlocks p chain t) i = hashChain p (chain i) (piece 243 t i) :=
  piece_flatMap_range 27 243 _
    (fun k hk => hashChain_length p _ _ (piece_length_of_whole 243 27 t ht k hk)) i hi

/-- Where the element is 13 the signature has the key's sub-block itself (R210, R215; log entry 22). -/
theorem piece_sigFrag_of_thirteen (p : Config.Params) (nf : List Int) (kf : List Trit)
    (hk : kf.length = 6561) (i : Nat) (hi : i < 27) (hn : nf.getD i 0 = 13) :
    piece 243 (sigFrag p nf kf) i = piece 243 kf i := by
  rw [sigFrag, piece_chainBlocks p _ kf hk i hi, hn]
  rfl

theorem hashChain_top (p : Config.Params) (n : Nat) (b : List Trit) (h : b[242]? = some .zero) :
    (hashChain p n b)[242]? = some .zero := by
  cases n with
  | zero => exact h
  | succ n => rw [hashChain_succ']; exact kerlDigest_top _ _

/-- A key sub-block with trit 242 equal to 0, as `KEYGEN` makes them, gives a signature sub-block with
trit 242 equal to 0, whatever the element (R300). -/
theorem sigFrag_top (p : Config.Params) (nf : List Int) (kf : List Trit) (hk : kf.length = 6561) (i : Nat)
    (hi : i < 27) (h : (piece 243 kf i)[242]? = some .zero) :
    (piece 243 (sigFrag p nf kf) i)[242]? = some .zero := by
  rw [sigFrag, piece_chainBlocks p _ kf hk i hi]
  exact hashChain_top _ _ _ h

/-- Fragments whose chains end alike, without a collision on the way, agree off trit 242. -/
theorem agreeOffTop_of_chainBlocks (p : Config.Params) (chain : Nat → Nat) (t u : List Trit)
    (ht : t.length = 6561) (hu : u.length = 6561)
    (hc : ∀ i n, i < 27 → n < chain i →
      NoCollision p (freshMessage (hashChain p n (piece 243 t i)))
        (freshMessage (hashChain p n (piece 243 u i))))
    (ha : AgreeOffTop (chainBlocks p chain t) (chainBlocks p chain u)) : AgreeOffTop t u := by
  refine agreeOffTop_of_pieces 243 27 (by decide) rfl t u ht hu fun i hi => ?_
  refine agreeOffTop_of_hashChain p (chain i) _ _ (piece_length_of_whole 243 27 t ht i hi)
    (piece_length_of_whole 243 27 u hu i hi) (fun n hn => hc i n hi hn) ?_
  rw [← piece_chainBlocks p chain t ht i hi, ← piece_chainBlocks p chain u hu i hi]
  exact ha.piece 243 rfl i

theorem chainBlocks_agreeOffTop (p : Config.Params) (chain : Nat → Nat) (t u : List Trit)
    (ht : t.length = 6561) (hu : u.length = 6561) (ha : AgreeOffTop t u) :
    AgreeOffTop (chainBlocks p chain t) (chainBlocks p chain u) := by
  refine agreeOffTop_of_pieces 243 27 (by decide) rfl _ _ (chainBlocks_length p chain t ht)
    (chainBlocks_length p chain u hu) fun i hi => ?_
  rw [piece_chainBlocks p chain t ht i hi, piece_chainBlocks p chain u hu i hi]
  exact hashChain_agreeOffTop p _ _ _ (piece_length_of_whole 243 27 t ht i hi)
    (piece_length_of_whole 243 27 u hu i hi) (ha.piece 243 rfl i)

/-! ### The digests of a signature -/

/-- Piece `j` of the digests is the digest of the chains of fragment `j`, of the lengths that
`verifierChain` names. -/
theorem piece_signatureDigests (p : Config.Params) (frags h : List Trit) (j : Nat)
    (hj : j < frags.length / 6561) :
    piece 243 (signatureDigests p frags h) j
      = kerlDigest p (chainBlocks p (verifierChain h j) (piece 6561 frags j)) :=
  piece_flatMap_range _ 243 _ (fun _ _ => sigDigest_length _ _ _) j hj

theorem validate_eq_true_iff (p : Config.Params) (addr frags h : List Trit) :
    validate p addr frags h = true ↔ kerlDigest p (signatureDigests p frags h) = addr := by
  simp [validate]

end Sys2Proof.Machine
end

