-- ==== Sys2Proof/Laws/KerlEval.lean ====
section
/-! SUPPORT. Kerl over numbers instead of trits: the 48 bytes that stand for a squeezed chunk, as one
number, so that the kernel can work out hash chains and digests (spec/43_kerl.md R174 to R177). -/

namespace Sys2Proof.Machine.KerlEval

open Sys2Proof Sys2Proof.Machine

/-- The 48-byte number that a chunk squeezed from the digest number `u` has when it is absorbed: the
balanced remainder of the digest's value modulo `3^242`, in two's complement. -/
def chunkNumber (u : Nat) : Nat := ((signed384 u).bmod (3 ^ 242) % 256 ^ 48).toNat

/-- The value of a squeezed chunk (R175). -/
theorem btValue_chunk (d : List Byte) (h : d.length = 48) :
    btValue (clearTop (b2t d)) = (signed384 (bytesValue d)).bmod (3 ^ 242) := by
  obtain ⟨k, hk⟩ := signed384_eq_chunk d h
  have hb := two_mul_btValue_clearTop_bounds (b2t d) (b2t_length d)
  have h3 : (3 ^ 242 : Nat) % 2 = 1 := by norm_num
  symm
  rw [hk, Int.bmod_eq_iff (by norm_num)]
  refine ⟨by omega, by omega, ?_⟩
  push_cast
  exact ⟨-k, by ring⟩

theorem freshMessage_chunk (d : List Byte) (h : d.length = 48) :
    freshMessage (clearTop (b2t d)) = bytes48 (chunkNumber (bytesValue d)) := by
  have hl : (clearTop (b2t d)).length = 243 := by simp
  rw [freshMessage_single _ hl, t2b, clearTop_clearTop, btValue_chunk d h, chunkNumber]

/-- `k` of the number of the chunk squeezed after `M`, a message of `n` blocks with its padding. -/
def squeezeThen {α : Type} (M : List Byte) (n : Nat) (k : Nat → α) : α :=
  KeccakEval.hashThen M n fun u => KeccakEval.strict (chunkNumber u) k

/-- `k` of the number of a block, given as a number, after `n` hashes of a chain. -/
def chainThen {α : Type} : (n : Nat) → (u : Nat) → (k : Nat → α) → α
  | 0, u, k => k u
  | n + 1, u, k => squeezeThen (bytes48 u) 1 fun u => chainThen n u k

/-- The message that absorbs a digest is the number that `squeezeThen` works out. -/
theorem squeezeThen_eq {α : Type} (p : Config.Params) (hp : p.hash = .keccak384) (m : List Trit)
    (M : List Byte) (n : Nat) (hM : freshMessage m = M) (hn : M.length / 104 + 1 = n) :
    ∃ u, freshMessage (kerlDigest p m) = bytes48 u
      ∧ ∀ k : Nat → α, squeezeThen M n k = k u := by
  refine ⟨chunkNumber (bytesValue (keccak384 M)), ?_, fun k => ?_⟩
  · rw [kerlDigest_eq, hp, hM, h384, freshMessage_chunk _ (keccak384_length M)]
  · rw [squeezeThen, KeccakEval.hashThen_eq M n _ hn, KeccakEval.strict_eq]

/-- The message that absorbs the end of a chain is the number that `chainThen` works out. -/
theorem chainThen_eq {α : Type} (p : Config.Params) (hp : p.hash = .keccak384) (n : Nat) (b : List Trit)
    (u : Nat) (hu : freshMessage b = bytes48 u) :
    ∃ v, freshMessage (hashChain p n b) = bytes48 v ∧ ∀ k : Nat → α, chainThen n u k = k v := by
  induction n generalizing b u with
  | zero => exact ⟨u, hu, fun _ => rfl⟩
  | succ n ih =>
    obtain ⟨w, hw, hk⟩ := squeezeThen_eq (α := α) p hp b (bytes48 u) 1 hu (by rw [bytes48_length])
    obtain ⟨v, hv, hkv⟩ := ih (kerlHash243 p b) w hw
    exact ⟨v, hv, fun k => by rw [chainThen, hk, hkv]⟩

/-- What is absorbed of `n` blocks put end to end. -/
theorem freshMessage_blocks (n : Nat) (f : Nat → List Trit) (h : ∀ i < n, (f i).length = 243) :
    freshMessage ((List.range n).flatMap f) = (List.range n).flatMap fun i => freshMessage (f i) := by
  induction n with
  | zero => simp [freshMessage, kerlAbsorb, chunks243_nil]
  | succ n ih =>
    have hl := flatMap_range_length n 243 f fun i hi => h i (by omega)
    have ih := ih fun i hi => h i (by omega)
    simp only [List.range_succ, List.flatMap_append, List.flatMap_singleton]
    rw [freshMessage, kerlAbsorb_append _ _ _ n hl, ← ih]
    simp [freshMessage, kerlAbsorb]

end Sys2Proof.Machine.KerlEval
end

