-- ==== Sys2Proof/Laws/PerInstr.lean ====
section
/-! SUPPORT. The per-instruction family `RoundTrip`: the decoder reads back what the encoder wrote
(spec/30_encoding.md R97). -/

namespace Sys2Proof.Laws

open Sys2Proof

/-- Decoding the word of a well-formed command gives the command back. -/
def RoundTrip.Statement (i : Instr) : Prop := i.wellFormed = true → decode (encode i) = .command i

theorem RoundTrip.li (ra : Reg) (imm20 : BitVec 20) : RoundTrip.Statement (.li ra imm20) := by
  intro _
  simp only [decode, encode, opcodeOf_wordI _ ra imm20 (by decide : 0x01 < 256),
    regAt_wordI _ ra imm20 (by decide : 0x01 < 256), imm20Of_wordI _ ra imm20 (by decide : 0x01 < 256)]

theorem RoundTrip.cinit (imm20 : BitVec 20) : RoundTrip.Statement (.cinit imm20) := by
  intro h
  have h' : imm20.toNat ≤ 255 := by simpa [Instr.wellFormed] using h
  simp only [decode, encode, opcodeOf_wordI _ 0 imm20 (by decide : 0x30 < 256), decodeCinit,
    regAt_wordI _ 0 imm20 (by decide : 0x30 < 256), imm20Of_wordI _ 0 imm20 (by decide : 0x30 < 256)]
  simp [h']

theorem RoundTrip.try2t (ra rb rc : Reg) : RoundTrip.Statement (.try2t ra rb rc) := by
  intro _
  have ho := opcodeOf_wordR 0x10 ra rb rc 0 0 0 (by decide)
  have hz := (wordR_zero_from 0x10 ra rb rc 0 0 (by decide)).2.1
  obtain ⟨ha, hb, hc, _⟩ := regAt_wordR 0x10 ra rb rc 0 0 0 (by decide)
  simp only [decode, encode, ifZeroFrom, ho, hz, ha, hb, hc, if_true]

theorem RoundTrip.int2t (ra rb rc : Reg) : RoundTrip.Statement (.int2t ra rb rc) := by
  intro _
  have ho := opcodeOf_wordR 0x11 ra rb rc 0 0 0 (by decide)
  have hz := (wordR_zero_from 0x11 ra rb rc 0 0 (by decide)).2.1
  obtain ⟨ha, hb, hc, _⟩ := regAt_wordR 0x11 ra rb rc 0 0 0 (by decide)
  simp only [decode, encode, ifZeroFrom, ho, hz, ha, hb, hc, if_true]

theorem RoundTrip.t2try (ra rb rc : Reg) : RoundTrip.Statement (.t2try ra rb rc) := by
  intro _
  have ho := opcodeOf_wordR 0x12 ra rb rc 0 0 0 (by decide)
  have hz := (wordR_zero_from 0x12 ra rb rc 0 0 (by decide)).2.1
  obtain ⟨ha, hb, hc, _⟩ := regAt_wordR 0x12 ra rb rc 0 0 0 (by decide)
  simp only [decode, encode, ifZeroFrom, ho, hz, ha, hb, hc, if_true]

theorem RoundTrip.t2int (ra rb rc : Reg) : RoundTrip.Statement (.t2int ra rb rc) := by
  intro _
  have ho := opcodeOf_wordR 0x13 ra rb rc 0 0 0 (by decide)
  have hz := (wordR_zero_from 0x13 ra rb rc 0 0 (by decide)).2.1
  obtain ⟨ha, hb, hc, _⟩ := regAt_wordR 0x13 ra rb rc 0 0 0 (by decide)
  simp only [decode, encode, ifZeroFrom, ho, hz, ha, hb, hc, if_true]

theorem RoundTrip.str2try (ra rb rc : Reg) : RoundTrip.Statement (.str2try ra rb rc) := by
  intro _
  have ho := opcodeOf_wordR 0x14 ra rb rc 0 0 0 (by decide)
  have hz := (wordR_zero_from 0x14 ra rb rc 0 0 (by decide)).2.1
  obtain ⟨ha, hb, hc, _⟩ := regAt_wordR 0x14 ra rb rc 0 0 0 (by decide)
  simp only [decode, encode, ifZeroFrom, ho, hz, ha, hb, hc, if_true]

theorem RoundTrip.try2str (ra rb rc : Reg) : RoundTrip.Statement (.try2str ra rb rc) := by
  intro _
  have ho := opcodeOf_wordR 0x15 ra rb rc 0 0 0 (by decide)
  have hz := (wordR_zero_from 0x15 ra rb rc 0 0 (by decide)).2.1
  obtain ⟨ha, hb, hc, _⟩ := regAt_wordR 0x15 ra rb rc 0 0 0 (by decide)
  simp only [decode, encode, ifZeroFrom, ho, hz, ha, hb, hc, if_true]

theorem RoundTrip.t2b (ra rb rc : Reg) : RoundTrip.Statement (.t2b ra rb rc) := by
  intro _
  have ho := opcodeOf_wordR 0x16 ra rb rc 0 0 0 (by decide)
  have hz := (wordR_zero_from 0x16 ra rb rc 0 0 (by decide)).2.1
  obtain ⟨ha, hb, hc, _⟩ := regAt_wordR 0x16 ra rb rc 0 0 0 (by decide)
  simp only [decode, encode, ifZeroFrom, ho, hz, ha, hb, hc, if_true]

theorem RoundTrip.b2t (ra rb rc : Reg) : RoundTrip.Statement (.b2t ra rb rc) := by
  intro _
  have ho := opcodeOf_wordR 0x17 ra rb rc 0 0 0 (by decide)
  have hz := (wordR_zero_from 0x17 ra rb rc 0 0 (by decide)).2.1
  obtain ⟨ha, hb, hc, _⟩ := regAt_wordR 0x17 ra rb rc 0 0 0 (by decide)
  simp only [decode, encode, ifZeroFrom, ho, hz, ha, hb, hc, if_true]

theorem RoundTrip.tadd (ra rb rc rd re : Reg) : RoundTrip.Statement (.tadd ra rb rc rd re) := by
  intro _
  have ho := opcodeOf_wordR 0x20 ra rb rc rd re 0 (by decide)
  have hz := (wordR_zero_from 0x20 ra rb rc rd re (by decide)).1
  obtain ⟨ha, hb, hc, hd, he, _⟩ := regAt_wordR 0x20 ra rb rc rd re 0 (by decide)
  simp only [decode, encode, ifZeroFrom, ho, hz, ha, hb, hc, hd, he, if_true]

theorem RoundTrip.creset : RoundTrip.Statement .creset := by
  intro _
  have ho := opcodeOf_wordR 0x31 0 0 0 0 0 0 (by decide)
  have hz := (wordR_zero_from 0x31 0 0 0 0 0 (by decide)).2.2.2
  simp only [decode, encode, ifZeroFrom, ho, hz, if_true]

theorem RoundTrip.cxform : RoundTrip.Statement .cxform := by
  intro _
  have ho := opcodeOf_wordR 0x32 0 0 0 0 0 0 (by decide)
  have hz := (wordR_zero_from 0x32 0 0 0 0 0 (by decide)).2.2.2
  simp only [decode, encode, ifZeroFrom, ho, hz, if_true]

theorem RoundTrip.cabsorb (ra rb rc : Reg) : RoundTrip.Statement (.cabsorb ra rb rc) := by
  intro _
  have ho := opcodeOf_wordR 0x33 ra rb rc 0 0 0 (by decide)
  have hz := (wordR_zero_from 0x33 ra rb rc 0 0 (by decide)).2.1
  obtain ⟨ha, hb, hc, _⟩ := regAt_wordR 0x33 ra rb rc 0 0 0 (by decide)
  simp only [decode, encode, ifZeroFrom, ho, hz, ha, hb, hc, if_true]

theorem RoundTrip.csqueeze (ra rb rc : Reg) : RoundTrip.Statement (.csqueeze ra rb rc) := by
  intro _
  have ho := opcodeOf_wordR 0x34 ra rb rc 0 0 0 (by decide)
  have hz := (wordR_zero_from 0x34 ra rb rc 0 0 (by decide)).2.1
  obtain ⟨ha, hb, hc, _⟩ := regAt_wordR 0x34 ra rb rc 0 0 0 (by decide)
  simp only [decode, encode, ifZeroFrom, ho, hz, ha, hb, hc, if_true]

theorem RoundTrip.kreset : RoundTrip.Statement .kreset := by
  intro _
  have ho := opcodeOf_wordR 0x40 0 0 0 0 0 0 (by decide)
  have hz := (wordR_zero_from 0x40 0 0 0 0 0 (by decide)).2.2.2
  simp only [decode, encode, ifZeroFrom, ho, hz, if_true]

theorem RoundTrip.kabsorb (ra rb rc : Reg) : RoundTrip.Statement (.kabsorb ra rb rc) := by
  intro _
  have ho := opcodeOf_wordR 0x41 ra rb rc 0 0 0 (by decide)
  have hz := (wordR_zero_from 0x41 ra rb rc 0 0 (by decide)).2.1
  obtain ⟨ha, hb, hc, _⟩ := regAt_wordR 0x41 ra rb rc 0 0 0 (by decide)
  simp only [decode, encode, ifZeroFrom, ho, hz, ha, hb, hc, if_true]

theorem RoundTrip.ksqueeze (ra rb rc : Reg) : RoundTrip.Statement (.ksqueeze ra rb rc) := by
  intro _
  have ho := opcodeOf_wordR 0x42 ra rb rc 0 0 0 (by decide)
  have hz := (wordR_zero_from 0x42 ra rb rc 0 0 (by decide)).2.1
  obtain ⟨ha, hb, hc, _⟩ := regAt_wordR 0x42 ra rb rc 0 0 0 (by decide)
  simp only [decode, encode, ifZeroFrom, ho, hz, ha, hb, hc, if_true]

theorem RoundTrip.keygen (ra rb rc rd re : Reg) : RoundTrip.Statement (.keygen ra rb rc rd re) := by
  intro _
  have ho := opcodeOf_wordR 0x50 ra rb rc rd re 0 (by decide)
  have hz := (wordR_zero_from 0x50 ra rb rc rd re (by decide)).1
  obtain ⟨ha, hb, hc, hd, he, _⟩ := regAt_wordR 0x50 ra rb rc rd re 0 (by decide)
  simp only [decode, encode, ifZeroFrom, ho, hz, ha, hb, hc, hd, he, if_true]

theorem RoundTrip.digests (ra rb rc : Reg) : RoundTrip.Statement (.digests ra rb rc) := by
  intro _
  have ho := opcodeOf_wordR 0x51 ra rb rc 0 0 0 (by decide)
  have hz := (wordR_zero_from 0x51 ra rb rc 0 0 (by decide)).2.1
  obtain ⟨ha, hb, hc, _⟩ := regAt_wordR 0x51 ra rb rc 0 0 0 (by decide)
  simp only [decode, encode, ifZeroFrom, ho, hz, ha, hb, hc, if_true]

theorem RoundTrip.address (ra rb rc : Reg) : RoundTrip.Statement (.address ra rb rc) := by
  intro _
  have ho := opcodeOf_wordR 0x52 ra rb rc 0 0 0 (by decide)
  have hz := (wordR_zero_from 0x52 ra rb rc 0 0 (by decide)).2.1
  obtain ⟨ha, hb, hc, _⟩ := regAt_wordR 0x52 ra rb rc 0 0 0 (by decide)
  simp only [decode, encode, ifZeroFrom, ho, hz, ha, hb, hc, if_true]

theorem RoundTrip.sigdigest (ra rb rc : Reg) : RoundTrip.Statement (.sigdigest ra rb rc) := by
  intro _
  have ho := opcodeOf_wordR 0x53 ra rb rc 0 0 0 (by decide)
  have hz := (wordR_zero_from 0x53 ra rb rc 0 0 (by decide)).2.1
  obtain ⟨ha, hb, hc, _⟩ := regAt_wordR 0x53 ra rb rc 0 0 0 (by decide)
  simp only [decode, encode, ifZeroFrom, ho, hz, ha, hb, hc, if_true]

theorem RoundTrip.sigfrag (ra rb rc : Reg) : RoundTrip.Statement (.sigfrag ra rb rc) := by
  intro _
  have ho := opcodeOf_wordR 0x54 ra rb rc 0 0 0 (by decide)
  have hz := (wordR_zero_from 0x54 ra rb rc 0 0 (by decide)).2.1
  obtain ⟨ha, hb, hc, _⟩ := regAt_wordR 0x54 ra rb rc 0 0 0 (by decide)
  simp only [decode, encode, ifZeroFrom, ho, hz, ha, hb, hc, if_true]

theorem RoundTrip.normalize (ra rb : Reg) : RoundTrip.Statement (.normalize ra rb) := by
  intro _
  have ho := opcodeOf_wordR 0x55 ra rb 0 0 0 0 (by decide)
  have hz := (wordR_zero_from 0x55 ra rb 0 0 0 (by decide)).2.2.1
  obtain ⟨ha, hb, _⟩ := regAt_wordR 0x55 ra rb 0 0 0 0 (by decide)
  simp only [decode, encode, ifZeroFrom, ho, hz, ha, hb, if_true]

theorem RoundTrip.validate (ra rb rc rd re rf : Reg) : RoundTrip.Statement (.validate ra rb rc rd re rf) := by
  intro _
  have ho := opcodeOf_wordR 0x56 ra rb rc rd re rf (by decide)
  obtain ⟨ha, hb, hc, hd, he, hf⟩ := regAt_wordR 0x56 ra rb rc rd re rf (by decide)
  simp only [decode, encode, ho, ha, hb, hc, hd, he, hf]

end Sys2Proof.Laws
end

