-- ==== Sys2Proof/Laws/Port.lean ====
section
/-! SUPPORT. What a host action can do, said once (`performAction_effect`): spec/20_memory.md R80 to R84,
spec/10_state.md R33 to R42, spec/70_reset_and_hazards.md R290. -/

namespace Sys2Proof.Machine

open Sys2Proof

/-- A cell that the port names lies in its memory. -/
theorem accessAt_trit {p : Config.Params} {o w a : Nat} (h : accessAt p o w = some (.trit a)) :
    a < p.nt ∧ o = 0x100000 + a ∧ w = 8 := by
  unfold accessAt portAt at h
  split at h
  · rename_i port hp
    split at h
    · rename_i hw
      injection h with h
      subst h
      split at hp
      · cases hc : csrAt o <;> simp [hc] at hp
      · split at hp
        · split at hp <;> simp at hp
        · split at hp
          · simp only [Option.some.injEq, Port.trit.injEq] at hp
            exact ⟨by omega, by omega, hw.symm⟩
          · split at hp <;> simp at hp
    · cases h
  · cases h

/-- A byte that the port names lies in its memory. -/
theorem accessAt_byte {p : Config.Params} {o w a : Nat} (h : accessAt p o w = some (.byte a)) :
    a < p.nb ∧ o = 0x200000 + a ∧ w = 8 := by
  unfold accessAt portAt at h
  split at h
  · rename_i port hp
    split at h
    · rename_i hw
      injection h with h
      subst h
      split at hp
      · cases hc : csrAt o <;> simp [hc] at hp
      · split at hp
        · split at hp <;> simp at hp
        · split at hp
          · simp at hp
          · split at hp
            · simp only [Option.some.injEq, Port.byte.injEq] at hp
              exact ⟨by omega, by omega, hw.symm⟩
            · simp at hp
    · cases h
  · cases h

/-- What the host action `a` can make of `s`. -/
inductive PortEffect (a : HostAction) (s : State) : State → Prop
  /-- a read that is answered -/
  | answered (v : Word) (ha : ∃ o w, a = .read o w) : PortEffect a s (s.reply v)
  /-- a read that is refused -/
  | refusedRead (ha : ∃ o w, a = .read o w) : PortEffect a s (s.refuseAccess.reply 0)
  /-- a write that is refused -/
  | refusedWrite (ha : ∃ o w v, a = .write o w v) : PortEffect a s s.refuseAccess
  /-- a command word while FAULTED -/
  | dropped (w : CommandWord) (ha : ∃ o n v, a = .write o n v) (he : s.es = .faulted) :
      PortEffect a s s.dropCommand
  /-- a command -/
  | command (w : CommandWord) (i : Instr) (t : State) (ha : ∃ o n v, a = .write o n v)
      (he : s.es = .ready) (hd : decode w = .command i) (hx : exec i s = .next t)
      (ht : Effect i s t) : PortEffect a s t
  /-- an illegal word -/
  | illegal (w : CommandWord) (why : IllegalWord) (ha : ∃ o n v, a = .write o n v)
      (he : s.es = .ready) (hd : decode w = .illegal why) :
      PortEffect a s (s.enterFault w .illegal w.toNat)
  /-- a write to `ACK` -/
  | acknowledged (v : Word) (ha : ∃ o n u, a = .write o n u) : PortEffect a s (s.acknowledge v)
  /-- a write to a register -/
  | register (r : Reg) (v : Word) (ha : ∃ o n u, a = .write o n u) : PortEffect a s (s.setReg r v)
  /-- a write to a cell of TM -/
  | trit (d : Nat) (t : Trit) (hd : d < s.params.nt) (ha : ∃ o n u, a = .write o n u) :
      PortEffect a s (s.writeT d [t])
  /-- a write to a byte of BM -/
  | byte (d : Nat) (b : Byte) (hd : d < s.params.nb) (ha : ∃ o n u, a = .write o n u) :
      PortEffect a s (s.writeB d [b])
  /-- `RST` -/
  | reset (ha : a = .assertReset) : PortEffect a s s.afterReset

theorem issueCommand_effect (o n : Nat) (v : Word) (w : CommandWord) (s : State) :
    ∃ t, issueCommand w s = .next t ∧ PortEffect (.write o n v) s t := by
  unfold issueCommand
  cases he : s.es with
  | faulted => exact ⟨_, rfl, .dropped w ⟨_, _, _, rfl⟩ he⟩
  | ready =>
    cases hd : decode w with
    | command i =>
      obtain ⟨t, hx, ht⟩ := exec_effect i s
      exact ⟨t, hx, .command w i t ⟨_, _, _, rfl⟩ he hd hx ht⟩
    | illegal why => exact ⟨_, rfl, .illegal w why ⟨_, _, _, rfl⟩ he hd⟩

/-- What a host action can do, said once. -/
theorem performAction_effect (a : HostAction) (s : State) :
    ∃ t, performAction a s = .next t ∧ PortEffect a s t := by
  cases a with
  | read o w =>
    simp only [performAction, hostRead]
    split
    · exact ⟨_, rfl, .answered _ ⟨_, _, rfl⟩⟩
    · exact ⟨_, rfl, .refusedRead ⟨_, _, rfl⟩⟩
  | assertReset => exact ⟨_, rfl, .reset rfl⟩
  | write o w v =>
    simp only [performAction, hostWrite]
    split
    · rename_i c _
      unfold hostWriteCsr
      split
      · exact issueCommand_effect o w v _ s
      · exact ⟨_, rfl, .acknowledged v ⟨_, _, _, rfl⟩⟩
      · exact ⟨_, rfl, .refusedWrite ⟨_, _, _, rfl⟩⟩
    · exact ⟨_, rfl, .register _ _ ⟨_, _, _, rfl⟩⟩
    · rename_i a h
      unfold hostWriteT
      split
      · exact ⟨_, rfl, .trit _ _ (accessAt_trit h).1 ⟨_, _, _, rfl⟩⟩
      · exact ⟨_, rfl, .refusedWrite ⟨_, _, _, rfl⟩⟩
    · rename_i a h
      exact ⟨_, rfl, .byte _ _ (accessAt_byte h).1 ⟨_, _, _, rfl⟩⟩
    · exact ⟨_, rfl, .refusedWrite ⟨_, _, _, rfl⟩⟩

/-! ### The invariant under the port's own effects -/

theorem State.Inv.reply {s : State} (hi : s.Inv) (v : Word) : (s.reply v).Inv := { hi with }

theorem State.Inv.refuseAccess {s : State} (hi : s.Inv) : s.refuseAccess.Inv := { hi with }

theorem State.Inv.dropCommand {s : State} (hi : s.Inv) : s.dropCommand.Inv := { hi with }

theorem State.Inv.withPending {s : State} (hi : s.Inv) (p : List HostAction) :
    ({ s with pending := p } : State).Inv := { hi with }

theorem State.Inv.acknowledge {s : State} (hi : s.Inv) (v : Word) : (s.acknowledge v).Inv :=
  { hi with
    faultedHasCause := fun h => hi.faultedHasCause (by
      simp only [State.acknowledge] at h
      split at h
      · cases h
      · exact h) }

theorem State.Inv.afterReset {s : State} (hi : s.Inv) : s.afterReset.Inv :=
  { tmWf := rfl, tmWithin := rfl, bmWf := rfl, bmWithin := rfl
    ntLegal := hi.ntLegal, nbLegal := hi.nbLegal
    roundsLegal := show (Config.curlDefaultRounds) ≠ 0 by decide
    messageWhole := rfl
    faultedHasCause := fun h => by cases h
    noCauseNoInfo := fun _ => ⟨rfl, rfl⟩ }

end Sys2Proof.Machine
end

