-- ==== Sys2Proof/Machine/Assembly.lean ====
section
/-! DEFINITION. Assembly text (spec/30_encoding.md R100) and the pseudo-instructions and host lines of
program listings (R101), as commands and host actions. -/

namespace Sys2Proof.Machine

open Sys2Proof

/-- The name of a register in assembly text: `x0` to `x15`. -/
def registerText (r : Reg) : String := "x" ++ toString r.val

/-- A mnemonic followed by register operands in field order. -/
def withRegisters (mnemonic : String) (operands : List Reg) : String :=
  mnemonic ++ " " ++ ", ".intercalate (operands.map registerText)

/-- The line of assembly text that stands for a command (R100). -/
def assemblyText (i : Instr) : String :=
  match i with
  | .li ra imm20 => withRegisters "LI" [ra] ++ ", " ++ toString imm20.toInt
  | .cinit imm20 => "CINIT " ++ toString imm20.toNat
  | .creset => "CRESET"
  | .cxform => "CXFORM"
  | .kreset => "KRESET"
  | .normalize ra rb => withRegisters "NORMALIZE" [ra, rb]
  | .try2t ra rb rc => withRegisters "TRY2T" [ra, rb, rc]
  | .int2t ra rb rc => withRegisters "INT2T" [ra, rb, rc]
  | .t2try ra rb rc => withRegisters "T2TRY" [ra, rb, rc]
  | .t2int ra rb rc => withRegisters "T2INT" [ra, rb, rc]
  | .str2try ra rb rc => withRegisters "STR2TRY" [ra, rb, rc]
  | .try2str ra rb rc => withRegisters "TRY2STR" [ra, rb, rc]
  | .t2b ra rb rc => withRegisters "T2B" [ra, rb, rc]
  | .b2t ra rb rc => withRegisters "B2T" [ra, rb, rc]
  | .cabsorb ra rb rc => withRegisters "CABSORB" [ra, rb, rc]
  | .csqueeze ra rb rc => withRegisters "CSQUEEZE" [ra, rb, rc]
  | .kabsorb ra rb rc => withRegisters "KABSORB" [ra, rb, rc]
  | .ksqueeze ra rb rc => withRegisters "KSQUEEZE" [ra, rb, rc]
  | .digests ra rb rc => withRegisters "DIGESTS" [ra, rb, rc]
  | .address ra rb rc => withRegisters "ADDRESS" [ra, rb, rc]
  | .sigdigest ra rb rc => withRegisters "SIGDIGEST" [ra, rb, rc]
  | .sigfrag ra rb rc => withRegisters "SIGFRAG" [ra, rb, rc]
  | .tadd ra rb rc rd re => withRegisters "TADD" [ra, rb, rc, rd, re]
  | .keygen ra rb rc rd re => withRegisters "KEYGEN" [ra, rb, rc, rd, re]
  | .validate ra rb rc rd re rf => withRegisters "VALIDATE" [ra, rb, rc, rd, re, rf]

/-- `CINIT` with no operand (R101). -/
def pseudoCinit : Instr := .cinit 0

/-- `KINIT` (R101). -/
def pseudoKinit : Instr := .kreset

/-- The host action that issues a command. -/
def issue (i : Instr) : HostAction := commandAction (encode i)

/-- `HOST WX xi, v`. -/
def hostWX (r : Reg) (v : Word) : HostAction := .write (0x80 + 8 * r.val) 64 v

/-- `HOST WT a, [t0,t1,...]`: one access per trit (spec/20_memory.md R83). -/
def hostWT (a : Nat) (t : List Trit) : List HostAction :=
  (cellsFrom a t).map fun cell => .write (0x100000 + cell.1) 8 ((tritByte cell.2).setWidth 64)

/-- `HOST WT a, "TRYTES"`: the string expanded by the table. -/
def hostWTrytes (a : Nat) (symbols : List Byte) : List HostAction :=
  hostWT a (symbols.flatMap tripleOf)

/-- `HOST WB a, bytes`: one access per byte (R84). -/
def hostWB (a : Nat) (b : List Byte) : List HostAction :=
  (cellsFrom a b).map fun cell => .write (0x200000 + cell.1) 8 (cell.2.setWidth 64)

/-- `HOST ACK v`. -/
def hostAck (v : Word) : HostAction := .write 0x010 64 v

/-- `LI xd, v` for any 64-bit `v`: the command where the signed value fits 20 bits, else the host's
register write it stands for (R101). -/
def loadConstant (d : Reg) (v : Word) : HostAction :=
  if -524288 ≤ v.toInt ∧ v.toInt ≤ 524287 then issue (.li d (v.setWidth 20)) else hostWX d v

end Sys2Proof.Machine
end

