-- ==== Sys2Proof/Machine/HostProcedures.lean ====
section
/-! DEFINITION. The host's procedures over the block (spec/47_host_bundle_hmac.md), as host actions and
pure functions. They lie outside the block (spec/00_scope.md R4): nothing here adds state or a command, and
no step depends on it. -/

namespace Sys2Proof.Machine

open Sys2Proof

/-- The widths in trytes of the fields of a serialized transaction, in order (R243). -/
def transactionLayout : List (String × Nat) :=
  [("signatureMessageFragment", 2187), ("address", 81), ("value", 27), ("obsoleteTag", 27),
   ("timestamp", 9), ("currentIndex", 9), ("lastIndex", 9), ("bundleHash", 81), ("trunk", 81),
   ("branch", 81), ("tag", 27), ("attachmentTimestamp", 9), ("attachmentTimestampLowerBound", 9),
   ("attachmentTimestampUpperBound", 9), ("nonce", 27)]

/-- The first tryte of field number `k` (R243). -/
def fieldOffset (k : Nat) : Nat := ((transactionLayout.take k).map Prod.snd).sum

/-- An integer in a field of `width` trits (R244): its minimal trits, then zeros. None where they do not
fit: the spec does not say what happens then (spec/91_not_in_source.md N14). -/
def integerField (width : Nat) (v : Int) : Option (List Trit) :=
  let t := intToTrits v
  if t.length ≤ width then some (t ++ zeros (width - t.length)) else none

/-- The fields of an entry that its essence is made of (R240, R244). -/
structure EssenceFields where
  /-- 243 trits -/
  address : List Trit
  /-- the signed value -/
  value : Int
  /-- 81 trits -/
  obsoleteTag : List Trit
  /-- the timestamp -/
  timestamp : Int
  /-- the position of the entry in its bundle -/
  currentIndex : Int
  /-- one less than the number of entries -/
  lastIndex : Int
  deriving DecidableEq, Repr

/-- The essence of an entry, 486 trits where the two hashes have their widths (R244). -/
def essence (e : EssenceFields) : Option (List Trit) := do
  let value ← integerField 81 e.value
  let timestamp ← integerField 27 e.timestamp
  let currentIndex ← integerField 27 e.currentIndex
  let lastIndex ← integerField 27 e.lastIndex
  return e.address ++ value ++ e.obsoleteTag ++ timestamp ++ currentIndex ++ lastIndex

/-- A command after the register writes that set its operands. -/
def withOperands (operands : List (Reg × Nat)) (i : Instr) : List HostAction :=
  operands.map (fun o => hostWX o.1 (BitVec.ofNat 64 o.2)) ++ [issue i]

/-- The bundle hash of `n` essences at `E`, left at `H` (R245). -/
def hashBundle (E n H : Nat) : List HostAction :=
  [issue .kreset] ++ withOperands [(1, E), (2, 486 * n), (3, 0)] (.kabsorb 1 2 3)
    ++ withOperands [(1, H), (2, 243), (3, 0)] (.ksqueeze 1 2 3)

/-- The hash at `H` normalized to `V` (R245, R247). -/
def normalizeHash (V H : Nat) : List HostAction := withOperands [(1, V), (2, H)] (.normalize 1 2)

/-- The first entry's obsolete tag plus 1, in place; the one-trit constant lies at `one` (R245). -/
def incrementTag (E one : Nat) : List HostAction :=
  withOperands [(1, E + 324), (2, 81), (3, one), (4, 1)] (.tadd 1 1 2 3 4)

/-- The host's writes of the index fields of `n` essences at `E` (R245). -/
def writeIndices (E n : Nat) : Option (List HostAction) := do
  let last ← integerField 27 (n - 1 : Nat)
  let perEntry ← (List.range n).mapM fun (j : Nat) => do
    let current ← integerField 27 (j : Int)
    return hostWT (E + 486 * j + 432) current ++ hostWT (E + 486 * j + 459) last
  return perEntry.flatten

/-- The security condition of R245: the normalized hash at `V` has no element 13. -/
def free13 (V : Nat) (s : State) : Bool := (tryteValues (s.readT V 243)).all fun v => v != 13

/-- The loop of R245 with a cap of `passes` turns: the state in which the condition first holds, or none
where the cap ends the loop. The loop of the spec has no cap. -/
def finalizeLoop (E n H V one : Nat) : (passes : Nat) → State → Option State
  | 0, _ => none
  | passes + 1, s =>
    match writeIndices E n with
    | none => none
    | some indices =>
      match performAll (indices ++ hashBundle E n H ++ normalizeHash V H) s with
      | .next t =>
        if free13 V t then some t
        else match performAll (incrementTag E one) t with
          | .next u => finalizeLoop E n H V one passes u
          | .fault _ => none
          | .refused _ => none
      | .fault _ => none
      | .refused _ => none

/-- Signing with a key of `s` fragments at `key` (R247): fragment `j` with the normalized group `j mod 3`,
the signature fragments end to end at `out`. -/
def signBundle (V H key out s : Nat) : List HostAction :=
  normalizeHash V H ++ (List.range s).flatMap fun j =>
    withOperands [(1, out + 6561 * j), (2, V + 81 * (j % 3)), (3, key + 6561 * j)] (.sigfrag 1 2 3)

/-- The authentication tag of R248: the key of `lk` trits at `A`, the bundle hash after it, the tag left at
`G`. -/
def authenticationTag (A lk G : Nat) : List HostAction :=
  [issue (.cinit 27)] ++ withOperands [(1, A), (2, lk + 243), (3, 0)] (.cabsorb 1 2 3)
    ++ withOperands [(1, G), (2, 243), (3, 0)] (.csqueeze 1 2 3)

/-- The overwriting of the first 81 trytes of a signature fragment by the tag (R248, R249). -/
def overwriteWithTag (tag fragment : List Trit) : List Trit := tag.take 243 ++ fragment.drop 243

end Sys2Proof.Machine
end

