-- ==== Sys2Proof/Tests/Slice0.lean ====
section
/-! SUPPORT. The model's own tests. Expected results come from spec/95_test_vectors.md (the section is named
at each test) or are worked out by hand from the rule named. After the tests stand the witnesses: concrete
states and operands that meet the hypotheses of the statements, at the ends of their ranges. -/

namespace Sys2Proof.Tests

open Sys2Proof Sys2Proof.Machine

/-! ### Building small states -/

/-- The state after reset with the registers given. -/
def withRegs (regs : List (Reg × Nat)) : State :=
  regs.foldl (fun s r => s.setReg r.1 (BitVec.ofNat 64 r.2)) State.reset

/-- The trits -1, 0 and 1 from numbers. -/
def trits (l : List Int) : List Trit :=
  l.map fun i => if i = 1 then .pos else if i = -1 then .neg else .zero

/-- The ASCII bytes of a text. -/
def ascii (t : String) : List Byte := t.toList.map fun c => BitVec.ofNat 8 c.toNat

/-- Whether a step answers a next state of which `p` holds. -/
def after (o : Host.Outcome State Fault Refusal) (p : State → Bool) : Bool :=
  match o with
  | .next t => p t
  | .fault _ => false
  | .refused _ => false

/-- Whether a step ends in the FAULTED state with the cause and `INFO` given. -/
def faults (o : Host.Outcome State Fault Refusal) (c : Cause) (info : Nat) : Bool :=
  after o fun t => t.es == .faulted && t.cause == c && t.info == BitVec.ofNat 64 info

/-- `n` times the same trit. -/
def reps (n : Nat) (t : Trit) : List Trit := List.replicate n t

/-! ### Well-formedness: the one check beyond the field widths (R92, R98) -/

theorem test_cinit_256_is_ill_formed : Instr.wellFormed (.cinit 256) = false := by decide
theorem test_cinit_255_is_well_formed : Instr.wellFormed (.cinit 255) = true := by decide

/-! ### Decoding: the words of 95_test_vectors.md section 10, one or more for every constructor -/

theorem test_decode_codec :
    decode 0x00000001 = .command (.li 0 0)
      ∧ decode 0x80000F01 = .command (.li 15 0x80000)
      ∧ decode 0x019A1201 = .command (.li 2 6561)
      ∧ decode 0x00032110 = .command (.try2t 1 2 3)
      ∧ decode 0x00032111 = .command (.int2t 1 2 3)
      ∧ decode 0x00032112 = .command (.t2try 1 2 3)
      ∧ decode 0x00051413 = .command (.t2int 4 1 5)
      ∧ decode 0x00021314 = .command (.str2try 3 1 2)
      ∧ decode 0x00043515 = .command (.try2str 5 3 4)
      ∧ decode 0x00032116 = .command (.t2b 1 2 3)
      ∧ decode 0x00032117 = .command (.b2t 1 2 3) := by decide

theorem test_decode_adder_and_sponges :
    decode 0x08651920 = .command (.tadd 9 1 5 6 8)
      ∧ decode 0x00000030 = .command (.cinit 0)
      ∧ decode 0x0001B030 = .command (.cinit 27)
      ∧ decode 0x000FF030 = .command (.cinit 255)
      ∧ decode 0x00000031 = .command .creset
      ∧ decode 0x00000032 = .command .cxform
      ∧ decode 0x00013133 = .command (.cabsorb 1 3 1)
      ∧ decode 0x00013434 = .command (.csqueeze 4 3 1)
      ∧ decode 0x00000040 = .command .kreset
      ∧ decode 0x00013141 = .command (.kabsorb 1 3 1)
      ∧ decode 0x00013442 = .command (.ksqueeze 4 3 1) := by decide

theorem test_decode_signing :
    decode 0x04321550 = .command (.keygen 5 1 2 3 4)
      ∧ decode 0x000C5651 = .command (.digests 6 5 12)
      ∧ decode 0x00026752 = .command (.address 7 6 2)
      ∧ decode 0x000A9D53 = .command (.sigdigest 13 9 10)
      ∧ decode 0x00059A54 = .command (.sigfrag 10 9 5)
      ∧ decode 0x00008955 = .command (.normalize 9 8)
      ∧ decode 0x284A7B56 = .command (.validate 11 7 10 4 8 2)
      ∧ decode 0xFFFFFF56 = .command (.validate 15 15 15 15 15 15) := by decide

/-- The illegal words of section 10. -/
theorem test_decode_illegal :
    decode 0x00000000 = .illegal .undefinedOpcode
      ∧ decode 0xFFFFFFFF = .illegal .undefinedOpcode
      ∧ decode 0x00000002 = .illegal .undefinedOpcode
      ∧ decode 0x00100031 = .illegal .unusedFieldNotZero
      ∧ decode 0x00010055 = .illegal .unusedFieldNotZero
      ∧ decode 0x10000020 = .illegal .unusedFieldNotZero
      ∧ decode 0x00000130 = .illegal .unusedFieldNotZero
      ∧ decode 0x00100030 = .illegal .roundCountTooLarge := by decide

theorem test_decodeTableWord :
    decodeTableWord 32 0x00032110 = some (.try2t 1 2 3)
      ∧ decodeTableWord 32 0x00000000 = none ∧ decodeTableWord 8 0x31 = some .creset := by decide

/-! ### One step of each command -/

/-- R128: -524288 in 64 bits. -/
theorem test_li : after (exec (.li 15 0x80000) State.reset)
    (fun t => t.reg 15 == 0xFFFFFFFFFFF80000#64 && t.reg 14 == 0) = true := by decide +kernel

/-- Section 2.2: `"AB9"`. -/
theorem test_try2t : after (exec (.try2t 1 2 3) ((withRegs [(1, 7), (3, 3)]).writeB 0 (ascii "AB9")))
    (fun t => t.readT 7 9 == trits [1, 0, 0, -1, 1, 0, 0, 0, 0]) = true := by decide +kernel

/-- Section 2.2: `"AB1C"`. -/
theorem test_try2t_symbol :
    faults (exec (.try2t 1 2 3) ((withRegs [(3, 4)]).writeB 0 (ascii "AB1C"))) .symbol 2 = true := by
  decide +kernel

/-- Section 2.3: 100, and the length goes to `rc`. -/
theorem test_int2t : after (exec (.int2t 1 2 3) (withRegs [(1, 50), (2, 100)]))
    (fun t => t.readT 50 5 == trits [1, 0, -1, 1, 1] && t.reg 3 == 5 && t.reg 1 == 50) = true := by
  decide +kernel

/-- Section 2.3: -2^63 takes 41 trits. -/
theorem test_int2t_lowest : after (exec (.int2t 1 2 3) (withRegs [(2, 2 ^ 63)]))
    (fun t => t.readT 0 41 == trits [1, 0, 0, -1, 1, 0, 1, -1, -1, 0, 1, 0, 1, 0, -1, 0, -1, 0, 1, -1,
      -1, 1, 1, -1, 0, -1, 1, 0, 0, -1, -1, -1, 0, 0, -1, -1, -1, 1, -1, 1, -1] && t.reg 3 == 41)
      = true := by decide +kernel

/-- Section 2.4: `"HB9"`. -/
theorem test_t2try : after (exec (.t2try 1 2 3)
      ((withRegs [(1, 16), (3, 9)]).writeT 0 (trits [-1, 0, 1, -1, 1, 0, 0, 0, 0])))
    (fun t => t.readB 16 3 == ascii "HB9") = true := by decide +kernel

/-- Section 2.4: `LEN3` before the addresses. -/
theorem test_t2try_len3 :
    faults (exec (.t2try 1 2 3) (withRegs [(1, 99999), (2, 99999), (3, 4)])) .len3 4 = true := by
  decide +kernel

/-- Section 2.5: -1. -/
theorem test_t2int : after (exec (.t2int 4 1 5) ((withRegs [(5, 3)]).writeT 0 (trits [-1, 0, 0])))
    (fun t => t.reg 4 == 0xFFFFFFFFFFFFFFFF#64) = true := by decide +kernel

/-- Section 2.5: 2^63 does not fit. -/
theorem test_t2int_range :
    faults (exec (.t2int 4 1 5) ((withRegs [(5, 42)]).writeT 0 (trits [-1, 0, 0, 1, -1, 0, -1, 1, 1, 0,
      -1, 0, -1, 0, 1, 0, 1, 0, -1, 1, 1, -1, -1, 1, 0, 1, -1, 0, 0, 1, 1, 1, 0, 0, 1, 1, 1, -1, 1, -1,
      1, 0]))) .intRange 42 = true := by decide +kernel

/-- Section 2.6: "Hi". -/
theorem test_str2try : after (exec (.str2try 3 1 2)
      ((withRegs [(2, 2), (3, 32)]).writeB 0 [0x48, 0x00, 0x69, 0x00]))
    (fun t => t.readB 32 4 == ascii "RBXC") = true := by decide +kernel

/-- Section 2.6: units 65 and 729. -/
theorem test_str2try_unit : faults (exec (.str2try 3 1 2)
    ((withRegs [(2, 2), (3, 32)]).writeB 0 [0x41, 0x00, 0xD9, 0x02])) .codeUnit 1 = true := by
  decide +kernel

/-- Section 2.6: back from `"RBXC"`, and in place. -/
theorem test_try2str : after (exec (.try2str 3 3 4)
      ((withRegs [(3, 32), (4, 4)]).writeB 32 (ascii "RBXC")))
    (fun t => t.readB 32 4 == [0x48, 0x00, 0x69, 0x00]) = true := by decide +kernel

/-- Section 2.6: bytes `41 30`. -/
theorem test_try2str_symbol :
    faults (exec (.try2str 5 3 4) ((withRegs [(4, 2)]).writeB 0 [0x41, 0x30])) .symbol 1 = true := by
  decide +kernel

/-- Section 3.1: -256; 47 bytes `FF`, then `00`. -/
theorem test_t2b : after (exec (.t2b 1 2 3) ((withRegs [(1, 100), (3, 243)]).writeT 0
      (trits [-1, -1, -1, 0, 0, -1] ++ zeros 237)))
    (fun t => t.readB 100 48 == List.replicate 47 0xFF ++ [0x00]) = true := by decide +kernel

/-- Section 3.1: trit 242 is ignored. -/
theorem test_t2b_trit242 : t2b (zeros 242 ++ [.pos]) = List.replicate 48 0x00 := by decide +kernel

/-- Section 3.2: -2 is `Y` and 80 times `9`. -/
theorem test_b2t : after (exec (.b2t 1 2 3) ((withRegs [(1, 300), (3, 48)]).writeB 0
      (List.replicate 47 0xFF ++ [0xFE])))
    (fun t => t.readT 300 243 == trits [1, -1, 0] ++ zeros 240) = true := by decide +kernel

/-- Section 3.2: `80` and 47 times `00`. -/
theorem test_b2t_lowest : trytesOf (b2t (0x80 :: List.replicate 47 0x00))
    = ascii "VTPNBFOMDQVXGNPDQGHWKHKXLWMYDWXHLVJIQZVJGGAIPXJ9MAAAGXXEQBCBCXBWEWRNODU9NGUQWNHXU" := by
  decide +kernel

/-- Section 4.2: 55 + 7 = 62, the shorter operand extended. -/
theorem test_tadd : after (exec (.tadd 1 2 3 4 5)
      (((withRegs [(1, 200), (3, 9), (4, 100), (5, 3)]).writeT 0
        (trits [1, 0, 0, -1, 1, 0, 0, 0, 0])).writeT 100 (trits [1, -1, 1])))
    (fun t => t.readT 200 9 == trits [-1, 0, 1, -1, 1, 0, 0, 0, 0]) = true := by decide +kernel

/-- Section 4.2: 26 wraps to -1, in place. -/
theorem test_tadd_wraps : after (exec (.tadd 1 2 3 2 3)
      ((withRegs [(3, 3)]).writeT 0 (trits [1, 1, 1])))
    (fun t => t.readT 0 3 == trits [-1, 0, 0]) = true := by decide +kernel

/-- R155. -/
theorem test_cinit : after (exec (.cinit 27) State.reset) (fun t => t.cr == 27) = true := by
  decide +kernel

theorem test_cinit_zero : after (exec (.cinit 0) (State.reset.setRounds 5)) (fun t => t.cr == 81)
    = true := by decide +kernel

/-- R156. -/
theorem test_creset : after (exec .creset ((State.reset.setRounds 5).setCurl
      (Vector.replicate 729 .pos))) (fun t => t.cs[728] == .zero && t.cr == 5) = true := by
  decide +kernel

/-- Section 5, the note: one round maps the zero state to all -1. -/
theorem test_cxform : after (exec .cxform (State.reset.setRounds 1))
    (fun t => t.cs[0] == .neg && t.cs[728] == .neg) = true := by decide +kernel

/-- R152, R153, R158 by hand: after absorbing `[1]` with one round, cell 0 is F(1, 0) = 0, cell 728 is
F(0, 1) = 1 and cell 1 is F(0, 0) = -1. -/
theorem test_cabsorb : after (exec (.cabsorb 1 2 3)
      (((withRegs [(2, 1)]).setRounds 1).writeT 0 [.pos]))
    (fun t => t.cs[0] == .zero && t.cs[728] == .pos && t.cs[1] == .neg) = true := by decide +kernel

/-- Section 5: `OFFSET` before the address, and then the address of the region. -/
theorem test_cabsorb_faults :
    faults (exec (.cabsorb 1 2 3) (withRegs [(1, 65536), (2, 243), (3, 243)])) .offset 243
      && faults (exec (.cabsorb 1 2 3) (withRegs [(1, 65436), (2, 243)])) .addr 65436 = true := by
  decide +kernel

/-- R159 by hand: three cells come out as they are, and a full transform follows. -/
theorem test_csqueeze : after (exec (.csqueeze 1 2 3) ((withRegs [(1, 40), (2, 13), (3, 10)]).setRounds 1))
    (fun t => t.readT 50 3 == [.zero, .zero, .zero] && t.cs[5] == .neg) = true := by decide +kernel

/-- Section 1.1, the known answer of the source: 81 rounds after absorbing 81 trytes give 81 trytes. -/
theorem test_curl_known_answer :
    trytesOf ((curlAbsorb 81 zeroCurl ((ascii
        "EMIDYNHBWMBCXVDEFOFWINXTERALUKYYPPHKP9JJFGJEIUY9MUDVNFZHMMWZUYUSWAIOWEVTHNWMHANBH").flatMap
          tripleOf)).toList.take 243)
      = ascii "AQBOPUMJMGVHFOXSMUAGZNACKUTISDPBSILMRAGIGRXXS9JJTLIKZUW9BCJWKSTFBDSBLNVEEGVGAMSSM" := by
  have hone : ∀ m : List Trit, m.length = 243 →
      (curlAbsorb 81 zeroCurl m).toList = CurlEval.rounds 81 (m ++ zeros 486) := fun m hm => by
    have h := CurlEval.overwrite_zero m (by omega)
    rw [hm] at h
    rw [curlAbsorb, chunks243_single m hm, ← h, ← CurlEval.rounds_eq]; rfl
  rw [hone _ (by decide +kernel)]
  decide +kernel

/-- Section 5. -/
theorem test_csqueeze_addr :
    faults (exec (.csqueeze 1 2 3) (withRegs [(1, 65436), (2, 243), (3, 10)])) .addr 65446 = true := by
  decide +kernel

/-- R179. -/
theorem test_kreset : after (exec .kreset (State.reset.setKerl (List.replicate 48 0)))
    (fun t => t.km == []) = true := by decide +kernel

/-- R180, and section 3.1 for the bytes of 1; trit 242 is ignored. -/
theorem test_kabsorb : after (exec (.kabsorb 1 2 3) ((withRegs [(2, 243)]).writeT 0
      (.pos :: zeros 241 ++ [.neg])))
    (fun t => t.km == List.replicate 47 0x00 ++ [0x01] && t.tmAt 242 == .neg) = true := by
  decide +kernel

/-- R180: the length, then the offset. -/
theorem test_kabsorb_faults :
    (faults (exec (.kabsorb 1 2 3) (withRegs [(2, 244), (3, 999)])) .len243 244
      && faults (exec (.kabsorb 1 2 3) (withRegs [(2, 486), (3, 100)])) .offset 100
      && faults (exec (.kabsorb 1 2 3) State.reset) .offset 0) = true := by decide +kernel

/-- Sections 3.1, 3.2 and 6: the hash of the bytes of the first input of section 1. -/
theorem test_keccak_block :
    bytesValue (keccak384 (bytes48
        0xec3357c2b1f26b6567a80542a65159f3fdc5c4a7ff0d07ff52c14ed39df3cdee8e3b62250b04592ba0beef909e1c4313))
      = 0xb95222696ed72459328e5cd7960031373c14fa1b183cd76b7653002d821335aec08922d0fc898648017be21867b7f1d2 := by
  rw [← KeccakEval.hashThen_eq _ 1 (fun u => u) (by decide +kernel)]
  decide +kernel

/-- Sections 1.1 and 9.3: `KSQUEEZE` after `KABSORB` of that input. -/
theorem test_ksqueeze :
    trytesOf (kerlSqueeze1 Config.defaultParams (t2b ((ascii
        "EMIDYNHBWMBCXVDEFOFWINXTERALUKYYPPHKP9JJFGJEIUY9MUDVNFZHMMWZUYUSWAIOWEVTHNWMHANBH").flatMap
          tripleOf))).1
      = ascii "EJEAOOZYSAWFPZQESYDHZCGYNSTWXUMVJOVDWUNZJXDGWCLUFGIMZRMGCAZGKNPLBRLGUNYWKLJTYEAQX" := by
  have h : t2b ((ascii
      "EMIDYNHBWMBCXVDEFOFWINXTERALUKYYPPHKP9JJFGJEIUY9MUDVNFZHMMWZUYUSWAIOWEVTHNWMHANBH").flatMap
        tripleOf) = bytes48
      0xec3357c2b1f26b6567a80542a65159f3fdc5c4a7ff0d07ff52c14ed39df3cdee8e3b62250b04592ba0beef909e1c4313 := by
    decide +kernel
  have hd : kerlSqueeze1 Config.defaultParams (t2b ((ascii
      "EMIDYNHBWMBCXVDEFOFWINXTERALUKYYPPHKP9JJFGJEIUY9MUDVNFZHMMWZUYUSWAIOWEVTHNWMHANBH").flatMap
        tripleOf)) = (clearTop (fixedTrits 243 (signed384 (bytesValue (keccak384 (bytes48
      0xec3357c2b1f26b6567a80542a65159f3fdc5c4a7ff0d07ff52c14ed39df3cdee8e3b62250b04592ba0beef909e1c4313))))),
        reseed .reversed (keccak384 (bytes48
      0xec3357c2b1f26b6567a80542a65159f3fdc5c4a7ff0d07ff52c14ed39df3cdee8e3b62250b04592ba0beef909e1c4313))) := by
    rw [h]; rfl
  rw [hd, test_keccak_block]
  decide +kernel

/-- R175, R178: the message left has 48 bytes. -/
theorem test_ksqueeze_length : after (exec (.ksqueeze 1 2 3) (withRegs [(2, 243)]))
    (fun t => t.km.length == 48) = true := by decide +kernel

/-- R178: complement, then reverse. -/
theorem test_reseed : reseed .reversed [0x00, 0x0F, 0xFF] = [0x00, 0xF0, 0xFF]
    ∧ reseed .forward [0x00, 0x0F, 0xFF] = [0xFF, 0xF0, 0x00] := by decide

/-- Section 8.3: the subseed of `SEED` and -1 is `REED` and 77 times `9`. -/
theorem test_keygen_subseed : subseed ((ascii "SEED").flatMap tripleOf) (-1)
    = (ascii "REED").flatMap tripleOf ++ zeros 231 := by decide +kernel

/-- Section 8.4. -/
theorem test_keygen_faults :
    (faults (exec (.keygen 1 2 3 4 5) (withRegs [(5, 1)])) .length 0
      && faults (exec (.keygen 1 2 3 4 5) (withRegs [(1, 1000), (3, 80), (5, 10)])) .addr 1000) = true := by
  decide +kernel

/-- Section 8.4, and the command completes for a length that is one. -/
theorem test_digests : (faults (exec (.digests 1 2 3) (withRegs [(3, 6560)])) .length 6560
      && after (exec (.digests 1 2 3) (withRegs [(3, 6561)])) fun t => t.es == .ready) = true := by
  decide +kernel

/-- Section 8.4. -/
theorem test_address : (faults (exec (.address 1 2 3) State.reset) .len243 0
      && faults (exec (.address 1 2 3) (withRegs [(3, 100)])) .len243 100
      && after (exec (.address 1 2 3) (withRegs [(3, 243)])) fun t => t.es == .ready) = true := by
  decide +kernel

/-- Section 8.4. -/
theorem test_sigdigest : (faults (exec (.sigdigest 1 2 3) (withRegs [(3, 58976)])) .addr 58976
      && after (exec (.sigdigest 1 2 3) (withRegs [(3, 58975)])) fun t => t.es == .ready) = true := by
  decide +kernel

/-- R211: the destination is the last region checked. -/
theorem test_sigfrag : (faults (exec (.sigfrag 1 2 3) (withRegs [(1, 58976), (2, 65456)])) .addr 65456
      && faults (exec (.sigfrag 1 2 3) (withRegs [(1, 58976)])) .addr 58976) = true := by
  decide +kernel

/-- Section 7: 81 times `M`. -/
theorem test_normalize : after (exec (.normalize 1 2) ((withRegs [(1, 243)]).writeT 0 (reps 243 .pos)))
    (fun t => t.readT 243 81 == reps 39 .neg ++ zeros 3 ++ reps 39 .pos) = true := by decide +kernel

/-- Section 7: of several large values the first is changed. -/
theorem test_normalize_first :
    normalizeGroup (5 :: 13 :: List.replicate 24 0 ++ [2]) = -13 :: 11 :: List.replicate 24 0 ++ [2] := by
  decide

/-- Section 8.4: the order of the checks; the verdict register is unchanged. -/
theorem test_validate :
    (faults (exec (.validate 7 2 3 4 5 6) State.reset) .noHash 0
      && faults (exec (.validate 7 2 3 4 5 6) (withRegs [(6, 81)])) .len243 81
      && faults (exec (.validate 7 2 3 4 5 6) (withRegs [(6, 243)])) .length 0
      && faults (exec (.validate 7 2 3 4 5 6) (withRegs [(3, 1000), (4, 10), (6, 243)])) .addr 1000)
      = true := by decide +kernel

/-! ### Steps of the host -/

/-- R42, section 10: the first command after reset, and an illegal word. -/
theorem test_step_runs_the_word :
    (after (step (State.reset.withFetchWord 32 0x019A1201)) (fun t => t.reg 2 == 6561)
      && faults (step (State.reset.withFetchWord 32 0x00100030)) .illegal 0x00100030) = true := by
  decide +kernel

/-- Section 9.3: a dropped command, then `ACK <- 3`. -/
theorem test_drop_and_ack :
    (after (performAll [commandAction 0x00012141, commandAction 0x00013141] (withRegs [(2, 244)]))
        (fun t => t.status == 3 && t.cause == .len243 && t.info == 244 && t.ecmd == 0x00012141#32)
      && after (performAll [commandAction 0x00012141, commandAction 0x00013141, .write 0x010 64 3]
          (withRegs [(2, 244)])) (fun t => t.status == 0 && t.cause == .len243)) = true := by
  decide +kernel

/-- R83, R84: a byte that is no trit, a wrong width and an unmapped offset are refused. -/
theorem test_refused_accesses :
    (after (performAll [.write 0x100000 8 0xFF, .write 0x100000 8 0x02, .read 0x100000 8] State.reset)
        (fun t => t.replies == [0xFF] && t.status == 4)
      && after (performAll [.read 0x080 32, .read 0x00C 64, .read 0x110000 8] State.reset)
        (fun t => t.replies == [0, 0, 0] && t.status == 4)) = true := by decide +kernel

/-- Section 9.5, the first half, as the host actions of the listing. -/
theorem test_text_program :
    after (performAll (hostWB 0 [0x48, 0x00, 0x69, 0x00]
        ++ [loadConstant 2 2, loadConstant 3 32, issue (.str2try 3 1 2), .read 0x200020 8,
          .read 0x200021 8]) State.reset)
      (fun t => t.replies == [0x42, 0x52] && t.status == 0) = true := by decide +kernel

/-- R100 and section 10. -/
theorem test_assembly_text : assemblyText (.li 15 0x80000) = "LI x15, -524288"
    ∧ assemblyText (.validate 11 7 10 4 8 2) = "VALIDATE x11, x7, x10, x4, x8, x2" := by
  decide +kernel

/-! ### Witnesses: states and operands that meet the hypotheses of the statements

Each theorem is named after its statement. The regions end at the last cell, or the operands are at the
other ends of their ranges, where that is possible. -/

theorem witness_Try2tExpandsSymbols :
    let s := (withRegs [(1, 65530), (2, 16382), (3, 2)]).writeB 16382 [0x39, 0x5A]
    s.uval 2 + s.uval 3 ≤ s.params.nb ∧ s.uval 1 + 3 * s.uval 3 ≤ s.params.nt
      ∧ ∀ k, k < s.uval 3 → inAlphabet (s.bmAt (s.uval 2 + k)) = true := by decide +kernel

/-- -2^63, whose 41 trits fit exactly, and 0, which needs none. -/
theorem witness_Int2tWritesMinimalTrits :
    (let s := withRegs [(1, 65495), (2, 2 ^ 63)]
     let out := intToTrits (-(2 ^ 63))
     btValue out = s.sval 2 ∧ (∀ h : out ≠ [], out.getLast h ≠ .zero)
       ∧ s.uval 1 + out.length ≤ s.params.nt)
      ∧ (let s := withRegs [(1, 65536)]
         btValue [] = s.sval 2 ∧ (∀ h : ([] : List Trit) ≠ [], ([] : List Trit).getLast h ≠ .zero)
           ∧ s.uval 1 + ([] : List Trit).length ≤ s.params.nt) := by decide +kernel

theorem witness_T2tryWritesSymbols :
    let s := withRegs [(1, 16381), (2, 65527), (3, 9)]
    s.uval 3 % 3 = 0 ∧ s.uval 2 + s.uval 3 ≤ s.params.nt
      ∧ s.uval 1 + s.uval 3 / 3 ≤ s.params.nb := by decide +kernel

/-- 2^63 - 1, the largest value that fits (section 2.5). -/
theorem witness_T2intReadsValue :
    let s := (withRegs [(3, 42)]).writeT 0 (intToTrits (2 ^ 63 - 1) ++ [.zero])
    s.uval 3 % 3 = 0 ∧ s.uval 2 + s.uval 3 ≤ s.params.nt
      ∧ -(2 ^ 63) ≤ btValue (s.readT (s.uval 2) (s.uval 3))
      ∧ btValue (s.readT (s.uval 2) (s.uval 3)) = 2 ^ 63 - 1 := by decide +kernel

/-- Unit 728 is the largest. -/
theorem witness_Str2tryWritesSymbolPairs :
    let s := (withRegs [(1, 16382), (2, 16382), (3, 1)]).writeB 16382 [0xD8, 0x02]
    s.uval 2 + 2 * s.uval 3 ≤ s.params.nb ∧ s.uval 1 + 2 * s.uval 3 ≤ s.params.nb
      ∧ ∀ k, k < s.uval 3 → s.codeUnitAt (s.uval 2) k ≤ 728 := by decide +kernel

theorem witness_Try2strWritesCodeUnits :
    let s := (withRegs [(1, 16382), (2, 0), (3, 2)]).writeB 0 [0x5A, 0x5A]
    s.uval 3 % 2 = 0 ∧ s.uval 2 + s.uval 3 ≤ s.params.nb ∧ s.uval 1 + s.uval 3 ≤ s.params.nb
      ∧ ∀ k, k < s.uval 3 → inAlphabet (s.bmAt (s.uval 2 + k)) = true := by decide +kernel

theorem witness_T2bWritesTwosComplement :
    let s := withRegs [(1, 16336), (2, 65293), (3, 243)]
    s.uval 3 = 243 ∧ s.uval 2 + 243 ≤ s.params.nt ∧ s.uval 1 + 48 ≤ s.params.nb := by decide +kernel

theorem witness_B2tWritesSignedValue :
    let s := withRegs [(1, 65293), (2, 16336), (3, 48)]
    s.uval 3 = 48 ∧ s.uval 2 + 48 ≤ s.params.nb ∧ s.uval 1 + 243 ≤ s.params.nt := by decide +kernel

/-- The second operand is empty and sits at the end of the memory (section 4.2). -/
theorem witness_TaddAddsAndDropsCarry :
    let s := withRegs [(1, 65533), (2, 0), (3, 3), (4, 65536), (5, 0)]
    s.uval 2 + s.uval 3 ≤ s.params.nt ∧ s.uval 4 + s.uval 5 ≤ s.params.nt
      ∧ s.uval 1 + max (s.uval 3) (s.uval 5) ≤ s.params.nt := by decide +kernel

theorem witness_CinitSetsRoundsAndClears :
    (0 : BitVec 20).toNat ≤ 255 ∧ (255 : BitVec 20).toNat ≤ 255 := by decide

theorem witness_CurlRegionCommands :
    let s := withRegs [(1, 65293), (2, 243), (3, 242)]
    s.uval 3 < s.uval 2 ∧ s.uval 1 + s.uval 2 ≤ s.params.nt := by decide +kernel

theorem witness_KerlRegionCommands :
    let s := withRegs [(1, 65050), (2, 486), (3, 243)]
    s.uval 2 % 243 = 0 ∧ s.uval 3 < s.uval 2 ∧ s.uval 3 % 243 = 0
      ∧ s.uval 1 + s.uval 2 ≤ s.params.nt := by decide +kernel

/-- For the re-seed clause of KSQUEEZE: a digest of 48 bytes, its first byte and its last. -/
theorem witness_KsqueezeEmitsChunks_reseed :
    (List.replicate 48 (0x0F : Byte)).length = 48 ∧ 0 < 48 ∧ 47 < 48 := by decide

/-- A seed of one trit and the index -1. -/
theorem witness_KeygenDerivesKey :
    let s := (withRegs [(1, 58975), (2, 0), (3, 1), (4, 2 ^ 64 - 1), (5, 1)]).writeT 0 [.pos]
    s.uval 3 ≠ 0 ∧ s.uval 5 ≠ 0 ∧ s.uval 2 + s.uval 3 ≤ s.params.nt
      ∧ s.uval 1 + 6561 * s.uval 5 ≤ s.params.nt
      ∧ (zeros 243).length = 243 * ((s.uval 3 + 242) / 243)
      ∧ (3 ^ (zeros 243).length : Int)
          ∣ btValue (zeros 243) - (btValue (s.readT (s.uval 2) (s.uval 3)) + s.sval 4) := by
  decide +kernel

theorem witness_DigestsHashEachFragment :
    let s := withRegs [(1, 65293), (2, 58975), (3, 6561)]
    s.uval 3 ≠ 0 ∧ s.uval 3 % 6561 = 0 ∧ s.uval 2 + s.uval 3 ≤ s.params.nt
      ∧ s.uval 1 + 243 * (s.uval 3 / 6561) ≤ s.params.nt := by decide +kernel

theorem witness_AddressHashesDigests :
    let s := withRegs [(1, 65293), (2, 65050), (3, 486)]
    s.uval 3 ≠ 0 ∧ s.uval 3 % 243 = 0 ∧ s.uval 2 + s.uval 3 ≤ s.params.nt
      ∧ s.uval 1 + 243 ≤ s.params.nt := by decide +kernel

theorem witness_SigdigestRunsVerifierChains :
    let s := withRegs [(1, 65293), (2, 65455), (3, 58975)]
    s.uval 2 + 81 ≤ s.params.nt ∧ s.uval 3 + 6561 ≤ s.params.nt ∧ s.uval 1 + 243 ≤ s.params.nt := by
  decide +kernel

theorem witness_SigfragRunsSignerChains :
    let s := withRegs [(1, 58975), (2, 65455), (3, 58975)]
    s.uval 2 + 81 ≤ s.params.nt ∧ s.uval 3 + 6561 ≤ s.params.nt ∧ s.uval 1 + 6561 ≤ s.params.nt := by
  decide +kernel

theorem witness_NormalizeWritesBalancedGroups :
    let s := withRegs [(1, 65293), (2, 65293)]
    s.uval 2 + 243 ≤ s.params.nt ∧ s.uval 1 + 243 ≤ s.params.nt := by decide +kernel

theorem witness_ValidateWritesVerdict :
    let s := withRegs [(2, 65293), (3, 58975), (4, 1), (5, 65293), (6, 243)]
    s.uval 6 = 243 ∧ s.uval 4 ≠ 0 ∧ s.uval 2 + 243 ≤ s.params.nt
      ∧ s.uval 3 + 6561 * s.uval 4 ≤ s.params.nt ∧ s.uval 5 + 243 ≤ s.params.nt := by decide +kernel

/-! The table of faults: for each command each fault at the first operand that raises it, and none at the
last that does not (sections 2 to 8). -/

theorem witness_FaultTable_codec :
    firstFault (.cinit 256) State.reset = some (.illegal, 0x00100030)
      ∧ firstFault (.cinit 255) State.reset = none
      ∧ firstFault (.li 1 5) State.reset = none
      ∧ firstFault (.try2t 1 2 3) (withRegs [(1, 65536), (2, 16384), (3, 1)]) = some (.addr, 16384)
      ∧ firstFault (.try2t 1 2 3) (withRegs [(1, 65531), (3, 2)]) = some (.addr, 65531)
      ∧ firstFault (.try2t 1 2 3) ((withRegs [(1, 65530), (3, 2)]).writeB 0 [0x39, 0x61])
          = some (.symbol, 1)
      ∧ firstFault (.try2t 1 2 3) ((withRegs [(1, 65530), (3, 2)]).writeB 0 [0x39, 0x39]) = none
      ∧ firstFault (.int2t 1 2 3) (withRegs [(1, 65536), (2, 1)]) = some (.addr, 65536)
      ∧ firstFault (.int2t 1 2 3) (withRegs [(1, 65535), (2, 1)]) = none
      ∧ firstFault (.t2try 1 2 3) (withRegs [(3, 4)]) = some (.len3, 4)
      ∧ firstFault (.t2try 1 2 3) (withRegs [(2, 65534), (3, 3)]) = some (.addr, 65534)
      ∧ firstFault (.t2try 1 2 3) (withRegs [(1, 16384), (3, 3)]) = some (.addr, 16384)
      ∧ firstFault (.t2try 1 2 3) (withRegs [(1, 16383), (2, 65533), (3, 3)]) = none := by
  decide +kernel

theorem witness_FaultTable_text_and_bridge :
    firstFault (.t2int 1 2 3) (withRegs [(3, 2)]) = some (.len3, 2)
      ∧ firstFault (.t2int 1 2 3) (withRegs [(2, 65534), (3, 3)]) = some (.addr, 65534)
      ∧ firstFault (.t2int 1 2 3) ((withRegs [(3, 42)]).writeT 0 (reps 42 .neg)) = some (.intRange, 42)
      ∧ firstFault (.t2int 1 2 3) ((withRegs [(3, 39)]).writeT 0 (reps 39 .neg)) = none
      ∧ firstFault (.str2try 1 2 3) (withRegs [(2, 16383), (3, 1)]) = some (.addr, 16383)
      ∧ firstFault (.str2try 1 2 3) (withRegs [(1, 16383), (3, 1)]) = some (.addr, 16383)
      ∧ firstFault (.str2try 1 2 3) ((withRegs [(3, 1)]).writeB 0 [0xD9, 0x02]) = some (.codeUnit, 0)
      ∧ firstFault (.str2try 1 2 3) ((withRegs [(3, 1)]).writeB 0 [0xD8, 0x02]) = none
      ∧ firstFault (.try2str 1 2 3) (withRegs [(3, 3)]) = some (.lenOdd, 3)
      ∧ firstFault (.try2str 1 2 3) (withRegs [(2, 16383), (3, 2)]) = some (.addr, 16383)
      ∧ firstFault (.try2str 1 2 3) (withRegs [(1, 16383), (3, 2)]) = some (.addr, 16383)
      ∧ firstFault (.try2str 1 2 3) ((withRegs [(3, 2)]).writeB 0 [0x41, 0x40]) = some (.symbol, 1)
      ∧ firstFault (.try2str 1 2 3) ((withRegs [(3, 2)]).writeB 0 [0x41, 0x41]) = none
      ∧ firstFault (.t2b 1 2 3) (withRegs [(3, 242)]) = some (.len243, 242)
      ∧ firstFault (.t2b 1 2 3) (withRegs [(2, 65294), (3, 243)]) = some (.addr, 65294)
      ∧ firstFault (.t2b 1 2 3) (withRegs [(1, 16337), (3, 243)]) = some (.addr, 16337)
      ∧ firstFault (.t2b 1 2 3) (withRegs [(1, 16336), (2, 65293), (3, 243)]) = none
      ∧ firstFault (.b2t 1 2 3) (withRegs [(3, 49)]) = some (.len48, 49)
      ∧ firstFault (.b2t 1 2 3) (withRegs [(2, 16337), (3, 48)]) = some (.addr, 16337)
      ∧ firstFault (.b2t 1 2 3) (withRegs [(1, 65294), (3, 48)]) = some (.addr, 65294)
      ∧ firstFault (.b2t 1 2 3) (withRegs [(1, 65293), (2, 16336), (3, 48)]) = none := by
  decide +kernel

theorem witness_FaultTable_adder_and_sponges :
    firstFault (.tadd 1 2 3 4 5) (withRegs [(2, 65534), (3, 3)]) = some (.addr, 65534)
      ∧ firstFault (.tadd 1 2 3 4 5) (withRegs [(4, 65536), (5, 1)]) = some (.addr, 65536)
      ∧ firstFault (.tadd 1 2 3 4 5) (withRegs [(1, 65534), (3, 3)]) = some (.addr, 65534)
      ∧ firstFault (.tadd 1 2 3 4 5) (withRegs [(4, 65536)]) = none
      ∧ firstFault (.cabsorb 1 2 3) (withRegs [(2, 243), (3, 243)]) = some (.offset, 243)
      ∧ firstFault (.cabsorb 1 2 3) (withRegs [(1, 65294), (2, 243), (3, 1)]) = some (.addr, 65295)
      ∧ firstFault (.csqueeze 1 2 3) (withRegs [(1, 65293), (2, 243), (3, 242)]) = none
      ∧ firstFault (.kabsorb 1 2 3) (withRegs [(2, 244)]) = some (.len243, 244)
      ∧ firstFault (.kabsorb 1 2 3) State.reset = some (.offset, 0)
      ∧ firstFault (.ksqueeze 1 2 3) (withRegs [(2, 243), (3, 242)]) = some (.offset, 242)
      ∧ firstFault (.ksqueeze 1 2 3) (withRegs [(1, 65294), (2, 243)]) = some (.addr, 65294)
      ∧ firstFault (.ksqueeze 1 2 3) (withRegs [(1, 65293), (2, 243)]) = none := by decide +kernel

theorem witness_FaultTable_signing :
    firstFault (.keygen 1 2 3 4 5) (withRegs [(5, 1)]) = some (.length, 0)
      ∧ firstFault (.keygen 1 2 3 4 5) (withRegs [(3, 1)]) = some (.length, 0)
      ∧ firstFault (.keygen 1 2 3 4 5) (withRegs [(2, 65536), (3, 1), (5, 1)]) = some (.addr, 65536)
      ∧ firstFault (.keygen 1 2 3 4 5) (withRegs [(1, 58976), (3, 1), (5, 1)]) = some (.addr, 58976)
      ∧ firstFault (.keygen 1 2 3 4 5) (withRegs [(1, 58975), (3, 1), (5, 1)]) = none
      ∧ firstFault (.digests 1 2 3) (withRegs [(3, 6560)]) = some (.length, 6560)
      ∧ firstFault (.digests 1 2 3) (withRegs [(2, 58976), (3, 6561)]) = some (.addr, 58976)
      ∧ firstFault (.digests 1 2 3) (withRegs [(1, 65294), (3, 6561)]) = some (.addr, 65294)
      ∧ firstFault (.digests 1 2 3) (withRegs [(1, 65293), (3, 6561)]) = none
      ∧ firstFault (.address 1 2 3) State.reset = some (.len243, 0)
      ∧ firstFault (.address 1 2 3) (withRegs [(2, 65294), (3, 243)]) = some (.addr, 65294)
      ∧ firstFault (.address 1 2 3) (withRegs [(1, 65294), (3, 243)]) = some (.addr, 65294)
      ∧ firstFault (.address 1 2 3) (withRegs [(1, 65293), (3, 243)]) = none
      ∧ firstFault (.sigdigest 1 2 3) (withRegs [(2, 65456), (3, 58976)]) = some (.addr, 65456)
      ∧ firstFault (.sigdigest 1 2 3) (withRegs [(1, 65294)]) = some (.addr, 65294)
      ∧ firstFault (.sigdigest 1 2 3) State.reset = none
      ∧ firstFault (.sigfrag 1 2 3) (withRegs [(3, 58976)]) = some (.addr, 58976)
      ∧ firstFault (.sigfrag 1 2 3) (withRegs [(1, 58976)]) = some (.addr, 58976)
      ∧ firstFault (.sigfrag 1 2 3) State.reset = none
      ∧ firstFault (.normalize 1 2) (withRegs [(1, 65536), (2, 65294)]) = some (.addr, 65294)
      ∧ firstFault (.normalize 1 2) (withRegs [(1, 65294)]) = some (.addr, 65294)
      ∧ firstFault (.normalize 1 2) State.reset = none := by decide +kernel

theorem witness_FaultTable_validate :
    firstFault (.validate 7 2 3 4 5 6) State.reset = some (.noHash, 0)
      ∧ firstFault (.validate 7 2 3 4 5 6) (withRegs [(6, 242)]) = some (.len243, 242)
      ∧ firstFault (.validate 7 2 3 4 5 6) (withRegs [(6, 243)]) = some (.length, 0)
      ∧ firstFault (.validate 7 2 3 4 5 6) (withRegs [(2, 65294), (4, 1), (6, 243)])
          = some (.addr, 65294)
      ∧ firstFault (.validate 7 2 3 4 5 6) (withRegs [(3, 58976), (4, 1), (6, 243)])
          = some (.addr, 58976)
      ∧ firstFault (.validate 7 2 3 4 5 6) (withRegs [(4, 1), (5, 65294), (6, 243)])
          = some (.addr, 65294)
      ∧ firstFault (.validate 7 2 3 4 5 6) (withRegs [(4, 1), (6, 243)]) = none := by decide +kernel

/-! Who writes what, and the control state. -/

/-- The state after the fault of a `T2B` with a length of 0. -/
def faulted : State := State.reset.enterFault (encode (.t2b 1 2 3)) .len243 0

theorem witness_FaultsArePrecise :
    State.reset.es = .ready ∧ exec (.t2b 1 2 3) State.reset = .next faulted ∧ faulted.es = .faulted :=
  ⟨rfl, rfl, rfl⟩

theorem witness_IllegalWordsRaiseIllegal :
    State.reset.es = .ready ∧ decode 0x00000000 = .illegal .undefinedOpcode
      ∧ decode 0x00000130 = .illegal .unusedFieldNotZero
      ∧ decode 0x00100030 = .illegal .roundCountTooLarge := by decide

theorem witness_FaultedEngineDropsCommands : faulted.es = .faulted := rfl

theorem witness_FaultRegistersKeepUntilNextFault :
    (HostAction.read 0x008 64 ≠ .assertReset
        ∧ step (State.reset.withNext (.read 0x008 64))
          = .next { State.reset with replies := [State.reset.status] })
      ∧ (commandAction 0 ≠ .assertReset
        ∧ step (State.reset.withNext (commandAction 0)) = .next (State.reset.enterFault 0 .illegal 0)) :=
  ⟨⟨by decide, rfl⟩, ⟨by decide, rfl⟩⟩

theorem witness_RegistersHaveFourCommandWriters :
    (∃ t, step (State.reset.withNext (hostWX 3 7)) = .next t ∧ t.reg 3 ≠ State.reset.reg 3)
      ∧ (∃ t, step ((State.reset.setReg 3 7).withNext .assertReset) = .next t
          ∧ t.reg 3 ≠ (State.reset.setReg 3 7).reg 3)
      ∧ (∃ t, step (State.reset.withNext (issue (.li 3 0xFFFFF))) = .next t
          ∧ t.reg 3 ≠ State.reset.reg 3)
      ∧ (∃ t, step ((State.reset.setReg 2 5).withNext (issue (.int2t 1 2 3))) = .next t
          ∧ t.reg 3 ≠ (State.reset.setReg 2 5).reg 3)
      ∧ (∃ t, step ((State.reset.setReg 3 7).withNext (issue (.t2int 3 1 2))) = .next t
          ∧ t.reg 3 ≠ (State.reset.setReg 3 7).reg 3) :=
  ⟨⟨_, rfl, by decide +kernel⟩, ⟨_, rfl, by decide +kernel⟩, ⟨_, rfl, by decide +kernel⟩,
    ⟨_, rfl, by decide +kernel⟩, ⟨_, rfl, by decide +kernel⟩⟩

/-- The verdict is 0 or 1, so a register that holds 2 is changed. -/
theorem witness_RegistersHaveFourCommandWriters_validate :
    let s := withRegs [(3, 2), (4, 1), (6, 243)]
    ∃ t, step (s.withNext (issue (.validate 3 1 5 4 7 6))) = .next t ∧ t.reg 3 ≠ s.reg 3 := by
  refine ⟨_, rfl, ?_⟩
  generalize validate _ _ _ _ = verdict
  cases verdict <;> decide +kernel

theorem witness_SpongesHaveTheirOwnWriters :
    (∃ t, step ((State.reset.setRounds 1).withNext (issue .cxform)) = .next t
        ∧ t.cs ≠ (State.reset.setRounds 1).cs)
      ∧ (∃ t, step (State.reset.withNext (issue (.cinit 27))) = .next t ∧ t.cr ≠ State.reset.cr)
      ∧ (∃ t, step ((State.reset.setReg 2 243).withNext (issue (.kabsorb 1 2 3))) = .next t
        ∧ t.km ≠ (State.reset.setReg 2 243).km) := by
  refine ⟨⟨_, rfl, fun h => ?_⟩, ⟨_, rfl, by decide +kernel⟩, ⟨_, rfl, fun h => ?_⟩⟩
  · have h0 := congrArg (fun S : Vector Trit 729 => S[0]) h
    revert h0; decide +kernel
  · have h0 := congrArg List.length h
    revert h0; decide +kernel

theorem witness_SigningUsesPrivateContexts :
    usesPrivateContext (.address 1 2 3) = true
      ∧ SameButSponges State.reset (State.reset.setKerl (List.replicate 48 7)) :=
  ⟨rfl, ⟨rfl, rfl, rfl, rfl, ⟨rfl, rfl, rfl, rfl, rfl, rfl⟩, rfl, rfl, rfl⟩⟩

theorem witness_StepRunsTheDecodedCommand :
    (State.reset.withFetchWord 32 0x32).pending = [.write 0x000 32 0x32]
      ∧ State.reset.es = .ready
      ∧ decode ((0x32 : Word).setWidth 32) = .command .cxform
      ∧ State.reset.pending = [] := by decide

/-! The windows, the invariant and the functions. -/

theorem witness_Windows : 0 < State.reset.params.nt ∧ 65535 < State.reset.params.nt
    ∧ State.reset.params.nt ≤ Config.windowLimit
    ∧ 0 < State.reset.params.nb ∧ 16383 < State.reset.params.nb := by decide

/-- Each byte of the T window that stands for a trit, with the low byte alone counting, and the bytes next
to them. -/
theorem witness_TritWindowHoldsOnlyTrits :
    ((0 : Word).toNat % 256 = 0x00 ∧ (0x101 : Word).toNat % 256 = 0x01
      ∧ (0xFFF : Word).toNat % 256 = 0xFF)
      ∧ ((0x02 : Word).toNat % 256 = 0x02 ∧ (0xFE : Word).toNat % 256 = 0xFE
        ∧ (0x102 : Word).toNat % 256 = 0x02) := by decide

/-- Offsets and widths at the ends of the map that it does not list. -/
theorem witness_UnlistedAccessesAreRefused :
    ∀ a ∈ [(0x000, 64), (0x004, 32), (0x008, 32), (0x050, 64), (0x078, 64), (0x081, 64), (0x100, 64),
        (0xFFFFF, 8), (0x110000, 8), (0x100000, 64), (0x1FFFFF, 8), (0x204000, 8)],
      ¬ Listed Config.defaultParams a.1 a.2 := by
  intro a ha
  simp only [List.mem_cons, List.not_mem_nil, or_false] at ha
  rcases ha with rfl | rfl | rfl | rfl | rfl | rfl | rfl | rfl | rfl | rfl | rfl | rfl <;>
    rintro (⟨h, w⟩ | ⟨k, h1, h2, h, w⟩ | ⟨k, h1, h, w⟩ | ⟨k, h1, h, w⟩ | ⟨k, h1, h, w⟩) <;>
    simp only [Config.defaultParams] at * <;> omega

/-- What another cell of a window reads as before the write. -/
theorem witness_WindowsReadBackWhatWasWritten :
    let s := (State.reset.writeT 65535 [.neg]).writeB 16383 [0x5A]
    Answers s (.read (0x100000 + 65535) 8) 0xFF ∧ Answers s (.read (0x200000 + 16383) 8) 0x5A :=
  ⟨rfl, rfl⟩

/-- A state with the invariant in which every memory is in use, and a step of it. -/
theorem witness_EveryStepKeepsTheInvariant :
    let s := ((State.reset.writeT 65534 [.neg, .pos]).writeB 0 [0x39]).setKerl (List.replicate 48 0)
    s.Inv ∧ step s = .next s :=
  ⟨{ tmWf := by decide, tmWithin := by decide, bmWf := by decide, bmWithin := by decide,
     ntLegal := by decide, nbLegal := by decide, roundsLegal := by decide, messageWhole := by decide,
     faultedHasCause := fun h => by simp [State.reset, State.resetOf] at h,
     noCauseNoInfo := fun _ => ⟨rfl, rfl⟩ }, rfl⟩

theorem witness_CodecRoundTrips :
    (∀ c ∈ [(0x39 : Byte), 0x41, 0x5A], inAlphabet c = true)
      ∧ (zeros 243).length = 243 ∧ (zeros 243)[242]? = some .zero
      ∧ (List.replicate 48 (0xFF : Byte)).length = 48 := by decide +kernel

/-- 40 is the largest value of four trits, and 41 wraps. -/
theorem witness_AdderLaws :
    2 * (btValue (reps 3 .pos ++ [.zero]) + btValue (reps 3 .pos)).natAbs ≤ 3 ^ 4 - 1
      ∧ (reps 3 .pos).length = (reps 3 .neg).length := by decide +kernel

/-- A sequence of trits that is not empty, a positive count, and the first and last cell. -/
theorem witness_CurlSpongeFollowsItsLoops :
    zeros 244 ≠ [] ∧ 0 < 1 ∧ 0 < 729 ∧ 728 < 729 := by decide +kernel

theorem witness_KerlIgnoresTrit242 :
    ((zeros 243).length = ((zeros 243).set 242 .pos).length
        ∧ (zeros 243).length % 243 = 0
        ∧ ∀ i, i % 243 ≠ 242 → (zeros 243)[i]? = ((zeros 243).set 242 .pos)[i]?)
      ∧ ((zeros 6561).length = 6561 ∧ ((zeros 6561).set 6560 .pos).length = 6561
        ∧ ∀ i, i % 243 ≠ 242 → (zeros 6561)[i]? = ((zeros 6561).set 6560 .pos)[i]?) := by
  refine ⟨⟨List.length_set.symm, by decide +kernel, fun i hi => ?_⟩, List.length_replicate,
    List.length_set.trans List.length_replicate, fun i hi => ?_⟩
  · rw [List.getElem?_set_ne (by rintro rfl; simp at hi)]
  · rw [List.getElem?_set_ne (by rintro rfl; simp at hi)]

/-- A group of each sign, and of sum 0. -/
theorem witness_NormalizeDrivesFirstElements :
    (let v : List Int := 1 :: List.replicate 26 0
     v.length = 27 ∧ (∀ a ∈ v, -13 ≤ a ∧ a ≤ 13) ∧ 0 < v.sum)
      ∧ (let v : List Int := List.replicate 27 (-13)
         v.length = 27 ∧ (∀ a ∈ v, -13 ≤ a ∧ a ≤ 13) ∧ v.sum < 0)
      ∧ (let v : List Int := 13 :: -13 :: List.replicate 25 0
         v.length = 27 ∧ (∀ a ∈ v, -13 ≤ a ∧ a ≤ 13) ∧ v.sum = 0)
      ∧ (zeros 243).length = 243 := by decide +kernel

theorem witness_SignatureDigestIsKeyDigest :
    (List.replicate 27 (13 : Int)).length = 27 ∧ (∀ n ∈ List.replicate 27 (13 : Int), -13 ≤ n ∧ n ≤ 13)
      ∧ (zeros 6561).length = 6561 := ⟨by decide, by decide +kernel, List.length_replicate⟩

/-- The signature of 27 zero sub-blocks, and the same with its trit 0 changed. -/
def plainSignature : List Trit := zeros 6561
def changedSignature : List Trit := plainSignature.set 0 .pos

theorem plainSignature_length : plainSignature.length = 6561 := List.length_replicate

theorem changedSignature_length : changedSignature.length = 6561 :=
  List.length_set.trans plainSignature_length

/-- Every sub-block is a zero block, but for the first of the changed signature. -/
theorem signature_pieces (i : Nat) (hi : i < 27) :
    piece 243 (piece 6561 plainSignature 0) i = zeros 243
      ∧ piece 243 (piece 6561 changedSignature 0) i = if i = 0 then .pos :: zeros 242 else zeros 243 := by
  have hc : changedSignature = .pos :: zeros 6560 := rfl
  constructor
  · simp only [piece, plainSignature, zeros, Nat.mul_zero, List.take_replicate, List.drop_replicate]
    congr 1; omega
  · rw [hc]
    cases i with
    | zero =>
      simp only [piece, zeros, Nat.mul_zero, List.drop_zero, List.take_succ_cons, List.take_replicate,
        if_pos]
      rfl
    | succ i =>
      simp only [piece, zeros, Nat.mul_zero, List.drop_zero, List.take_succ_cons, Nat.mul_succ,
        List.drop_succ_cons, List.take_replicate, List.drop_replicate]
      refine Eq.trans (congrArg (List.replicate · Trit.zero) ?_) (if_neg (by omega)).symm
      omega

/-- Under the zero hash every verifier's chain has length 13. -/
theorem zero_hash_chains (i : Nat) (hi : i < 27) : verifierChain (zeros 243) 0 i = 13 := by
  revert i
  decide +kernel

theorem zero_hash_digests (frags : List Trit) (h : frags.length = 6561) :
    signatureDigests Config.defaultParams frags (zeros 243) = kerlDigest Config.defaultParams
      (chainBlocks Config.defaultParams (verifierChain (zeros 243) 0) (piece 6561 frags 0)) := by
  rw [signatureDigests, h]
  exact List.append_nil _

/-- The message of the fragment's digest: 27 chains of 13 hashes. -/
theorem zero_hash_message (t : List Trit) (f : Nat → List Trit)
    (ht : ∀ i, i < 27 → piece 243 t i = f i ∧ (f i).length = 243) :
    freshMessage (chainBlocks Config.defaultParams (verifierChain (zeros 243) 0) t)
      = (List.range 27).flatMap fun i => freshMessage (hashChain Config.defaultParams 13 (f i)) := by
  have h : chainBlocks Config.defaultParams (verifierChain (zeros 243) 0) t
      = (List.range 27).flatMap fun i => hashChain Config.defaultParams 13 (f i) := by
    refine List.flatMap_congr fun i hi => ?_
    rw [zero_hash_chains i (List.mem_range.mp hi), (ht i (List.mem_range.mp hi)).1]
  rw [h, KerlEval.freshMessage_blocks 27]
  intro i hi
  exact hashChain_length _ _ _ (ht i hi).2

/-- The two addresses as the kernel works them out, 54 permutations of Keccak: two chains of 13 hashes, two
digests of 27 blocks, two hashes of one block. -/
theorem changedSignature_evaluated :
    (KerlEval.chainThen 13 0 fun z => KerlEval.chainThen 13 1 fun w =>
      KerlEval.squeezeThen ((List.range 27).flatMap fun _ => bytes48 z) 13 fun a =>
      KerlEval.squeezeThen ((List.range 27).flatMap fun i => bytes48 (if i = 0 then w else z)) 13 fun a' =>
      KerlEval.squeezeThen (bytes48 a) 1 fun x => KerlEval.squeezeThen (bytes48 a') 1 fun x' =>
      bytes48 x != bytes48 x') = true := by decide +kernel

theorem changedSignature_address :
    kerlDigest Config.defaultParams (signatureDigests Config.defaultParams plainSignature (zeros 243))
      ≠ kerlDigest Config.defaultParams
          (signatureDigests Config.defaultParams changedSignature (zeros 243)) := by
  have hash : Config.defaultParams.hash = .keccak384 := rfl
  obtain ⟨z, hz, kz⟩ := KerlEval.chainThen_eq (α := Bool) _ hash 13 (zeros 243) 0 (by decide +kernel)
  obtain ⟨w, hw, kw⟩ := KerlEval.chainThen_eq (α := Bool) _ hash 13 (.pos :: zeros 242) 1
    (by decide +kernel)
  have plain : freshMessage (chainBlocks Config.defaultParams (verifierChain (zeros 243) 0)
      (piece 6561 plainSignature 0)) = (List.range 27).flatMap fun _ => bytes48 z := by
    rw [zero_hash_message _ (fun _ => zeros 243) fun i hi =>
      ⟨(signature_pieces i hi).1, List.length_replicate⟩, hz]
  have changed : freshMessage (chainBlocks Config.defaultParams (verifierChain (zeros 243) 0)
      (piece 6561 changedSignature 0))
      = (List.range 27).flatMap fun i => bytes48 (if i = 0 then w else z) := by
    rw [zero_hash_message _ (fun i => if i = 0 then .pos :: zeros 242 else zeros 243) fun i hi =>
      ⟨(signature_pieces i hi).2, by
        split
        · exact congrArg (· + 1) List.length_replicate
        · exact List.length_replicate⟩]
    refine List.flatMap_congr fun i _ => ?_
    split
    · exact hw
    · exact hz
  obtain ⟨a, ha, ka⟩ := KerlEval.squeezeThen_eq (α := Bool) _ hash _ _ 13 plain
    (by simp [List.length_flatMap])
  obtain ⟨a', ha', ka'⟩ := KerlEval.squeezeThen_eq (α := Bool) _ hash _ _ 13 changed
    (by simp [List.length_flatMap])
  rw [← zero_hash_digests plainSignature plainSignature_length] at ha
  rw [← zero_hash_digests changedSignature changedSignature_length] at ha'
  obtain ⟨x, hx, kx⟩ := KerlEval.squeezeThen_eq (α := Bool) _ hash _ _ 1 ha (by rw [bytes48_length])
  obtain ⟨x', hx', kx'⟩ := KerlEval.squeezeThen_eq (α := Bool) _ hash _ _ 1 ha' (by rw [bytes48_length])
  have h := changedSignature_evaluated
  rw [kz, kw, ka, ka', kx, kx', ← hx, ← hx', bne_iff_ne] at h
  exact fun e => h (congrArg freshMessage e)

/-- Addresses that differ show that nothing collided on the way to them. -/
theorem changedSignature_collisionFree :
    CollisionFree Config.defaultParams plainSignature changedSignature (zeros 243) := by
  have last := changedSignature_address
  have link : chainBlocks Config.defaultParams (verifierChain (zeros 243) 0) (piece 6561 plainSignature 0)
      ≠ chainBlocks Config.defaultParams (verifierChain (zeros 243) 0)
          (piece 6561 changedSignature 0) := by
    intro e
    rw [zero_hash_digests _ plainSignature_length, zero_hash_digests _ changedSignature_length, e] at last
    exact last rfl
  have one : plainSignature.length / 6561 = 1 := by
    rw [plainSignature_length, Nat.div_self (by norm_num)]
  refine ⟨fun j i n hj hi hn => ?_, fun j hj => ?_, noCollision_of_kerlDigest_ne _ _ _ last⟩
  · obtain rfl : j = 0 := by omega
    obtain ⟨h1, h2⟩ := signature_pieces i hi
    by_cases h0 : i = 0
    · subst h0
      rw [zero_hash_chains 0 hi] at hn
      refine noCollision_of_kerlDigest_ne _ _ _ fun e => link (List.flatMap_congr fun k hk => ?_)
      obtain ⟨k1, k2⟩ := signature_pieces k (List.mem_range.mp hk)
      by_cases hk0 : k = 0
      · subst hk0
        rw [← hashChain_succ', ← hashChain_succ'] at e
        have hs := congrArg (hashChain Config.defaultParams (13 - (n + 1))) e
        rw [hashChain_add, hashChain_add, Nat.add_sub_cancel' (by omega)] at hs
        rw [zero_hash_chains 0 hi]
        exact hs
      · rw [k1, k2, if_neg hk0]
    · rw [h1, h2, if_neg h0]
      exact NoCollision.refl _ _
  · obtain rfl : j = 0 := by omega
    refine noCollision_of_kerlDigest_ne _ _ _ fun e => last ?_
    rw [zero_hash_digests _ plainSignature_length, zero_hash_digests _ changedSignature_length]
    exact congrArg (kerlDigest Config.defaultParams) e

/-- For the second half: the plain signature validates against its own address, the changed one has its
length, differs at index 0, and no collision occurs. For the third, trit 242 changed. -/
theorem witness_DerivedSignaturesValidate :
    ([Trit.pos] ≠ [] ∧ 0 < 3 ∧ (zeros 243).length = 243)
      ∧ (plainSignature.length % 6561 = 0 ∧ changedSignature.length = plainSignature.length
        ∧ validate Config.defaultParams (kerlDigest Config.defaultParams
            (signatureDigests Config.defaultParams plainSignature (zeros 243))) plainSignature
            (zeros 243) = true
        ∧ (∃ i, i % 243 ≠ 242 ∧ plainSignature[i]? ≠ changedSignature[i]?)
        ∧ CollisionFree Config.defaultParams plainSignature changedSignature (zeros 243))
      ∧ ((plainSignature.set 242 .pos).length = plainSignature.length
        ∧ ∀ i, i % 243 ≠ 242 → plainSignature[i]? = (plainSignature.set 242 .pos)[i]?)
      ∧ (zeros 242 ++ [Trit.pos])[242]? ≠ some .zero := by
  have whole : plainSignature.length % 6561 = 0 := by rw [plainSignature_length, Nat.mod_self]
  have differ : plainSignature[0]? ≠ changedSignature[0]? := by decide +kernel
  have valid := (validate_eq_true_iff Config.defaultParams _ plainSignature (zeros 243)).mpr rfl
  have same : ∀ i, i % 243 ≠ 242 → plainSignature[i]? = (plainSignature.set 242 .pos)[i]? := by
    intro i hi
    rw [List.getElem?_set_ne (by rintro rfl; simp at hi)]
  have top : (zeros 242 ++ [Trit.pos])[242]? ≠ some .zero := by decide +kernel
  exact ⟨⟨by simp, by decide, List.length_replicate⟩,
    ⟨whole, changedSignature_length.trans plainSignature_length.symm, valid, ⟨0, by decide, differ⟩,
      changedSignature_collisionFree⟩, ⟨List.length_set, same⟩, top⟩

end Sys2Proof.Tests
end

section
/-! SUPPORT. The statements of spec/10_state.md: the invariant of the block, the writers of each unit, the
control registers and reset. First the encoder as the decoder's inverse, then what each shared operation
does to the units, and last the statements. -/

namespace Sys2Proof.Machine

open Sys2Proof

/-! ### The word of a decoded command (spec/30_encoding.md R91 to R93, R97) -/

theorem opcodeOf_lt (w : CommandWord) : opcodeOf w < 256 := Nat.mod_lt _ (by decide)

/-- The fields of format R make up the whole word (R91). -/
theorem wordR_fields (w : CommandWord) :
    wordR (opcodeOf w) (regAt w 8) (regAt w 12) (regAt w 16) (regAt w 20) (regAt w 24) (regAt w 28)
      = w := by
  apply BitVec.eq_of_toNat_eq
  have hw := w.isLt
  rw [wordR_toNat _ _ _ _ _ _ _ (opcodeOf_lt w)]
  simp only [regAt_val, opcodeOf]
  omega

/-- The fields of format I make up the whole word (R92). -/
theorem wordI_fields (w : CommandWord) : wordI (opcodeOf w) (regAt w 8) (imm20Of w) = w := by
  apply BitVec.eq_of_toNat_eq
  have hw := w.isLt
  rw [wordI_toNat _ _ _ (opcodeOf_lt w)]
  simp only [regAt_val, opcodeOf, imm20Of, BitVec.toNat_ofNat]
  omega

/-- Where the bits from `lo` up are 0, so is every field there. -/
theorem regAt_eq_zero {w : CommandWord} {lo k : Nat} (h : w.toNat / 2 ^ lo = 0) (hk : lo ≤ k) :
    regAt w k = 0 := by
  have hlt : w.toNat < 2 ^ k :=
    lt_of_lt_of_le ((Nat.div_eq_zero_iff_lt (by positivity)).mp h) (Nat.pow_le_pow_right (by decide) hk)
  apply Fin.ext
  rw [regAt_val, Nat.div_eq_of_lt hlt]
  rfl

theorem ifZeroFrom_eq_command {w : CommandWord} {lo : Nat} {i j : Instr}
    (h : ifZeroFrom w lo i = .command j) : w.toNat / 2 ^ lo = 0 ∧ i = j := by
  unfold ifZeroFrom at h
  split at h
  · next hz => exact ⟨hz, Decoded.command.inj h⟩
  · cases h

theorem decodeCinit_eq_command {w : CommandWord} {j : Instr} (h : decodeCinit w = .command j) :
    regAt w 8 = 0 ∧ Instr.cinit (imm20Of w) = j := by
  unfold decodeCinit at h
  split at h
  · cases h
  · next hz =>
    split at h
    · exact ⟨not_not.mp hz, Decoded.command.inj h⟩
    · cases h

/-- A word that is a command is the word of that command: no bit of it is lost (log entry 6). -/
theorem encode_of_decode {w : CommandWord} {i : Instr} (h : decode w = .command i) : encode i = w := by
  have hR := wordR_fields w
  have hI := wordI_fields w
  unfold decode at h
  dsimp only at h
  split at h
  -- `LI` and `VALIDATE` use every bit
  case h_1 ho => obtain rfl := Decoded.command.inj h; rwa [ho] at hI
  case h_25 ho => obtain rfl := Decoded.command.inj h; rwa [ho] at hR
  case h_11 ho =>
    obtain ⟨ha, rfl⟩ := decodeCinit_eq_command h
    rwa [ho, ha] at hI
  case h_26 => cases h
  -- the other commands of formats R and Z: the fields they do not use are 0
  all_goals
    next ho =>
    obtain ⟨hz, rfl⟩ := ifZeroFrom_eq_command h
    simpa [encode, ho, regAt_eq_zero hz] using hR

/-! ### What a command leaves unchanged -/

/-- A command raises a fault or leaves the control state alone. -/
theorem Effect.fault_or_sameControl {i : Instr} {s t : State} (h : Effect i s t) :
    (∃ c n, c ≠ Cause.noFault ∧ t = s.enterFault (encode i) c n) ∨ SameControl s t := by
  cases h with
  | fault c n hc => exact .inl ⟨c, n, hc, rfl⟩
  | _ => exact .inr ⟨rfl, rfl, rfl, rfl, rfl, rfl⟩

/-- A command changes no register but its destination (spec/10_state.md R22). -/
theorem Effect.registerWritten_of_ne {i : Instr} {s t : State} {r : Reg} (h : Effect i s t)
    (hne : t.reg r ≠ s.reg r) : registerWritten i = some r := by
  cases h with
  | register q v hq | length q d u v hq hd =>
    by_cases hr : r = q
    · rw [hr, hq]
    · exact absurd (State.reg_setReg_ne _ q r v hr) hne
  | _ => exact absurd rfl hne

theorem registerWritten_eq_some {i : Instr} {r : Reg} (h : registerWritten i = some r) :
    (∃ imm20, i = .li r imm20) ∨ (∃ ra rb, i = .int2t ra rb r) ∨ (∃ rb rc, i = .t2int r rb rc)
      ∨ (∃ rb rc rd re rf, i = .validate r rb rc rd re rf) := by
  cases i with
  | li ra imm20 => obtain rfl := Option.some.inj h; exact .inl ⟨_, rfl⟩
  | int2t ra rb rc => obtain rfl := Option.some.inj h; exact .inr (.inl ⟨_, _, rfl⟩)
  | t2int ra rb rc => obtain rfl := Option.some.inj h; exact .inr (.inr (.inl ⟨_, _, rfl⟩))
  | validate ra rb rc rd re rf =>
    obtain rfl := Option.some.inj h
    exact .inr (.inr (.inr ⟨_, _, _, _, _, rfl⟩))
  | _ => cases h

/-- The five commands that may write `CS` (R28). -/
theorem Effect.curlCommand_of_ne {i : Instr} {s t : State} (h : Effect i s t) (hne : t.cs ≠ s.cs) :
    (∃ imm20, i = .cinit imm20) ∨ i = .creset ∨ i = .cxform
      ∨ (∃ ra rb rc, i = .cabsorb ra rb rc) ∨ ∃ ra rb rc, i = .csqueeze ra rb rc := by
  cases h with
  | rounds imm20 S r hi hr => exact .inl ⟨imm20, hi⟩
  | curl S hi => exact .inr (hi.imp_right (.imp_right .inl))
  | curlOut S d u hi hd => exact .inr (.inr (.inr (.inr hi)))
  | _ => exact absurd rfl hne

/-- Only `CINIT` may write `CR` (R28). -/
theorem Effect.cinit_of_ne {i : Instr} {s t : State} (h : Effect i s t) (hne : t.cr ≠ s.cr) :
    ∃ imm20, i = .cinit imm20 := by
  cases h with
  | rounds imm20 S r hi hr => exact ⟨imm20, hi⟩
  | _ => exact absurd rfl hne

/-- The three commands that may write `KM` (R29). -/
theorem Effect.kerlCommand_of_ne {i : Instr} {s t : State} (h : Effect i s t) (hne : t.km ≠ s.km) :
    i = .kreset ∨ (∃ ra rb rc, i = .kabsorb ra rb rc) ∨ ∃ ra rb rc, i = .ksqueeze ra rb rc := by
  cases h with
  | kerl K hi hK => exact hi.imp_right .inl
  | kerlOut K d u hi hK hd => exact .inr (.inr hi)
  | _ => exact absurd rfl hne

/-- A command that hashes in a context of its own writes neither sponge unit (R31). -/
theorem Effect.sameSponges_of_usesPrivateContext {i : Instr} {s t : State} (hp : usesPrivateContext i = true)
    (h : Effect i s t) : SameCurl s t ∧ SameKerl s t := by
  refine ⟨⟨by_contra fun hne => ?_, by_contra fun hne => ?_⟩, by_contra fun hne => ?_⟩
  · obtain ⟨_, rfl⟩ | rfl | rfl | ⟨_, _, _, rfl⟩ | ⟨_, _, _, rfl⟩ := h.curlCommand_of_ne hne <;>
      cases hp
  · obtain ⟨_, rfl⟩ := h.cinit_of_ne hne
    cases hp
  · obtain rfl | ⟨_, _, _, rfl⟩ | ⟨_, _, _, rfl⟩ := h.kerlCommand_of_ne hne <;> cases hp

/-! ### The invariant -/

/-- A command keeps the invariant. -/
theorem Effect.keepsInv {i : Instr} {s t : State} (h : Effect i s t) (hs : s.Inv) : t.Inv := by
  cases h with
  | fault c n hc => exact hs.enterFault _ c n hc
  | register r v hr => exact hs.setReg r v
  | length r d u v hr hd => exact (hs.writeT d u hd).setReg r v
  | trits d u hd => exact hs.writeT d u hd
  | bytes d b hd => exact hs.writeB d b hd
  | rounds imm20 S r hi hr => exact (hs.setRounds r hr).setCurl S
  | curl S hi => exact hs.setCurl S
  | curlOut S d u hi hd => exact (hs.setCurl S).writeT d u hd
  | kerl K hi hK => exact hs.setKerl K (hK hs.messageWhole)
  | kerlOut K d u hi hK hd => exact (hs.setKerl K (by rw [hK])).writeT d u hd

/-- A host action keeps the invariant. -/
theorem PortEffect.keepsInv {a : HostAction} {s t : State} (h : PortEffect a s t) (hs : s.Inv) :
    t.Inv := by
  cases h with
  | answered v ha => exact hs.reply v
  | refusedRead ha => exact hs.refuseAccess.reply 0
  | refusedWrite ha => exact hs.refuseAccess
  | dropped w ha he => exact hs.dropCommand
  | command w i t ha he hd hx ht => exact ht.keepsInv hs
  | illegal w why ha he hd => exact hs.enterFault w .illegal _ (by decide)
  | acknowledged v ha => exact hs.acknowledge v
  | register r v ha => exact hs.setReg r v
  | trit d u hd ha => exact hs.writeT d [u] hd
  | byte d b hd ha => exact hs.writeB d [b] hd
  | reset ha => exact hs.afterReset

/-- If a host action answers a next state, that state is one of its effects. -/
theorem portEffect_of_performAction {a : HostAction} {s t : State}
    (h : performAction a s = .next t) : PortEffect a s t := by
  obtain ⟨t', h', he⟩ := performAction_effect a s
  obtain rfl := Host.Outcome.next.inj (h.symm.trans h')
  exact he

/-- Settles O44, by cases on what the next host action does. -/
theorem everyStepKeepsTheInvariant : Obligations.EveryStepKeepsTheInvariant := by
  intro s t hs h
  unfold step performNext at h
  split at h
  · obtain rfl := Host.Outcome.next.inj h
    exact hs
  · next a rest _ => exact (portEffect_of_performAction h).keepsInv (hs.withPending rest)

/-- Settles O45. -/
theorem resetHasTheInvariant : Obligations.ResetHasTheInvariant :=
  { tmWf := rfl, tmWithin := rfl, bmWf := rfl, bmWithin := rfl
    ntLegal := by decide, nbLegal := by decide, roundsLegal := by decide, messageWhole := rfl
    faultedHasCause := fun h => by cases h
    noCauseNoInfo := fun _ => ⟨rfl, rfl⟩ }

/-! ### Which access is which (spec/20_memory.md R80) -/

theorem accessAt_eq_some {p : Config.Params} {o w : Nat} {port : Port} :
    accessAt p o w = some port ↔ portAt p o = some port ∧ unitWidth port = w := by
  unfold accessAt
  cases portAt p o with
  | none => simp
  | some q =>
    by_cases hq : unitWidth q = w
    · simp only [hq, if_true, Option.some.injEq]
      exact ⟨fun h => ⟨h, h ▸ hq⟩, And.left⟩
    · simp only [hq, if_false, Option.some.injEq, reduceCtorEq, false_iff, not_and]
      rintro rfl
      exact hq

theorem csrAt_lt {o : Nat} {c : Csr} (h : csrAt o = some c) : o < 0x80 := by
  unfold csrAt at h
  split at h
  all_goals cases h <;> decide

/-- Offset 0 alone names `CMD` (R33). -/
theorem csrAt_eq_cmd {o : Nat} (h : csrAt o = some .cmd) : o = 0 := by
  unfold csrAt at h
  split at h
  · rfl
  all_goals cases h

/-- Where an offset names a control register or a general register. -/
theorem portAt_cases {p : Config.Params} {o : Nat} {port : Port} (h : portAt p o = some port) :
    (∃ c, port = .csr c ∧ csrAt o = some c) ∨ (∃ r : Reg, port = .reg r ∧ o = 0x080 + 8 * r.val)
      ∨ (∃ a, port = .trit a) ∨ ∃ a, port = .byte a := by
  unfold portAt at h
  split at h
  · obtain ⟨c, hc, rfl⟩ := Option.map_eq_some_iff.mp h
    exact .inl ⟨c, rfl, hc⟩
  split at h
  · split at h
    · obtain rfl := Option.some.inj h
      refine .inr (.inl ⟨_, rfl, ?_⟩)
      simp only [Fin.ofNat]
      omega
    · cases h
  split at h
  · exact .inr (.inr (.inl ⟨_, (Option.some.inj h).symm⟩))
  split at h
  · exact .inr (.inr (.inr ⟨_, (Option.some.inj h).symm⟩))
  · cases h

theorem accessAt_cmd {p : Config.Params} {o w : Nat} (h : accessAt p o w = some (.csr .cmd)) :
    o = 0x000 ∧ w = 32 := by
  obtain ⟨hp, rfl⟩ := accessAt_eq_some.mp h
  obtain ⟨c, hc, ho⟩ | ⟨r, hr, _⟩ | ⟨a, ha⟩ | ⟨a, ha⟩ := portAt_cases hp
  · cases hc
    exact ⟨csrAt_eq_cmd ho, rfl⟩
  · cases hr
  · cases ha
  · cases ha

theorem accessAt_reg {p : Config.Params} {o w : Nat} {r : Reg} (h : accessAt p o w = some (.reg r)) :
    o = 0x080 + 8 * r.val ∧ w = 64 := by
  obtain ⟨hp, rfl⟩ := accessAt_eq_some.mp h
  obtain ⟨c, hc, _⟩ | ⟨q, hq, ho⟩ | ⟨a, ha⟩ | ⟨a, ha⟩ := portAt_cases hp
  · cases hc
  · cases hq
    exact ⟨ho, rfl⟩
  · cases ha
  · cases ha

/-- The access that reaches a control register (R33). -/
theorem accessAt_csr (p : Config.Params) {o : Nat} {c : Csr} (h : csrAt o = some c) :
    accessAt p o (unitWidth (.csr c)) = some (.csr c) :=
  accessAt_eq_some.mpr ⟨by rw [portAt, if_pos (csrAt_lt h), h]; rfl, rfl⟩

/-! ### What a host action does to the units of the block -/

/-- The registers, both sponges and the fault registers are in `t` what they are in `s`: what an access
leaves unchanged that is no command and no register write. -/
structure SameUnits (s t : State) : Prop where
  regs : SameRegs s t
  curl : SameCurl s t
  kerl : SameKerl s t
  cause : t.cause = s.cause
  info : t.info = s.info
  ecmd : t.ecmd = s.ecmd

theorem hostRead_sameUnits (o w : Nat) (s : State) : SameUnits s (hostRead o w s) := by
  unfold hostRead
  split <;> exact ⟨fun _ => rfl, ⟨rfl, rfl⟩, rfl, rfl, rfl, rfl⟩

theorem refuseAccess_sameUnits (s : State) : SameUnits s s.refuseAccess :=
  ⟨fun _ => rfl, ⟨rfl, rfl⟩, rfl, rfl, rfl, rfl⟩

theorem hostWriteT_sameUnits (a : Nat) (b : Byte) (s : State) : SameUnits s (hostWriteT a b s) := by
  unfold hostWriteT
  split <;> exact ⟨fun _ => rfl, ⟨rfl, rfl⟩, rfl, rfl, rfl, rfl⟩

/-- The ways in which a host action may come to change a unit of the block, each with the access that
does it: what `PortEffect` leaves open. -/
inductive UnitEffect (a : HostAction) (s : State) : State → Prop
  /-- `RST` -/
  | reset (ha : a = .assertReset) : UnitEffect a s s.afterReset
  /-- a write to a register -/
  | register (r : Reg) (v : Word) (ha : a = .write (0x080 + 8 * r.val) 64 v) :
      UnitEffect a s (s.setReg r v)
  /-- a command -/
  | command (v : Word) (i : Instr) (t : State) (ha : a = .write 0x000 32 v) (he : s.es = .ready)
      (hd : decode (v.setWidth 32) = .command i) (ht : Effect i s t) : UnitEffect a s t
  /-- a word that is no command -/
  | illegal (v : Word) (ha : a = .write 0x000 32 v) (he : s.es = .ready) :
      UnitEffect a s (s.enterFault (v.setWidth 32) .illegal (v.setWidth 32 : CommandWord).toNat)
  /-- any other action -/
  | none (t : State) (h : SameUnits s t) : UnitEffect a s t

theorem unitEffect_of_issueCommand {v : Word} {s t : State}
    (h : issueCommand (v.setWidth 32) s = .next t) : UnitEffect (.write 0x000 32 v) s t := by
  unfold issueCommand at h
  split at h
  · obtain rfl := Host.Outcome.next.inj h
    exact .none _ ⟨fun _ => rfl, ⟨rfl, rfl⟩, rfl, rfl, rfl, rfl⟩
  · next he =>
    split at h
    · next i hd => exact .command v i t rfl he hd (effect_of_exec h)
    · obtain rfl := Host.Outcome.next.inj h
      exact .illegal v rfl he

theorem unitEffect_of_performAction {a : HostAction} {s t : State}
    (h : performAction a s = .next t) : UnitEffect a s t := by
  cases a with
  | assertReset => obtain rfl := Host.Outcome.next.inj h; exact .reset rfl
  | read o w => obtain rfl := Host.Outcome.next.inj h; exact .none _ (hostRead_sameUnits o w s)
  | write o w v =>
    simp only [performAction, hostWrite] at h
    split at h
    · next c hc =>
      unfold hostWriteCsr at h
      split at h
      · obtain ⟨rfl, rfl⟩ := accessAt_cmd hc
        exact unitEffect_of_issueCommand h
      · obtain rfl := Host.Outcome.next.inj h
        exact .none _ ⟨fun _ => rfl, ⟨rfl, rfl⟩, rfl, rfl, rfl, rfl⟩
      · obtain rfl := Host.Outcome.next.inj h
        exact .none _ (refuseAccess_sameUnits s)
    · next r hr =>
      obtain ⟨rfl, rfl⟩ := accessAt_reg hr
      obtain rfl := Host.Outcome.next.inj h
      exact .register r v rfl
    · obtain rfl := Host.Outcome.next.inj h
      exact .none _ (hostWriteT_sameUnits _ _ s)
    · obtain rfl := Host.Outcome.next.inj h
      exact .none _ ⟨fun _ => rfl, ⟨rfl, rfl⟩, rfl, rfl, rfl, rfl⟩
    · obtain rfl := Host.Outcome.next.inj h
      exact .none _ (refuseAccess_sameUnits s)

/-! ### Who may write what -/

/-- Settles O31: only the two fault entries, of a command and of an illegal word, touch the fault
registers. -/
theorem faultRegistersKeepUntilNextFault : Obligations.FaultRegistersKeepUntilNextFault := by
  intro a s t hr h
  cases unitEffect_of_performAction h with
  | reset ha => exact absurd ha hr
  | register r v ha => exact .inl ⟨rfl, rfl, rfl⟩
  | none _ hs => exact .inl ⟨hs.cause, hs.info, hs.ecmd⟩
  | illegal v ha he =>
    obtain ⟨_, _, _, hf, _, _, hc⟩ := s.takesFault_enterFault (v.setWidth 32) .illegal
      (v.setWidth 32 : CommandWord).toNat
    exact .inr ⟨he, hf, by simp, hc, v, ha, rfl⟩
  | command v i _ ha he hd ht =>
    obtain ⟨c, n, hne, rfl⟩ | ⟨_, _, _, hcause, hinfo, hecmd⟩ := ht.fault_or_sameControl
    · obtain ⟨_, _, _, hf, _, _, hc⟩ := s.takesFault_enterFault (encode i) c n
      exact .inr ⟨he, hf, hne, hc, v, ha, encode_of_decode hd⟩
    · exact .inl ⟨hcause, hinfo, hecmd⟩

/-- Settles O32, by cases on the access that changes the register. -/
theorem registersHaveFourCommandWriters : Obligations.RegistersHaveFourCommandWriters := by
  intro a s t r h hne
  cases unitEffect_of_performAction h with
  | reset ha => exact .inl ha
  | register q v ha =>
    by_cases hq : r = q
    · exact .inr (.inl ⟨v, hq ▸ ha⟩)
    · exact absurd (s.reg_setReg_ne q r v hq) hne
  | none _ hs => exact absurd (hs.regs r) hne
  | illegal v ha he => exact absurd rfl hne
  | command v i _ ha he hd ht =>
    exact .inr (.inr ⟨he, v, i, ha, hd, registerWritten_eq_some (ht.registerWritten_of_ne hne)⟩)

/-- Settles O33: of all actions but reset only a command touches a sponge. -/
theorem spongesHaveTheirOwnWriters : Obligations.SpongesHaveTheirOwnWriters := by
  intro a s t h hr
  cases unitEffect_of_performAction h with
  | reset ha => exact absurd ha hr
  | register r v ha => exact ⟨absurd rfl, absurd rfl, absurd rfl⟩
  | none _ hs => exact ⟨absurd hs.curl.1, absurd hs.curl.2, absurd hs.kerl⟩
  | illegal v ha he => exact ⟨absurd rfl, absurd rfl, absurd rfl⟩
  | command v i _ ha he hd ht =>
    refine ⟨fun hne => ⟨v, i, ha, hd, ht.curlCommand_of_ne hne⟩, fun hne => ?_,
      fun hne => ⟨v, i, ha, hd, ht.kerlCommand_of_ne hne⟩⟩
    obtain ⟨imm20, rfl⟩ := ht.cinit_of_ne hne
    exact ⟨v, imm20, ha, hd⟩

/-! ### Hashing in contexts of its own (spec/10_state.md R31) -/

/-- The state `s` with the sponge units of `q`. -/
def State.withSpongesOf (s q : State) : State := { s with cs := q.cs, cr := q.cr, km := q.km }

@[simp] theorem State.withSpongesOf_uval (s q : State) (r : Reg) :
    (s.withSpongesOf q).uval r = s.uval r := rfl
@[simp] theorem State.withSpongesOf_sval (s q : State) (r : Reg) :
    (s.withSpongesOf q).sval r = s.sval r := rfl
@[simp] theorem inTM_withSpongesOf (s q : State) (a n : Nat) :
    inTM (s.withSpongesOf q) a n = inTM s a n := rfl

/-- Two states that differ in the sponge units alone are one state with two fillings of them. -/
theorem SameButSponges.eq_withSpongesOf {s s' : State} (h : SameButSponges s s') :
    s' = s.withSpongesOf s' := by
  obtain ⟨hparams, hx, htm, hbm, ⟨hes, hdrop, hherr, hcause, hinfo, hecmd⟩, hepoch, hpending,
    hreplies⟩ := h
  cases s'
  simp only at hparams hx htm hbm hes hdrop hherr hcause hinfo hecmd hepoch hpending hreplies
  subst hparams hx htm hbm hes hdrop hherr hcause hinfo hecmd hepoch hpending hreplies
  rfl

theorem State.sameButSponges_withSpongesOf (s q : State) : SameButSponges s (s.withSpongesOf q) :=
  ⟨rfl, rfl, rfl, rfl, ⟨rfl, rfl, rfl, rfl, rfl, rfl⟩, rfl, rfl, rfl⟩

/-- A checked command whose effect does not see the sponges does not see them as a whole: neither do its
checks nor fault entry. -/
theorem checked_withSpongesOf {i : Instr} {cs : List Check}
    {run : State → Host.Outcome State Fault Refusal} {s t : State} (q : State)
    (hrun : run s = .next t → run (s.withSpongesOf q) = .next (t.withSpongesOf q))
    (h : checked i cs run s = .next t) :
    checked i cs run (s.withSpongesOf q) = .next (t.withSpongesOf q) := by
  revert h
  unfold checked
  cases cs.find? Check.fails with
  | some c => exact fun h => Host.Outcome.next.inj h ▸ rfl
  | none => exact hrun

/-- A command that hashes in a context of its own does not read the sponge units. -/
theorem exec_withSpongesOf {i : Instr} {s t : State} (q : State) (hp : usesPrivateContext i = true)
    (h : exec i s = .next t) : exec i (s.withSpongesOf q) = .next (t.withSpongesOf q) := by
  cases i with
  | keygen | digests | address | sigdigest | sigfrag | validate =>
    dsimp only [exec, execKeygen, execDigests, execAddress, execSigdigest, execSigfrag, execValidate,
      State.withSpongesOf_uval, State.withSpongesOf_sval, inTM_withSpongesOf] at h ⊢
    refine checked_withSpongesOf q (fun hrun => ?_) h
    obtain rfl := Host.Outcome.next.inj hrun
    rfl
  | _ => cases hp

/-- Settles O34: the second state is the first with other sponges, which the command neither reads nor
writes. -/
theorem signingUsesPrivateContexts : Obligations.SigningUsesPrivateContexts := by
  intro i s s' hp hs
  obtain ⟨t, hx, ht⟩ := exec_effect i s
  obtain ⟨hcurl, hkerl⟩ := ht.sameSponges_of_usesPrivateContext hp
  refine ⟨t, t.withSpongesOf s', hx, ?_, t.sameButSponges_withSpongesOf s', hcurl, hkerl,
    ⟨rfl, rfl⟩, rfl⟩
  rw [hs.eq_withSpongesOf]
  exact exec_withSpongesOf s' hp hx

/-! ### The control registers -/

/-- Settles O30. -/
theorem ackClearsSelectedBits : Obligations.AckClearsSelectedBits := by
  intro v s
  have hacc : accessAt s.params 0x010 64 = some (.csr .ack) := accessAt_csr s.params (c := .ack) rfl
  have hack : step (s.withNext (.write 0x010 64 v)) = .next (s.acknowledge v) := by
    rw [step_withNext, performAction, hostWrite, hacc]
    rfl
  exact ⟨_, hack, rfl, rfl, rfl, rfl, rfl, rfl,
    ⟨fun _ => rfl, fun _ => rfl, fun _ => rfl, ⟨rfl, rfl⟩, rfl, ⟨rfl, rfl, rfl, rfl⟩⟩⟩

/-- A read of a control register that can be read answers its value. -/
theorem answers_csr (s : State) {o : Nat} {c : Csr} {v : Word} (ho : csrAt o = some c)
    (hv : hostReadCsr s c = some v) : Answers s (.read o (unitWidth (.csr c))) v := by
  rw [Answers, step_withNext, performAction, hostRead, accessAt_csr s.params ho, Option.bind_some,
    portRead, hv]
  rfl

/-- The three bits of `STATUS` (R34). -/
theorem statusBits (err drop herr : Bool) :
    (BitVec.ofNat 64 (bitOf err + 2 * bitOf drop + 4 * bitOf herr)).toNat < 8
      ∧ (BitVec.ofNat 64 (bitOf err + 2 * bitOf drop + 4 * bitOf herr)).getLsbD 0 = err
      ∧ (BitVec.ofNat 64 (bitOf err + 2 * bitOf drop + 4 * bitOf herr)).getLsbD 1 = drop
      ∧ (BitVec.ofNat 64 (bitOf err + 2 * bitOf drop + 4 * bitOf herr)).getLsbD 2 = herr := by
  decide +revert

theorem State.status_bits (s : State) :
    s.status.toNat < 8 ∧ s.status.getLsbD 0 = decide (s.es = .faulted)
      ∧ s.status.getLsbD 1 = s.drop ∧ s.status.getLsbD 2 = s.herr :=
  statusBits (s.es == .faulted) s.drop s.herr

/-- The codes of the causes count them from 0 in the order of R261. -/
theorem causeCode_getElem? (c : Cause) :
    [Cause.noFault, .illegal, .addr, .symbol, .len3, .len243, .len48, .codeUnit, .lenOdd, .offset,
      .noHash, .intRange, .length][(BitVec.ofNat 64 (causeCode c)).toNat]? = some c := by
  cases c <;> rfl

/-- Settles O37, register by register. -/
theorem controlRegistersReadTheState : Obligations.ControlRegistersReadTheState := by
  intro s
  have hecmd : (s.ecmd.setWidth 64).toNat = s.ecmd.toNat := by
    rw [BitVec.toNat_setWidth_of_le (by decide)]
  have hcr : (s.cr.setWidth 64).toNat = s.cr.toNat := by
    rw [BitVec.toNat_setWidth_of_le (by decide)]
  exact ⟨⟨_, answers_csr s (c := .status) rfl rfl, s.status_bits⟩,
    ⟨_, answers_csr s (c := .cause) rfl rfl, causeCode_getElem? s.cause⟩,
    answers_csr s (c := .info) rfl rfl,
    ⟨_, answers_csr s (c := .ecmd) rfl rfl, hecmd⟩,
    ⟨_, answers_csr s (c := .crounds) rfl rfl, hcr⟩,
    ⟨_, answers_csr s (c := .klen) rfl rfl, BitVec.toNat_ofNat _ _⟩,
    ⟨_, answers_csr s (c := .cfgNt) rfl rfl, BitVec.toNat_ofNat _ _⟩,
    ⟨_, answers_csr s (c := .cfgNb) rfl rfl, BitVec.toNat_ofNat _ _⟩⟩

/-! ### Reset -/

theorem State.reg_of_x_zero {s : State} (h : s.x = Vector.replicate 16 0) (r : Reg) : s.reg r = 0 := by
  simp [State.reg, h]

theorem zeroCurl_getElem (i : Fin 729) : zeroCurl[i] = .zero := by
  simp [zeroCurl]

/-- Settles O43. -/
theorem resetLeavesTheTableValues : Obligations.ResetLeavesTheTableValues := by
  refine ⟨State.reg_of_x_zero rfl, zeroCurl_getElem, rfl, rfl, rfl, rfl, rfl, rfl, rfl, fun s => ?_⟩
  exact ⟨s.afterReset, rfl, State.reg_of_x_zero rfl, zeroCurl_getElem, rfl, rfl, rfl, rfl, rfl, rfl, rfl,
    fun _ => rfl, fun _ => rfl, Nat.succ_ne_self s.epoch, rfl⟩

end Sys2Proof.Machine
end

section
/-! SUPPORT. The statements of spec/20_memory.md: the host port. First the map and the trits of the T window,
then what an access does once it is known what it reaches, and last the statements. -/

namespace Sys2Proof.Machine

open Sys2Proof

/-! ### The map lists what an access reaches (R80) -/

/-- The control registers stand at the first ten multiples of 8 (R33). -/
theorem csrAt_offset {o : Nat} {c : Csr} (h : csrAt o = some c) : o % 8 = 0 ∧ o < 0x50 := by
  unfold csrAt at h
  split at h
  all_goals cases h <;> decide

theorem unitWidth_csr_of_ne_cmd {c : Csr} (h : c ≠ .cmd) : unitWidth (.csr c) = 64 := by
  cases c with
  | cmd => exact absurd rfl h
  | _ => rfl

theorem listed_csr (p : Config.Params) {o : Nat} {c : Csr} (h : csrAt o = some c) :
    Listed p o (unitWidth (.csr c)) := by
  by_cases hc : c = .cmd
  · subst hc
    exact .inl ⟨csrAt_eq_cmd h, rfl⟩
  · have ho : o ≠ 0 := by
      rintro rfl
      exact hc (Option.some.inj h).symm
    obtain ⟨hmod, hlt⟩ := csrAt_offset h
    exact .inr (.inl ⟨o / 8, by omega, by omega, by omega, unitWidth_csr_of_ne_cmd hc⟩)

/-- Nothing is reached that the map does not list. -/
theorem listed_of_accessAt {p : Config.Params} {o w : Nat} {port : Port}
    (h : accessAt p o w = some port) : Listed p o w := by
  cases port with
  | csr c =>
    obtain ⟨hp, rfl⟩ := accessAt_eq_some.mp h
    obtain ⟨_, hc, ho⟩ | ⟨_, hr, _⟩ | ⟨_, ha⟩ | ⟨_, ha⟩ := portAt_cases hp
    · cases hc
      exact listed_csr p ho
    · cases hr
    · cases ha
    · cases ha
  | reg r =>
    obtain ⟨ho, hw⟩ := accessAt_reg h
    exact .inr (.inr (.inl ⟨r.val, r.isLt, ho, hw⟩))
  | trit a =>
    obtain ⟨ha, ho, hw⟩ := accessAt_trit h
    exact .inr (.inr (.inr (.inl ⟨a, ha, ho, hw⟩)))
  | byte a =>
    obtain ⟨ha, ho, hw⟩ := accessAt_byte h
    exact .inr (.inr (.inr (.inr ⟨a, ha, ho, hw⟩)))

theorem accessAt_of_not_listed {p : Config.Params} {o w : Nat} (h : ¬ Listed p o w) :
    accessAt p o w = none :=
  Option.eq_none_iff_forall_ne_some.mpr fun _ hp => h (listed_of_accessAt hp)

/-! ### Trits as bytes (R83) -/

/-- A byte stands for a trit exactly when it is the byte of that trit. -/
theorem byteTrit_eq_some {b : Byte} {u : Trit} : byteTrit b = some u ↔ b = tritByte u := by
  constructor
  · intro h
    unfold byteTrit at h
    split_ifs at h with h0 h1 h2
    all_goals obtain rfl := Option.some.inj h
    · exact h0
    · exact h1
    · exact h2
  · rintro rfl
    cases u <;> rfl

theorem byteTrit_eq_none {b : Byte} : byteTrit b = none ↔ ∀ u, b ≠ tritByte u := by
  simp only [Option.eq_none_iff_forall_ne_some, ne_eq, byteTrit_eq_some]

theorem hostWriteT_tritByte (a : Nat) (u : Trit) (s : State) :
    hostWriteT a (tritByte u) s = s.writeT a [u] := by
  rw [hostWriteT, byteTrit_eq_some.mpr rfl]

theorem hostWriteT_of_not_trit (a : Nat) {b : Byte} (s : State) (h : ∀ u, b ≠ tritByte u) :
    hostWriteT a b s = s.refuseAccess := by
  rw [hostWriteT, byteTrit_eq_none.mpr h]

/-! ### A single cell written (R69) -/

@[simp] theorem State.tmAt_writeT_singleton (s : State) (a : Nat) (u : Trit) :
    (s.writeT a [u]).tmAt a = u :=
  s.tmAt_writeT_inside a [u] 0 Nat.one_pos

@[simp] theorem State.bmAt_writeB_singleton (s : State) (a : Nat) (u : Byte) :
    (s.writeB a [u]).bmAt a = u :=
  s.bmAt_writeB_inside a [u] 0 Nat.one_pos

theorem State.tmAt_writeT_singleton_ne (s : State) {a b : Nat} (u : Trit) (h : b ≠ a) :
    (s.writeT a [u]).tmAt b = s.tmAt b :=
  (s.onlyTM_writeT a 1 [u] rfl).tm b (by omega)

theorem State.bmAt_writeB_singleton_ne (s : State) {a b : Nat} (u : Byte) (h : b ≠ a) :
    (s.writeB a [u]).bmAt b = s.bmAt b :=
  (s.onlyBM_writeB a 1 [u] rfl).bm b (by omega)

/-! ### What a read answers -/

/-- A read of a port that has the value `u` returns `u` and nothing else. -/
theorem answers_iff {s : State} {o w : Nat} {port : Port} {u v : Word}
    (h : accessAt s.params o w = some port) (hu : portRead s port = some u) :
    Answers s (.read o w) v ↔ v = u := by
  have hread : step (s.withNext (.read o w)) = .next (s.reply u) := by
    rw [step_withNext, performAction, hostRead, h, Option.bind_some, hu]
  rw [Answers, hread]
  constructor
  · intro e
    have hreplies := congrArg State.replies (Host.Outcome.next.inj e)
    exact (List.cons.inj hreplies).1.symm
  · rintro rfl
    rfl

theorem answers_register (s : State) (r : Reg) {v : Word} :
    Answers s (.read (0x080 + 8 * r.val) 64) v ↔ v = s.reg r :=
  answers_iff (accessAt_register s.params r) rfl

theorem answers_tritWindow {s : State} {a : Nat} {v : Word} (h : a < s.params.nt) :
    Answers s (.read (0x100000 + a) 8) v ↔ v = (tritByte (s.tmAt a)).setWidth 64 :=
  answers_iff (accessAt_tritWindow s.params a h) rfl

theorem answers_byteWindow {s : State} {a : Nat} {v : Word} (hn : s.params.nt ≤ Config.windowLimit)
    (h : a < s.params.nb) :
    Answers s (.read (0x200000 + a) 8) v ↔ v = (s.bmAt a).setWidth 64 :=
  answers_iff (accessAt_byteWindow s.params a hn h) rfl

/-! ### A read after a write of the same window (R69, R70) -/

theorem answers_writeT_same {s : State} {a : Nat} (u : Trit) (h : a < s.params.nt) :
    Answers (s.writeT a [u]) (.read (0x100000 + a) 8) ((tritByte u).setWidth 64) := by
  rw [answers_tritWindow (s := s.writeT a [u]) h, s.tmAt_writeT_singleton]

theorem answers_writeT_ne {s : State} {a b : Nat} {v : Word} (u : Trit) (h : b < s.params.nt)
    (hne : b ≠ a) :
    Answers (s.writeT a [u]) (.read (0x100000 + b) 8) v ↔ Answers s (.read (0x100000 + b) 8) v := by
  rw [answers_tritWindow (s := s.writeT a [u]) h, answers_tritWindow h,
    s.tmAt_writeT_singleton_ne u hne]

theorem answers_writeB_same {s : State} {a : Nat} (u : Byte)
    (hn : s.params.nt ≤ Config.windowLimit) (h : a < s.params.nb) :
    Answers (s.writeB a [u]) (.read (0x200000 + a) 8) (u.setWidth 64) := by
  rw [answers_byteWindow (s := s.writeB a [u]) hn h, s.bmAt_writeB_singleton]

theorem answers_writeB_ne {s : State} {a b : Nat} {v : Word} (u : Byte)
    (hn : s.params.nt ≤ Config.windowLimit) (h : b < s.params.nb) (hne : b ≠ a) :
    Answers (s.writeB a [u]) (.read (0x200000 + b) 8) v ↔ Answers s (.read (0x200000 + b) 8) v := by
  rw [answers_byteWindow (s := s.writeB a [u]) hn h, answers_byteWindow hn h,
    s.bmAt_writeB_singleton_ne u hne]

/-! ### What is refused (R84), and what a write does -/

/-- A read is refused where there is no port, or a port with no value. -/
theorem refusesRead_of_none {s : State} {o w : Nat}
    (h : (accessAt s.params o w).bind (portRead s) = none) : RefusesRead s (.read o w) := by
  rw [RefusesRead, step_withNext, performAction, hostRead, h]
  rfl

theorem refusesRead_csr (s : State) {o : Nat} {c : Csr} (ho : csrAt o = some c)
    (hv : hostReadCsr s c = none) : RefusesRead s (.read o (unitWidth (.csr c))) :=
  refusesRead_of_none (by rw [accessAt_csr s.params ho, Option.bind_some, portRead, hv])

theorem step_write (o w : Nat) (v : Word) (s : State) :
    step (s.withNext (.write o w v)) = hostWrite o w v s := rfl

theorem step_writeRegister (r : Reg) (v : Word) (s : State) :
    step (s.withNext (.write (0x080 + 8 * r.val) 64 v)) = .next (s.setReg r v) := by
  rw [step_write, hostWrite, accessAt_register]
  rfl

/-- An 8-bit write carries the byte that was widened to make its value (R80). -/
theorem narrow_widen (b : Byte) : ((b.setWidth 64 : Word).setWidth 8 : Byte) = b := by
  rw [BitVec.setWidth_setWidth_of_le b (by decide), BitVec.setWidth_eq]

theorem step_writeTritWindow {a : Nat} (b : Byte) {s : State} (h : a < s.params.nt) :
    step (s.withNext (.write (0x100000 + a) 8 (b.setWidth 64))) = .next (hostWriteT a b s) := by
  rw [step_write, hostWrite, accessAt_tritWindow s.params a h]
  dsimp only
  rw [narrow_widen]

theorem step_writeByteWindow {a : Nat} (b : Byte) {s : State}
    (hn : s.params.nt ≤ Config.windowLimit) (h : a < s.params.nb) :
    step (s.withNext (.write (0x200000 + a) 8 (b.setWidth 64))) = .next (s.writeB a [b]) := by
  rw [step_write, hostWrite, accessAt_byteWindow s.params a hn h]
  dsimp only
  rw [narrow_widen, hostWriteB]

/-- Every control register but `CMD` and `ACK` is read-only (R33). -/
theorem hostWriteCsr_of_readOnly {c : Csr} (v : Word) (s : State) (hcmd : c ≠ .cmd)
    (hack : c ≠ .ack) : hostWriteCsr c v s = .next s.refuseAccess := by
  cases c with
  | cmd => exact absurd rfl hcmd
  | ack => exact absurd rfl hack
  | _ => rfl

theorem refusesWrite_csr {o : Nat} {c : Csr} (v : Word) (s : State) (ho : csrAt o = some c)
    (hcmd : c ≠ .cmd) (hack : c ≠ .ack) : RefusesWrite s (.write o 64 v) := by
  have hacc := accessAt_csr s.params ho
  rw [unitWidth_csr_of_ne_cmd hcmd] at hacc
  rw [RefusesWrite, step_write, hostWrite, hacc]
  exact hostWriteCsr_of_readOnly v s hcmd hack

theorem refusesWrite_of_not_listed {s : State} {o w : Nat} (v : Word)
    (h : ¬ Listed s.params o w) : RefusesWrite s (.write o w v) := by
  rw [RefusesWrite, step_write, hostWrite, accessAt_of_not_listed h]
  rfl

/-- The control registers from `CAUSE` on are read-only (R33, R35 to R40). -/
theorem csrAt_readOnly {k : Nat} (h3 : 3 ≤ k) (h9 : k ≤ 9) :
    ∃ c, csrAt (8 * k) = some c ∧ c ≠ .cmd ∧ c ≠ .ack := by
  interval_cases k <;> exact ⟨_, rfl, by decide, by decide⟩

/-! ### The statements -/

/-- Settles O38. -/
theorem registerPortReadsAndWrites : Obligations.RegisterPortReadsAndWrites := by
  intro r v s
  exact ⟨(answers_register s r).mpr rfl, s.setReg r v, step_writeRegister r v s,
    s.reg_setReg_same r v, s.onlyReg_setReg r v⟩

/-- Settles O39: a byte is written as the trit it stands for, and one that stands for none is refused. -/
theorem tritWindowHoldsOnlyTrits : Obligations.TritWindowHoldsOnlyTrits := by
  intro a s ha
  refine ⟨⟨_, (answers_tritWindow ha).mpr rfl, ?_⟩, fun b => ⟨fun u hb => ?_, fun h0 h1 hFF => ?_⟩⟩
  · rw [BitVec.toNat_setWidth_of_le (by decide)]
    cases s.tmAt a <;> rfl
  · obtain rfl : b = tritByte u := BitVec.eq_of_toNat_eq (hb.trans (by cases u <;> rfl))
    refine ⟨s.writeT a [u], ?_, s.tmAt_writeT_singleton a u, s.onlyTM_writeT a 1 [u] rfl⟩
    rw [step_writeTritWindow _ ha, hostWriteT_tritByte]
  · have hb : ∀ u, b ≠ tritByte u := by
      rintro u rfl
      cases u with
      | zero => exact h0 rfl
      | pos => exact h1 rfl
      | neg => exact hFF rfl
    rw [RefusesWrite, step_writeTritWindow b ha, hostWriteT_of_not_trit a s hb]
    rfl

/-- Settles O40. -/
theorem byteWindowReadsAndWrites : Obligations.ByteWindowReadsAndWrites := by
  intro a b s hn ha
  exact ⟨⟨_, (answers_byteWindow hn ha).mpr rfl, BitVec.toNat_setWidth_of_le (by decide)⟩,
    s.writeB a [b], step_writeByteWindow b hn ha, s.bmAt_writeB_singleton a b,
    s.onlyBM_writeB a 1 [b] rfl⟩

/-- Settles O41: an access the map does not list reaches nothing, and a control register that is reached
against its direction refuses. -/
theorem unlistedAccessesAreRefused : Obligations.UnlistedAccessesAreRefused := by
  intro offset width v s
  refine ⟨fun h => ⟨refusesRead_of_none ?_, refusesWrite_of_not_listed v h⟩,
    refusesRead_csr s (c := .cmd) rfl rfl, refusesRead_csr s (c := .ack) rfl rfl,
    refusesWrite_csr v s (c := .status) rfl (by decide) (by decide), fun k h3 h9 => ?_⟩
  · rw [accessAt_of_not_listed h, Option.bind_none]
  · obtain ⟨c, ho, hcmd, hack⟩ := csrAt_readOnly h3 h9
    exact refusesWrite_csr v s ho hcmd hack

/-- Settles O42: a write through a window changes one cell, and a read answers the cell alone. -/
theorem windowsReadBackWhatWasWritten : Obligations.WindowsReadBackWhatWasWritten := by
  constructor
  · intro a u s ha
    refine ⟨s.writeT a [u], ?_, answers_writeT_same u ha, fun b v hb hne =>
      (answers_writeT_ne u hb hne).mpr⟩
    rw [step_writeTritWindow _ ha, hostWriteT_tritByte]
  · intro a u s hn ha
    exact ⟨s.writeB a [u], step_writeByteWindow u hn ha, answers_writeB_same u hn ha,
      fun b v hb hne => (answers_writeB_ne u hn hb hne).mpr⟩

end Sys2Proof.Machine
end

section
/-! SUPPORT. The statements of spec/30_encoding.md: the decoder against the encoder, and against the masks
of the opcode map. Then what an illegal word does at the port. -/

namespace Sys2Proof.Machine

open Sys2Proof Sys2Proof.Laws

/-! ### Decoding and encoding (R97) -/

/-- The decoder reads back every command the encoder may write. -/
theorem decode_encode {i : Instr} (h : i.wellFormed = true) : decode (encode i) = .command i := by
  cases i with
  | li ra imm20 => exact RoundTrip.li ra imm20 h
  | try2t ra rb rc => exact RoundTrip.try2t ra rb rc h
  | int2t ra rb rc => exact RoundTrip.int2t ra rb rc h
  | t2try ra rb rc => exact RoundTrip.t2try ra rb rc h
  | t2int ra rb rc => exact RoundTrip.t2int ra rb rc h
  | str2try ra rb rc => exact RoundTrip.str2try ra rb rc h
  | try2str ra rb rc => exact RoundTrip.try2str ra rb rc h
  | t2b ra rb rc => exact RoundTrip.t2b ra rb rc h
  | b2t ra rb rc => exact RoundTrip.b2t ra rb rc h
  | tadd ra rb rc rd re => exact RoundTrip.tadd ra rb rc rd re h
  | cinit imm20 => exact RoundTrip.cinit imm20 h
  | creset => exact RoundTrip.creset h
  | cxform => exact RoundTrip.cxform h
  | cabsorb ra rb rc => exact RoundTrip.cabsorb ra rb rc h
  | csqueeze ra rb rc => exact RoundTrip.csqueeze ra rb rc h
  | kreset => exact RoundTrip.kreset h
  | kabsorb ra rb rc => exact RoundTrip.kabsorb ra rb rc h
  | ksqueeze ra rb rc => exact RoundTrip.ksqueeze ra rb rc h
  | keygen ra rb rc rd re => exact RoundTrip.keygen ra rb rc rd re h
  | digests ra rb rc => exact RoundTrip.digests ra rb rc h
  | address ra rb rc => exact RoundTrip.address ra rb rc h
  | sigdigest ra rb rc => exact RoundTrip.sigdigest ra rb rc h
  | sigfrag ra rb rc => exact RoundTrip.sigfrag ra rb rc h
  | normalize ra rb => exact RoundTrip.normalize ra rb h
  | validate ra rb rc rd re rf => exact RoundTrip.validate ra rb rc rd re rf h

theorem ifZeroFrom_eq_command_iff {w : CommandWord} {lo : Nat} {c i : Instr} :
    ifZeroFrom w lo c = .command i ↔ w.toNat / 2 ^ lo = 0 ∧ c = i := by
  refine ⟨ifZeroFrom_eq_command, ?_⟩
  rintro ⟨hz, rfl⟩
  rw [ifZeroFrom, if_pos hz]

/-- What `CINIT` requires of a word beside the opcode (R92, R94, R98). -/
theorem decodeCinit_eq_command_iff {w : CommandWord} {i : Instr} :
    decodeCinit w = .command i
      ↔ (regAt w 8 = 0 ∧ (imm20Of w).toNat ≤ 255) ∧ Instr.cinit (imm20Of w) = i := by
  by_cases ha : regAt w 8 = 0 <;> by_cases hi : (imm20Of w).toNat ≤ 255 <;> simp [decodeCinit, ha, hi]

/-- The one check beyond the field widths is the one `decodeCinit` makes. -/
theorem wellFormed_of_decode {w : CommandWord} {i : Instr} (h : decode w = .command i) :
    i.wellFormed = true := by
  cases i with
  | cinit imm20 =>
    rw [← encode_of_decode h] at h
    simp only [decode, encode, opcodeOf_wordI 0x30 0 imm20 (by decide)] at h
    obtain ⟨⟨_, hle⟩, _⟩ := decodeCinit_eq_command_iff.mp h
    rw [imm20Of_wordI 0x30 0 imm20 (by decide)] at hle
    exact decide_eq_true hle
  | _ => rfl

/-- Settles O46: `encode_of_decode` and `wellFormed_of_decode` one way, `decode_encode` the other. -/
theorem decodeAndEncodeAgree : Obligations.DecodeAndEncodeAgree := by
  intro w i
  refine ⟨fun h => ⟨wellFormed_of_decode h, (encode_of_decode h).symm⟩, ?_⟩
  rintro ⟨hwf, rfl⟩
  exact decode_encode hwf

theorem decode_of_eq_encode {w : CommandWord} {i : Instr} (hwf : i.wellFormed = true)
    (hw : w = encode i) : decode w = .command i :=
  (decodeAndEncodeAgree w i).mpr ⟨hwf, hw⟩

/-- Settles O48: each legal word is the encoding of its command. -/
theorem sampleWordsDecode : Obligations.SampleWordsDecode := by
  refine ⟨?_, ?_, ?_, ?_, ?_, ?_, ?_, ?_, ?_, ?_, ?_, ?_, by decide, by decide, by decide, by decide⟩
  all_goals exact decode_of_eq_encode rfl rfl

/-! ### The rows of the opcode map (R97) -/

/-- The row of the opcode map with the opcode `op`, if there is one. -/
def rowOfOpcode (op : Nat) : Option OpcodeRow := opcodeTable.find? fun row => op == row.pattern.toNat

/-- No two rows have the same opcode, so each row is found by its own. -/
theorem rowOfOpcode_pattern {row : OpcodeRow} (h : row ∈ opcodeTable) :
    rowOfOpcode row.pattern.toNat = some row := by
  revert row
  decide

theorem rowOfOpcode_eq_some {op : Nat} {row : OpcodeRow} (h : rowOfOpcode op = some row) :
    row ∈ opcodeTable ∧ op = row.pattern.toNat :=
  ⟨List.mem_of_find?_eq_some h, by simpa using List.find?_some h⟩

/-- Every mask covers the opcode byte, and a pattern has no bit outside it. -/
theorem opcodeTable_lowByte :
    ∀ row ∈ opcodeTable, row.mask.toNat % 2 ^ 8 = 2 ^ 8 - 1 ∧ row.pattern.toNat < 2 ^ 8 := by
  decide

/-- A row selects words of its own opcode only. -/
theorem opcodeOf_of_selected {w : CommandWord} {row : OpcodeRow} (hr : row ∈ opcodeTable)
    (h : w &&& row.mask = row.pattern) : opcodeOf w = row.pattern.toNat := by
  obtain ⟨hmask, hpat⟩ := opcodeTable_lowByte row hr
  calc opcodeOf w = w.toNat % 2 ^ 8 := rfl
    _ = w.toNat % 2 ^ 8 &&& row.mask.toNat % 2 ^ 8 := by
      rw [hmask, Nat.and_two_pow_sub_one_eq_mod, Nat.mod_mod]
    _ = (w &&& row.mask).toNat % 2 ^ 8 := by rw [BitVec.toNat_and, Nat.and_mod_two_pow]
    _ = row.pattern.toNat := by rw [h, Nat.mod_eq_of_lt hpat]

/-- The only row that can select a word is the row of its opcode. -/
theorem exists_selected_iff (w : CommandWord) (m : String) :
    (∃ row ∈ opcodeTable, row.mnemonic = m ∧ w &&& row.mask = row.pattern)
      ↔ ∃ row, rowOfOpcode (opcodeOf w) = some row ∧ row.mnemonic = m
          ∧ w &&& row.mask = row.pattern := by
  constructor
  · rintro ⟨row, hr, hm, hsel⟩
    exact ⟨row, opcodeOf_of_selected hr hsel ▸ rowOfOpcode_pattern hr, hm, hsel⟩
  · rintro ⟨row, hr, hm, hsel⟩
    exact ⟨row, (rowOfOpcode_eq_some hr).1, hm, hsel⟩

/-! ### The decoder against the row of the opcode (R97, R98) -/

/-- The mask `M` is the opcode byte and every bit from `lo` up. -/
def MaskZeroFrom (M : CommandWord) (lo : Nat) : Prop :=
  8 ≤ lo ∧ lo ≤ 32 ∧ M.toNat % 2 ^ 8 = 2 ^ 8 - 1 ∧ M.toNat / 2 ^ 8 % 2 ^ (lo - 8) = 0
    ∧ M.toNat / 2 ^ lo = 2 ^ (32 - lo) - 1

/-- `d`, what `w` decodes to, is a command of the mnemonic `m` exactly when the row of `w`'s opcode has
that mnemonic and selects `w`. -/
def AgreesWithRow (w : CommandWord) (m : String) (d : Decoded) : Prop :=
  (∃ i, d = .command i ∧ mnemonicOf i = m)
    ↔ ∃ row, rowOfOpcode (opcodeOf w) = some row ∧ row.mnemonic = m ∧ w &&& row.mask = row.pattern

/-- A word that is the command `c` under the condition that its row's mask tests. -/
theorem agreesWithRow_of_iff {w : CommandWord} {m : String} {d : Decoded} {c : Instr} {p : Prop}
    {row : OpcodeRow} (hrow : rowOfOpcode (opcodeOf w) = some row)
    (hname : row.mnemonic = mnemonicOf c) (hd : ∀ i, d = .command i ↔ p ∧ c = i)
    (hsel : w &&& row.mask = row.pattern ↔ p) : AgreesWithRow w m d := by
  simp only [AgreesWithRow, hrow, hd, Option.some.injEq, exists_eq_left', hname, hsel]
  constructor
  · rintro ⟨i, ⟨hp, rfl⟩, hm⟩
    exact ⟨hm, hp⟩
  · rintro ⟨hm, hp⟩
    exact ⟨c, ⟨hp, rfl⟩, hm⟩

/-- The commands whose row tests that the fields they do not use are 0. -/
theorem agreesWithRow_ifZeroFrom {w : CommandWord} {m : String} {c : Instr} {lo op : Nat}
    {row : OpcodeRow} (ho : opcodeOf w = op) (hrow : rowOfOpcode op = some row)
    (hname : row.mnemonic = mnemonicOf c) (hmask : MaskZeroFrom row.mask lo) :
    AgreesWithRow w m (ifZeroFrom w lo c) := by
  obtain ⟨hr, hop⟩ := rowOfOpcode_eq_some hrow
  obtain ⟨h8, h32, hlow, hmid, hhigh⟩ := hmask
  refine agreesWithRow_of_iff (ho ▸ hrow) hname (fun i => ifZeroFrom_eq_command_iff) ?_
  rw [word_mask_iff lo _ _ h8 h32 hlow hmid hhigh (opcodeTable_lowByte row hr).2 w, ho, hop]
  exact and_iff_right rfl

/-- The commands that use every bit: their row tests the opcode alone. -/
theorem agreesWithRow_command {w : CommandWord} {m : String} {c : Instr} {op : Nat} {row : OpcodeRow}
    (ho : opcodeOf w = op) (hrow : rowOfOpcode op = some row)
    (hname : row.mnemonic = mnemonicOf c) (hmask : row.mask = 0xFF) :
    AgreesWithRow w m (.command c) := by
  obtain ⟨hr, hop⟩ := rowOfOpcode_eq_some hrow
  refine agreesWithRow_of_iff (p := True) (ho ▸ hrow) hname (fun i => by simp) ?_
  rw [hmask, opcode_mask_iff w _ (opcodeTable_lowByte row hr).2, ho, hop]
  exact iff_true_intro rfl

theorem agreesWithRow_cinit {w : CommandWord} {m : String} (ho : opcodeOf w = 0x30) :
    AgreesWithRow w m (decodeCinit w) := by
  refine agreesWithRow_of_iff (row := ⟨"CINIT", 0x30, 0xFFF00FFF⟩) (ho ▸ rfl) rfl
    (fun i => decodeCinit_eq_command_iff) ?_
  rw [cinit_mask_iff, ho]
  exact and_iff_right rfl

/-- A word whose opcode no row has is no command and is selected by no row. -/
theorem agreesWithRow_illegal {w : CommandWord} {m : String} {why : IllegalWord}
    (h : rowOfOpcode (opcodeOf w) = none) : AgreesWithRow w m (.illegal why) := by
  simp [AgreesWithRow, h]

theorem agreesWithRow_decode (w : CommandWord) (m : String) : AgreesWithRow w m (decode w) := by
  unfold decode
  dsimp only
  split
  case h_1 ho => exact agreesWithRow_command ho rfl rfl rfl
  case h_25 ho => exact agreesWithRow_command ho rfl rfl rfl
  case h_11 ho => exact agreesWithRow_cinit ho
  case h_26 =>
    refine agreesWithRow_illegal (List.find?_eq_none.mpr ?_)
    simp_all [opcodeTable]
  -- the other commands of formats R and Z
  all_goals
    next ho => exact agreesWithRow_ifZeroFrom ho rfl rfl (by unfold MaskZeroFrom; decide)

/-- Settles O47: of all rows only that of the opcode can select the word, and with it the decoder agrees
opcode by opcode. -/
theorem masksSelectTheCommands : Obligations.MasksSelectTheCommands := by
  intro w m
  rw [exists_selected_iff]
  exact agreesWithRow_decode w m

/-! ### Illegal words at the port (R98) -/

/-- A command word reaches the decoder as it is (R42). -/
theorem step_commandAction (w : CommandWord) (s : State) :
    step (s.withNext (commandAction w)) = issueCommand w s := by
  have hacc : accessAt s.params 0x000 32 = some (.csr .cmd) := accessAt_csr s.params (c := .cmd) rfl
  have hw : ((w.setWidth 64 : Word).setWidth 32 : CommandWord) = w := by
    rw [BitVec.setWidth_setWidth_of_le w (by decide), BitVec.setWidth_eq]
  rw [commandAction, step_write, hostWrite, hacc]
  dsimp only
  rw [hostWriteCsr, hw]

theorem issueCommand_of_illegal {w : CommandWord} {why : IllegalWord} {s : State} (hs : s.es = .ready)
    (hd : decode w = .illegal why) :
    issueCommand w s = .next (s.enterFault w .illegal w.toNat) := by
  simp only [issueCommand, hs, hd]

/-- Settles O28. -/
theorem illegalWordsRaiseIllegal : Obligations.IllegalWordsRaiseIllegal := by
  intro w why s hs hd
  refine ⟨_, ?_, s.takesFault_enterFault w .illegal w.toNat⟩
  rw [step_commandAction, issueCommand_of_illegal hs hd]

end Sys2Proof.Machine
end

section
/-! SUPPORT. The statements of spec/40_codec.md: the codec. First the laws of the tryte table, of minimal
sequences and of the binary bridge, then what a region reads as after a write of equal parts, then one
equation for each command whose checks pass, and last the statements about commands. -/

namespace Sys2Proof.Machine

open Sys2Proof

/-! ### The tryte table (R111, R112) -/

theorem symbolAt_toNat {k : Nat} (h : k < 27) :
    (symbolAt k).toNat = if k = 0 then 0x39 else 0x40 + k := by
  revert k; decide

theorem btValue_tripleOf_symbolAt {k : Nat} (h : k < 27) :
    btValue (tripleOf (symbolAt k)) = if k ≤ 13 then (k : Int) else k - 27 := by
  revert k; decide

/-- The alphabet is the 27 symbols of the table. -/
theorem inAlphabet_iff_symbolAt {c : Byte} : inAlphabet c = true ↔ ∃ k, k < 27 ∧ symbolAt k = c := by
  constructor
  · exact fun h => ⟨symIndex c, symIndex_lt h, symbolAt_symIndex h⟩
  · rintro ⟨k, hk, rfl⟩
    exact symbolAt_inAlphabet hk

/-- Settles O49, row by row of the table and triple by triple. -/
theorem tryteTableIsBalancedTernary : Obligations.TryteTableIsBalancedTernary :=
  ⟨fun _ hk => ⟨symbolAt_toNat hk, symIndex_symbolAt hk, tripleOf_length _, btValue_tripleOf_symbolAt hk⟩,
    fun t0 t1 t2 =>
      ⟨tryteOf_inAlphabet t0 t1 t2, tripleOf_tryteOf t0 t1 t2, tryteValue_eq_btValue t0 t1 t2⟩,
    fun _ => inAlphabet_iff_symbolAt⟩

/-! ### Minimal sequences (R114) -/

/-- What makes a sequence the minimal one of its value: its last trit, if it has one, is not 0. -/
def MinimalTrits (t : List Trit) : Prop := ∀ h : t ≠ [], t.getLast h ≠ .zero

theorem minimalTrits_intToTrits (v : Int) : MinimalTrits (intToTrits v) := fun h =>
  intToTrits_getLast fun h0 => h (by rw [h0, intToTrits_zero])

/-- The length of a minimal sequence is the least that has room for its value. -/
theorem MinimalTrits.length_le_iff {t : List Trit} (ht : MinimalTrits t) (L : Nat) :
    t.length ≤ L ↔ 2 * (btValue t).natAbs ≤ 3 ^ L - 1 := by
  constructor
  · intro hL
    have hb := btValue_bounds t
    have hmono : 3 ^ t.length ≤ 3 ^ L := Nat.pow_le_pow_right (by decide) hL
    have hcast : ((3 ^ t.length : Nat) : Int) = 3 ^ t.length := by push_cast; rfl
    omega
  · intro hv
    by_contra hL
    have hne : t ≠ [] := by rintro rfl; simp at hL
    have hlow := btValue_lower t hne (ht hne)
    have hmono : 3 ^ L ≤ 3 ^ (t.length - 1) := Nat.pow_le_pow_right (by decide) (by omega)
    have hpos : 0 < 3 ^ L := Nat.pow_pos (by decide)
    omega

/-- Two minimal sequences of one integer are equal. -/
theorem MinimalTrits.eq_of_btValue_eq {t u : List Trit} (ht : MinimalTrits t) (hu : MinimalTrits u)
    (h : btValue t = btValue u) : t = u := by
  have htu : t.length ≤ u.length := by rw [ht.length_le_iff, h, ← hu.length_le_iff]
  have hut : u.length ≤ t.length := by rw [hu.length_le_iff, ← h, ← ht.length_le_iff]
  exact btValue_injective (le_antisymm htu hut) h

theorem MinimalTrits.eq_intToTrits {t : List Trit} {v : Int} (ht : MinimalTrits t) (h : btValue t = v) :
    t = intToTrits v :=
  ht.eq_of_btValue_eq (minimalTrits_intToTrits v) (by rw [h, btValue_intToTrits])

/-- Settles O50: the length of a minimal sequence depends on its value alone, and at one length the value
determines the sequence. -/
theorem intToTritsIsMinimal : Obligations.IntToTritsIsMinimal := by
  intro v
  refine ⟨btValue_intToTrits v, minimalTrits_intToTrits v, fun t hv ht => ?_, fun L => ?_, fun h1 h2 => ?_⟩
  · exact MinimalTrits.eq_intToTrits ht hv
  · rw [(minimalTrits_intToTrits v).length_le_iff, btValue_intToTrits]
  · exact intToTrits_length_le v h1 (by omega)

/-! ### Round trips (R125) -/

/-- Expanding symbols and reading the triples back gives the symbols. -/
theorem trytesOf_flatMap_tripleOf {T : List Byte} (h : ∀ c ∈ T, inAlphabet c = true) :
    trytesOf (T.flatMap tripleOf) = T := by
  induction T with
  | nil => rfl
  | cons c T ih =>
    obtain ⟨t0, t1, t2, htriple, htryte⟩ := tryteOf_tripleOf (h c List.mem_cons_self)
    rw [List.flatMap_cons, htriple]
    simp only [List.cons_append, List.nil_append, trytesOf, htryte]
    rw [ih fun d hd => h d (List.mem_cons_of_mem c hd)]

theorem clearTop_eq_self {t : List Trit} (h : t[242]? = some .zero) : clearTop t = t := by
  obtain ⟨hlt, hz⟩ := List.getElem?_eq_some_iff.mp h
  rw [clearTop, ← hz, List.set_getElem_self]

/-- 243 trits whose last is 0 survive the way to 48 bytes and back. -/
theorem b2t_t2b {t : List Trit} (hl : t.length = 243) (h : t[242]? = some .zero) : b2t (t2b t) = t := by
  apply btValue_injective (by rw [b2t_length, hl])
  rw [btValue_b2t _ (t2b_length t), signed384_t2b t hl, clearTop_eq_self h]

/-- The trits of a number that 242 trits can hold end in 0 (R123). -/
theorem b2t_top_zero {b : List Byte} (hl : b.length = 48)
    (h : 2 * (signed384 (bytesValue b)).natAbs ≤ 3 ^ 242 - 1) : (b2t b)[242]? = some .zero := by
  have hb : b2t b = fixedTrits 242 (signed384 (bytesValue b)) ++ [.zero] := by
    apply btValue_injective (by simp)
    rw [btValue_b2t b hl, btValue_append, btValue_fixedTrits h]
    simp [Trit.toInt]
  rw [hb, List.getElem?_append_right (by simp), fixedTrits_length]
  rfl

/-- 48 bytes survive the way to 243 trits and back exactly when 242 trits can hold their number. -/
theorem t2b_b2t_iff {b : List Byte} (hl : b.length = 48) :
    t2b (b2t b) = b ↔ 2 * (signed384 (bytesValue b)).natAbs ≤ 3 ^ 242 - 1 := by
  constructor
  · intro h
    have hv : signed384 (bytesValue b) = btValue ((b2t b).take 242) := by
      rw [← btValue_clearTop _ (b2t_length b), ← signed384_t2b _ (b2t_length b), h]
    have hb := btValue_bounds ((b2t b).take 242)
    rw [List.length_take, b2t_length, Nat.min_eq_left (by decide)] at hb
    rw [hv]
    omega
  · intro h
    rw [t2b, clearTop_eq_self (b2t_top_zero hl h), btValue_b2t b hl, t2b_eq_of_signed b hl]

/-- Settles O51: both directions of the bridge keep the signed value, apart from what trit 242 adds. -/
theorem codecRoundTrips : Obligations.CodecRoundTrips :=
  ⟨fun _ => trytesOf_flatMap_tripleOf, fun _ => b2t_t2b, tripleOf_tryteOf, fun _ => t2b_b2t_iff⟩

/-! ### Regions read cell by cell and part by part -/

theorem State.readT_three (s : State) (a : Nat) :
    s.readT a 3 = [s.tmAt a, s.tmAt (a + 1), s.tmAt (a + 2)] := rfl

theorem State.readB_two (s : State) (a : Nat) : s.readB a 2 = [s.bmAt a, s.bmAt (a + 1)] := rfl

theorem State.readB_add_two (s : State) (a n : Nat) :
    s.readB a (n + 2) = s.bmAt a :: s.bmAt (a + 1) :: s.readB (a + 2) n := by
  apply List.ext_getElem
  · simp
  · intro i _ _
    match i with
    | 0 | 1 => simp
    | i + 2 =>
      simp only [State.readB_getElem, List.getElem_cons_succ]
      congr 1; omega

/-- A part of a region of bytes just written. -/
theorem State.readB_writeB_part (s : State) (d : Nat) (v : List Byte) (o n : Nat)
    (h : o + n ≤ v.length) : (s.writeB d v).readB (d + o) n = (v.drop o).take n := by
  apply List.ext_getElem
  · simp; omega
  · intro i hi _
    rw [State.readB_length] at hi
    rw [State.readB_getElem, Nat.add_assoc, State.bmAt_writeB_inside _ _ _ _ (by omega)]
    simp

theorem flatMap_length_of_const {α β : Type} {l : List α} {f : α → List β} {m : Nat}
    (hf : ∀ a ∈ l, (f a).length = m) : (l.flatMap f).length = m * l.length := by
  rw [List.length_flatMap, List.map_congr_left hf, List.map_const', List.sum_replicate, smul_eq_mul,
    Nat.mul_comm]

theorem piece_le_flatMap_length {α β : Type} {l : List α} {f : α → List β} {m k : Nat}
    (hf : ∀ a ∈ l, (f a).length = m) (hk : k < l.length) : m * k + m ≤ (l.flatMap f).length := by
  rw [flatMap_length_of_const hf, ← Nat.mul_succ]
  exact Nat.mul_le_mul_left m hk

/-- Where parts of equal length were written end to end, each stands in its place: trits. -/
theorem State.readT_writeT_flatMap {α : Type} (s : State) (d : Nat) {m k : Nat} {l : List α}
    {f : α → List Trit} (hf : ∀ a ∈ l, (f a).length = m) (hk : k < l.length) :
    (s.writeT d (l.flatMap f)).readT (d + m * k) m = f l[k] := by
  rw [State.readT_writeT_part _ _ _ _ _ (piece_le_flatMap_length hf hk), flatMap_piece l f m k hf hk]

/-- The same of bytes. -/
theorem State.readB_writeB_flatMap {α : Type} (s : State) (d : Nat) {m k : Nat} {l : List α}
    {f : α → List Byte} (hf : ∀ a ∈ l, (f a).length = m) (hk : k < l.length) :
    (s.writeB d (l.flatMap f)).readB (d + m * k) m = f l[k] := by
  rw [State.readB_writeB_part _ _ _ _ _ (piece_le_flatMap_length hf hk), flatMap_piece l f m k hf hk]

/-! ### Texts in BM: symbols and code units (R63, R118) -/

theorem firstNonSymbol_readB {s : State} {a n : Nat}
    (h : ∀ k, k < n → inAlphabet (s.bmAt (a + k)) = true) : firstNonSymbol (s.readB a n) = none := by
  rw [firstNonSymbol, List.findIdx?_eq_none_iff]
  intro c hc
  obtain ⟨k, hk, rfl⟩ := List.mem_map.mp hc
  rw [h k (List.mem_range.mp hk)]
  rfl

/-- The code units of a region, each by its number. -/
theorem codeUnits_readB (s : State) (a n : Nat) :
    codeUnits (s.readB a (2 * n)) = (List.range n).map (s.codeUnitAt a) := by
  induction n generalizing a with
  | zero => rfl
  | succ n ih =>
    have hshift : s.codeUnitAt (a + 2) = s.codeUnitAt a ∘ Nat.succ := by
      funext k
      have hk : a + 2 + 2 * k = a + 2 * k.succ := by omega
      simp only [State.codeUnitAt, Function.comp_apply, hk]
    rw [Nat.mul_succ, State.readB_add_two, codeUnits, ih, List.range_succ_eq_map, List.map_cons,
      List.map_map, hshift]
    rfl

/-- The bytes of a region of symbols, pair by pair. -/
theorem unitBytes_readB (s : State) (a n : Nat) :
    unitBytes (s.readB a (2 * n))
      = (List.range n).flatMap fun k => unitBytes (s.readB (a + 2 * k) 2) := by
  induction n generalizing a with
  | zero => rfl
  | succ n ih =>
    have hshift : ∀ k, a + 2 + 2 * k = a + 2 * k.succ := by omega
    rw [Nat.mul_succ, State.readB_add_two, unitBytes, ih, List.range_succ_eq_map, List.flatMap_cons,
      List.flatMap_map]
    simp only [hshift]
    rfl

/-- Two symbols give one unit, low byte first. -/
theorem codeUnitAt_of_readB_eq_unitBytes {t : State} {d k : Nat} {c1 c2 : Byte} (h1 : inAlphabet c1 = true)
    (h2 : inAlphabet c2 = true) (h : t.readB (d + 2 * k) 2 = unitBytes [c1, c2]) :
    t.codeUnitAt d k = symIndex c1 + 27 * symIndex c2 := by
  have hlt1 := symIndex_lt h1
  have hlt2 := symIndex_lt h2
  simp only [State.readB_two, unitBytes, List.cons.injEq, and_true] at h
  obtain ⟨hlo, hhi⟩ := h
  rw [State.codeUnitAt, hlo, hhi, BitVec.toNat_ofNat, BitVec.toNat_ofNat]
  omega

/-! ### The commands where no check fails -/

section Run

variable {ra rb rc : Reg} {s : State}

theorem exec_try2t (hsrc : s.uval rb + s.uval rc ≤ s.params.nb)
    (hdst : s.uval ra + 3 * s.uval rc ≤ s.params.nt)
    (hsym : ∀ k, k < s.uval rc → inAlphabet (s.bmAt (s.uval rb + k)) = true) :
    exec (.try2t ra rb rc) s
      = .next (s.writeT (s.uval ra) ((s.readB (s.uval rb) (s.uval rc)).flatMap tripleOf)) := by
  dsimp only [exec, execTry2t]
  rw [checked_run (by simp [hsrc, hdst]), firstNonSymbol_readB hsym]

theorem exec_int2t (hdst : s.uval ra + (intToTrits (s.sval rb)).length ≤ s.params.nt) :
    exec (.int2t ra rb rc) s
      = .next ((s.writeT (s.uval ra) (intToTrits (s.sval rb))).setReg rc
          (BitVec.ofNat 64 (intToTrits (s.sval rb)).length)) := by
  dsimp only [exec, execInt2t]
  rw [checked_run (by simp [hdst])]

theorem exec_t2try (hlen : s.uval rc % 3 = 0) (hsrc : s.uval rb + s.uval rc ≤ s.params.nt)
    (hdst : s.uval ra + s.uval rc / 3 ≤ s.params.nb) :
    exec (.t2try ra rb rc) s
      = .next (s.writeB (s.uval ra) (trytesOf (s.readT (s.uval rb) (s.uval rc)))) := by
  dsimp only [exec, execT2try]
  rw [checked_run (by simp [multipleOf3, hlen, hsrc, hdst])]

theorem exec_t2int (hlen : s.uval rc % 3 = 0) (hsrc : s.uval rb + s.uval rc ≤ s.params.nt)
    (hlow : -(2 ^ 63) ≤ btValue (s.readT (s.uval rb) (s.uval rc)))
    (hhigh : btValue (s.readT (s.uval rb) (s.uval rc)) ≤ 2 ^ 63 - 1) :
    exec (.t2int ra rb rc) s
      = .next (s.setReg ra (wordOfInt (btValue (s.readT (s.uval rb) (s.uval rc))))) := by
  dsimp only [exec, execT2int]
  rw [checked_run (by simp [multipleOf3, hlen, hsrc]), if_neg (by omega)]

theorem exec_str2try (hsrc : s.uval rb + 2 * s.uval rc ≤ s.params.nb)
    (hdst : s.uval ra + 2 * s.uval rc ≤ s.params.nb)
    (hunit : ∀ k, k < s.uval rc → s.codeUnitAt (s.uval rb) k ≤ 728) :
    exec (.str2try ra rb rc) s
      = .next (s.writeB (s.uval ra)
          (((List.range (s.uval rc)).map (s.codeUnitAt (s.uval rb))).flatMap unitSymbols)) := by
  have hnone : ((List.range (s.uval rc)).map (s.codeUnitAt (s.uval rb))).findIdx?
      (fun u => decide (728 < u)) = none := by
    simpa [List.findIdx?_eq_none_iff] using hunit
  dsimp only [exec, execStr2try]
  rw [checked_run (by simp [hsrc, hdst]), codeUnits_readB, hnone]

theorem exec_try2str (hlen : s.uval rc % 2 = 0) (hsrc : s.uval rb + s.uval rc ≤ s.params.nb)
    (hdst : s.uval ra + s.uval rc ≤ s.params.nb)
    (hsym : ∀ k, k < s.uval rc → inAlphabet (s.bmAt (s.uval rb + k)) = true) :
    exec (.try2str ra rb rc) s
      = .next (s.writeB (s.uval ra) (unitBytes (s.readB (s.uval rb) (s.uval rc)))) := by
  dsimp only [exec, execTry2str]
  rw [checked_run (by simp [even, hlen, hsrc, hdst]), firstNonSymbol_readB hsym]

theorem exec_t2b (hlen : s.uval rc = 243) (hsrc : s.uval rb + 243 ≤ s.params.nt)
    (hdst : s.uval ra + 48 ≤ s.params.nb) :
    exec (.t2b ra rb rc) s = .next (s.writeB (s.uval ra) (t2b (s.readT (s.uval rb) 243))) := by
  dsimp only [exec, execT2b]
  rw [checked_run (by simp [exactly243, hlen, hsrc, hdst])]

theorem exec_b2t (hlen : s.uval rc = 48) (hsrc : s.uval rb + 48 ≤ s.params.nb)
    (hdst : s.uval ra + 243 ≤ s.params.nt) :
    exec (.b2t ra rb rc) s = .next (s.writeT (s.uval ra) (b2t (s.readB (s.uval rb) 48))) := by
  dsimp only [exec, execB2t]
  rw [checked_run (by simp [exactly48, hlen, hsrc, hdst])]

end Run

/-! ### The statements about commands -/

/-- Settles O1: sign extension keeps the signed value. -/
theorem liLoadsSignedImmediate : Obligations.LiLoadsSignedImmediate := by
  intro ra imm20 s
  refine ⟨_, rfl, ?_, s.onlyReg_setReg ra (liImmediate imm20)⟩
  rw [State.reg_setReg_same, liImmediate, BitVec.toInt_signExtend_of_le (by decide)]

/-- Settles O2: the triples were written end to end. -/
theorem try2tExpandsSymbols : Obligations.Try2tExpandsSymbols := by
  intro ra rb rc s hsrc hdst hsym
  refine ⟨_, exec_try2t hsrc hdst hsym, fun k hk => ?_, ?_⟩
  · rw [State.readT_writeT_flatMap s _ (fun c _ => tripleOf_length c) (by rwa [State.readB_length]),
      State.readB_getElem]
  · exact s.onlyTM_writeT _ _ _ (by rw [flatMap_tripleOf_length, State.readB_length])

/-- Settles O3: the sequence named is the one that the command works out. -/
theorem int2tWritesMinimalTrits : Obligations.Int2tWritesMinimalTrits := by
  intro ra rb rc s out hv hmin hdst
  obtain rfl := MinimalTrits.eq_intToTrits hmin hv
  have hlen : (intToTrits (s.sval rb)).length ≤ 41 :=
    intToTrits_length_le _ (BitVec.le_toInt _) (BitVec.toInt_lt).le
  obtain ⟨hregs, htm, hbm, hcurl, hkerl, hcontrol, hmodel⟩ := s.onlyTM_writeT (s.uval ra) _ _ rfl
  refine ⟨_, exec_int2t hdst, State.readT_writeT _ _ _, ?_, hlen, fun q hq => ?_, htm, hbm, hcurl, hkerl,
    hcontrol, hmodel⟩
  · rw [State.reg_setReg_same, BitVec.toNat_ofNat]
    omega
  · rw [State.reg_setReg_ne _ _ _ _ hq, hregs q]

/-- Settles O4: the symbol of a triple is in the alphabet and has that triple. -/
theorem t2tryWritesSymbols : Obligations.T2tryWritesSymbols := by
  intro ra rb rc s hlen hsrc hdst
  refine ⟨_, exec_t2try hlen hsrc hdst, fun k hk => ?_, s.onlyBM_writeB _ _ _ (by simp)⟩
  rw [State.bmAt_writeB_inside _ _ _ _ (by simpa using hk), trytesOf_getElem, State.readT_three]
  refine ⟨tryteOf_inAlphabet _ _ _, ?_⟩
  rw [tripleOf_tryteOf]
  simp only [State.readT_getElem, Nat.add_assoc]

/-- A value in the signed range of a register reads as itself (R12, R117). -/
theorem toInt_wordOfInt {v : Int} (hlow : -(2 ^ 63) ≤ v) (hhigh : v ≤ 2 ^ 63 - 1) :
    (wordOfInt v).toInt = v :=
  BitVec.toInt_ofInt_eq_self (by decide) hlow (by omega)

/-- Settles O5: a value in the signed range survives the register. -/
theorem t2intReadsValue : Obligations.T2intReadsValue := by
  intro ra rb rc s hlen hsrc hlow hhigh
  refine ⟨_, exec_t2int hlen hsrc hlow hhigh, ?_, s.onlyReg_setReg ra _⟩
  rw [State.reg_setReg_same, toInt_wordOfInt hlow hhigh]

/-- Settles O6: the pairs of symbols were written end to end, one for each code unit. -/
theorem str2tryWritesSymbolPairs : Obligations.Str2tryWritesSymbolPairs := by
  intro ra rb rc s hsrc hdst hunit
  refine ⟨_, exec_str2try hsrc hdst hunit, fun k hk => ?_, ?_⟩
  · have hpair := State.readB_writeB_flatMap s (s.uval ra) (m := 2) (k := k) (f := unitSymbols)
      (l := (List.range (s.uval rc)).map (s.codeUnitAt (s.uval rb))) (fun _ _ => rfl) (by simpa using hk)
    simpa [State.readB_two, unitSymbols] using hpair
  · exact s.onlyBM_writeB _ _ _ (by rw [flatMap_unitSymbols_length]; simp)

/-- Settles O7: the bytes of each unit were written end to end, and a unit of two symbols fits in 16 bits. -/
theorem try2strWritesCodeUnits : Obligations.Try2strWritesCodeUnits := by
  intro ra rb rc s hlen hsrc hdst hsym
  refine ⟨_, exec_try2str hlen hsrc hdst hsym, fun k hk => ?_, ?_⟩
  · have hwhole : s.uval rc = 2 * (s.uval rc / 2) := by omega
    refine codeUnitAt_of_readB_eq_unitBytes (hsym (2 * k) (by omega)) (hsym (2 * k + 1) (by omega)) ?_
    rw [hwhole, unitBytes_readB,
      State.readB_writeB_flatMap s _ (m := 2) (fun _ _ => rfl) (by simpa using hk),
      List.getElem_range, State.readB_two, Nat.add_assoc]
  · exact s.onlyBM_writeB _ _ _ (by rw [unitBytes_length, State.readB_length]; omega)

/-- Settles O8: trit 242 does not count, and 48 bytes denote a number modulo 256^48. -/
theorem t2bWritesTwosComplement : Obligations.T2bWritesTwosComplement := by
  intro ra rb rc s hlen hsrc hdst
  refine ⟨_, exec_t2b hlen hsrc hdst, ?_, s.onlyBM_writeB _ _ _ (t2b_length _)⟩
  rw [State.readB_writeB_of_length _ _ _ _ (t2b_length _), t2b, bytesValue_bytes48,
    btValue_clearTop _ (s.readT_length _ _), s.readT_take _ _ _ (by decide)]
  omega

/-- Settles O9: 243 trits are enough for a signed 384-bit number. -/
theorem b2tWritesSignedValue : Obligations.B2tWritesSignedValue := by
  intro ra rb rc s hlen hsrc hdst
  refine ⟨_, exec_b2t hlen hsrc hdst, ?_, s.onlyTM_writeT _ _ _ (b2t_length _)⟩
  rw [State.readT_writeT_of_length _ _ _ _ (b2t_length _), btValue_b2t _ (s.readB_length _ _), signed384]

end Sys2Proof.Machine
end

section
/-! SUPPORT. The statements of spec/41_adder.md: the adder. The value of a sum is congruent to the sum of the
values modulo `3^n`, and among the sequences of `n` trits this determines it; the laws of R144 are laws of
integer addition modulo `3^n` read through that. -/

namespace Sys2Proof.Machine

open Sys2Proof

@[simp] theorem zeros_length (n : Nat) : (zeros n).length = n := List.length_replicate

/-! ### The sum modulo a power of 3 (R143) -/

/-- The digit loop keeps the sum of its operands, apart from the carry it drops (R143). -/
theorem btValue_tadd_add_carry (a b : List Trit) :
    ∃ c : Trit, btValue (tadd a b) + 3 ^ max a.length b.length * c.toInt = btValue a + btValue b := by
  have ha := extendTo_length (le_max_left a.length b.length)
  have hb := extendTo_length (le_max_right a.length b.length)
  have hab := ha.trans hb.symm
  obtain ⟨c, hc⟩ := btValue_addDigits
    ((extendTo (max a.length b.length) a).zip (extendTo (max a.length b.length) b)) .zero
  rw [List.map_fst_zip hab.le, List.map_snd_zip hab.ge, List.length_zip, ha, hb, min_self,
    btValue_extendTo, btValue_extendTo, Trit.toInt, add_zero] at hc
  exact ⟨c, hc⟩

theorem btValue_tadd_modEq (a b : List Trit) :
    btValue (tadd a b) ≡ btValue a + btValue b [ZMOD 3 ^ max a.length b.length] := by
  obtain ⟨c, hc⟩ := btValue_tadd_add_carry a b
  exact Int.modEq_of_dvd ⟨c.toInt, by linarith⟩

/-- The sum is the one sequence of the longer length with the right value modulo `3^n`. -/
theorem eq_tadd_of_modEq {t a b : List Trit} (hl : t.length = max a.length b.length)
    (h : btValue t ≡ btValue a + btValue b [ZMOD 3 ^ max a.length b.length]) : t = tadd a b := by
  refine btValue_congr (by rw [hl, tadd_length]) ?_
  rw [hl]
  exact ((btValue_tadd_modEq a b).trans h.symm).dvd

/-! ### The laws of the adder (R143, R144) -/

/-- A sum that fits is exact: its `n`-trit sequence has the right value. -/
theorem btValue_tadd_of_fits {a b : List Trit}
    (h : 2 * (btValue a + btValue b).natAbs ≤ 3 ^ max a.length b.length - 1) :
    btValue (tadd a b) = btValue a + btValue b := by
  have hv := btValue_fixedTrits h
  rw [← eq_tadd_of_modEq (fixedTrits_length _ _) (by rw [hv]), hv]

theorem tadd_comm (a b : List Trit) : tadd a b = tadd b a := by
  apply eq_tadd_of_modEq
  · rw [tadd_length, max_comm]
  · rw [max_comm, add_comm]
    exact btValue_tadd_modEq a b

theorem tadd_zeros (a : List Trit) (k : Nat) : tadd a (zeros k) = a ++ zeros (k - a.length) := by
  symm
  apply eq_tadd_of_modEq
  · simp only [List.length_append, zeros_length]
    omega
  · rw [btValue_append, btValue_zeros, btValue_zeros, mul_zero]

theorem tadd_assoc {a b c : List Trit} (hab : a.length = b.length) (hbc : b.length = c.length) :
    tadd (tadd a b) c = tadd a (tadd b c) := by
  have hsum : ∀ t u : List Trit, t.length = c.length → u.length = c.length →
      btValue (tadd t u) ≡ btValue t + btValue u [ZMOD 3 ^ c.length] := fun t u ht hu => by
    simpa [ht, hu] using btValue_tadd_modEq t u
  have ha := hab.trans hbc
  apply eq_tadd_of_modEq
  · simp only [tadd_length, ha, hbc, max_self]
  · simp only [tadd_length, ha, hbc, max_self]
    calc btValue (tadd (tadd a b) c)
        ≡ btValue (tadd a b) + btValue c [ZMOD 3 ^ c.length] :=
          hsum _ _ (by simp [ha, hbc]) rfl
      _ ≡ btValue a + btValue b + btValue c [ZMOD 3 ^ c.length] := (hsum a b ha hbc).add_right _
      _ = btValue a + (btValue b + btValue c) := add_assoc _ _ _
      _ ≡ btValue a + btValue (tadd b c) [ZMOD 3 ^ c.length] := (hsum b c hbc rfl).symm.add_left _

/-- Settles O52: integer addition modulo `3^n` has these laws, and `n` trits are determined by their value. -/
theorem adderLaws : Obligations.AdderLaws :=
  ⟨fun a b => ⟨tadd_length a b, btValue_tadd_add_carry a b, btValue_tadd_of_fits, tadd_comm a b⟩,
    tadd_zeros, fun _ _ _ => tadd_assoc⟩

/-! ### The command where no check fails (R142) -/

theorem exec_tadd {ra rb rc rd re : Reg} {s : State} (ha : s.uval rb + s.uval rc ≤ s.params.nt)
    (hb : s.uval rd + s.uval re ≤ s.params.nt)
    (hdst : s.uval ra + max (s.uval rc) (s.uval re) ≤ s.params.nt) :
    exec (.tadd ra rb rc rd re) s
      = .next (s.writeT (s.uval ra)
          (tadd (s.readT (s.uval rb) (s.uval rc)) (s.readT (s.uval rd) (s.uval re)))) := by
  dsimp only [exec, execTadd]
  rw [checked_run]
  simp only [List.forall_mem_cons, inTM_fails, decide_eq_false_iff_not, not_lt]
  exact ⟨ha, hb, hdst, fun _ h => absurd h List.not_mem_nil⟩

/-- Settles O10: what was written is the sum of what was read before, and the destination reads as written. -/
theorem taddAddsAndDropsCarry : Obligations.TaddAddsAndDropsCarry := by
  intro ra rb rc rd re s ha hb hdst
  have hlen : (tadd (s.readT (s.uval rb) (s.uval rc)) (s.readT (s.uval rd) (s.uval re))).length
      = max (s.uval rc) (s.uval re) := by
    rw [tadd_length, State.readT_length, State.readT_length]
  refine ⟨_, exec_tadd ha hb hdst, ?_, s.onlyTM_writeT _ _ _ hlen⟩
  rw [State.readT_writeT_of_length _ _ _ _ hlen]
  simpa only [State.readT_length] using
    btValue_tadd_add_carry (s.readT (s.uval rb) (s.uval rc)) (s.readT (s.uval rd) (s.uval re))

end Sys2Proof.Machine
end

section
/-! SUPPORT. The statements of spec/42_curl.md: the native sponge. First the round on a constant state, then
the loops of absorbing and squeezing chunk by chunk, then one equation for each command that can fail, and
last the statements about commands. -/

namespace Sys2Proof.Machine

open Sys2Proof

/-! ### The round (R151 to R153, R157) -/

/-- 727 is the inverse of 364 modulo 729, so the walk meets `j` at the point `727 * j`. -/
theorem curlWalk_surjective {j : Nat} (h : j < 729) : ∃ i, i < 729 ∧ 364 * i % 729 = j :=
  ⟨727 * j % 729, by omega, by omega⟩

/-- What a round makes of the cells of a state whose cells are all alike. -/
def constantRound (a : Trit) : Trit := curlF a a

/-- A constant state stays constant, its cell going through the table once a round. -/
theorem semiconj_replicate_curlRound :
    Function.Semiconj (Vector.replicate 729) constantRound curlRound := by
  intro a
  ext i hi
  rw [curlRound_getElem _ _ hi, Vector.getElem_replicate, Vector.getElem_replicate,
    Vector.getElem_replicate, constantRound]

theorem curlTransform_replicate (r : Nat) (a : Trit) :
    curlTransform r (Vector.replicate 729 a) = Vector.replicate 729 (constantRound^[r] a) := by
  rw [curlTransform_iterate, (semiconj_replicate_curlRound.iterate_right r).eq]

/-- The cell goes 0, -1, +1, 0. -/
theorem minimalPeriod_constantRound_zero : Function.minimalPeriod constantRound .zero = 3 :=
  have : Fact (Nat.Prime 3) := ⟨Nat.prime_three⟩
  have hperiodic : Function.IsPeriodicPt constantRound 3 .zero := rfl
  have hmoves : ¬ Function.IsFixedPt constantRound .zero := by unfold Function.IsFixedPt; decide
  Function.minimalPeriod_eq_prime hperiodic hmoves

/-- The zero state comes back every third round and not between (R157). -/
theorem curlTransform_zeroCurl_iff (r : Nat) : curlTransform r zeroCurl = zeroCurl ↔ r % 3 = 0 := by
  calc curlTransform r zeroCurl = zeroCurl
      ↔ Function.IsPeriodicPt constantRound r .zero := by
        rw [zeroCurl, curlTransform_replicate, Vector.replicate_inj]
        exact or_iff_right (by decide)
    _ ↔ 3 ∣ r := by
        rw [Function.isPeriodicPt_iff_minimalPeriod_dvd, minimalPeriod_constantRound_zero]
    _ ↔ r % 3 = 0 := Nat.dvd_iff_mod_eq_zero

/-- Settles O53: the table is read off entry by entry, and a constant state shows the period. -/
theorem curlRoundFollowsTheWalk : Obligations.CurlRoundFollowsTheWalk :=
  ⟨fun _ => curlWalk_surjective, curlRound_getElem, by decide, curlTransform_zeroCurl_iff⟩

/-! ### The loops of the sponge (R154) -/

/-- Piece `j + 1` of a sequence is piece `j` of what follows its first piece. -/
theorem piece_succ (size : Nat) (t : List Trit) (j : Nat) :
    piece size t (j + 1) = piece size (t.drop size) j := by
  rw [piece, piece, List.drop_drop, Nat.mul_succ, Nat.add_comm]

/-- The first chunk is what there is of 243 trits, and the others are the chunks of the rest. -/
theorem chunks243_of_ne_nil {m : List Trit} (h : m ≠ []) :
    chunks243 m = m.take 243 :: chunks243 (m.drop 243) := by
  have hpos := List.length_pos_iff.mpr h
  have hcount : (m.length + 242) / 243 = ((m.drop 243).length + 242) / 243 + 1 := by
    rw [List.length_drop]
    omega
  have hrest : piece 243 m ∘ Nat.succ = piece 243 (m.drop 243) := funext fun j => piece_succ 243 m j
  rw [chunks243, hcount, List.range_succ_eq_map, List.map_cons, List.map_map, hrest]
  rfl

@[simp] theorem curlAbsorb_nil (rounds : Nat) (S : Vector Trit 729) : curlAbsorb rounds S [] = S := by
  rw [curlAbsorb, chunks243_nil, List.foldl_nil]

/-- One step of `curl_absorb`. -/
theorem curlAbsorb_step (rounds : Nat) (S : Vector Trit 729) {m : List Trit} (h : m ≠ []) :
    curlAbsorb rounds S m
      = curlAbsorb rounds (curlTransform rounds (curlOverwrite S (m.take 243))) (m.drop 243) := by
  rw [curlAbsorb, chunks243_of_ne_nil h, List.foldl_cons, curlAbsorb]

/-- A squeeze of a whole chunk and `k` trits more: all of the chunk is taken. -/
theorem curlSqueeze_chunk_add (rounds : Nat) (S : Vector Trit 729) (k : Nat) :
    curlSqueeze rounds S (243 + k) =
      (S.toList.take 243 ++ (curlSqueeze rounds (curlTransform rounds S) k).1,
        (curlSqueeze rounds (curlTransform rounds S) k).2) := by
  rw [curlSqueeze_step _ _ _ (by omega), Nat.min_eq_left (by omega), Nat.add_sub_cancel_left]

/-- A squeeze of whole chunks and one after it are one squeeze (R159). -/
theorem curlSqueeze_chunks_add (rounds : Nat) (S : Vector Trit 729) (n k : Nat) :
    curlSqueeze rounds S (243 * n + k)
      = ((curlSqueeze rounds S (243 * n)).1
          ++ (curlSqueeze rounds (curlSqueeze rounds S (243 * n)).2 k).1,
         (curlSqueeze rounds (curlSqueeze rounds S (243 * n)).2 k).2) := by
  induction n generalizing S with
  | zero => simp
  | succ n ih =>
    have hn : 243 * (n + 1) = 243 + 243 * n := by omega
    rw [hn, Nat.add_assoc, curlSqueeze_chunk_add, curlSqueeze_chunk_add, ih, List.append_assoc]

/-- Settles O54, loop by loop. -/
theorem curlSpongeFollowsItsLoops : Obligations.CurlSpongeFollowsItsLoops := fun r S =>
  ⟨curlAbsorb_nil r S, fun _ => curlAbsorb_step r S, curlOverwrite_getElem S, curlSqueeze_zero r S,
    curlSqueeze_step r S, curlSqueeze_chunks_add r S⟩

/-! ### The commands where no check fails (R155, R158, R159) -/

theorem exec_cinit {imm20 : BitVec 20} (s : State) (h : imm20.toNat ≤ 255) :
    exec (.cinit imm20) s = .next ((s.setRounds (roundCount imm20)).setCurl zeroCurl) := by
  dsimp only [exec, execCinit]
  rw [if_pos h]

theorem curlChecks_pass {s : State} {b L o : Nat} (ho : o < L) (hL : b + L ≤ s.params.nt) :
    ∀ c ∈ curlChecks s b L o, c.fails = false := by
  simp only [curlChecks, arrayInTM, List.forall_mem_cons, decide_eq_false_iff_not, not_le, not_lt]
  exact ⟨ho, hL, fun _ h => absurd h List.not_mem_nil⟩

section Run

variable {ra rb rc : Reg} {s : State}

theorem exec_cabsorb (ho : s.uval rc < s.uval rb) (hL : s.uval ra + s.uval rb ≤ s.params.nt) :
    exec (.cabsorb ra rb rc) s
      = .next (s.setCurl (curlAbsorb s.cr.toNat s.cs
          (s.readT (s.uval ra + s.uval rc) (s.uval rb - s.uval rc)))) := by
  dsimp only [exec, execCabsorb]
  rw [checked_run (curlChecks_pass ho hL)]

theorem exec_csqueeze (ho : s.uval rc < s.uval rb) (hL : s.uval ra + s.uval rb ≤ s.params.nt) :
    exec (.csqueeze ra rb rc) s
      = .next ((s.setCurl (curlSqueeze s.cr.toNat s.cs (s.uval rb - s.uval rc)).2).writeT
          (s.uval ra + s.uval rc) (curlSqueeze s.cr.toNat s.cs (s.uval rb - s.uval rc)).1) := by
  dsimp only [exec, execCsqueeze]
  rw [checked_run (curlChecks_pass ho hL)]

end Run

/-! ### The statements about commands -/

/-- A legal immediate fits in the round count as it is, but for 0 (R94, R155). -/
theorem roundCount_toNat {imm20 : BitVec 20} (h : imm20.toNat ≤ 255) :
    (roundCount imm20).toNat = if imm20.toNat = 0 then 81 else imm20.toNat := by
  unfold roundCount
  by_cases h0 : imm20 = 0
  · subst h0; rfl
  · have hne : imm20.toNat ≠ 0 := fun hz => h0 (BitVec.eq_of_toNat_eq hz)
    rw [if_neg h0, if_neg hne, BitVec.toNat_setWidth, Nat.mod_eq_of_lt (by omega)]

theorem State.onlyCurl_setRounds_setCurl (s : State) (r : BitVec 8) (S : Vector Trit 729) :
    OnlyCurl s ((s.setRounds r).setCurl S) :=
  { regs := fun _ => rfl, tm := fun _ => rfl, bm := fun _ => rfl, kerl := rfl
    control := ⟨rfl, rfl, rfl, rfl, rfl, rfl⟩, model := ⟨rfl, rfl, rfl, rfl⟩ }

/-- Settles O11. -/
theorem cinitSetsRoundsAndClears : Obligations.CinitSetsRoundsAndClears := by
  intro imm20 s h
  refine ⟨_, exec_cinit s h, ?_, zeroCurl_getElem, s.onlyCurl_setRounds_setCurl _ _⟩
  rw [State.setCurl_cr, State.setRounds_cr, roundCount_toNat h]

/-- Settles O12. -/
theorem resetCommandsClearOneSponge : Obligations.ResetCommandsClearOneSponge := fun s =>
  ⟨⟨s.setCurl zeroCurl, rfl, zeroCurl_getElem, rfl, s.onlyCurl_setCurl zeroCurl⟩,
    ⟨s.setKerl [], rfl, rfl, s.onlyKerl_setKerl []⟩⟩

/-- Settles O13. -/
theorem cxformRunsRounds : Obligations.CxformRunsRounds := by
  intro s
  refine ⟨s.setCurl (curlTransform s.cr.toNat s.cs), rfl, ?_, rfl, s.onlyCurl_setCurl _⟩
  rw [State.setCurl_cs, curlTransform_iterate]

/-- Settles O14. -/
theorem cabsorbAbsorbsRegion : Obligations.CabsorbAbsorbsRegion := fun _ _ _ s ho hL =>
  ⟨_, exec_cabsorb ho hL, rfl, rfl, s.onlyCurl_setCurl _⟩

/-- Settles O15: what was squeezed has the length of the region, and the region reads as written. -/
theorem csqueezeFillsRegion : Obligations.CsqueezeFillsRegion := by
  intro ra rb rc s ho hL
  have hlen := curlSqueeze_length s.cr.toNat s.cs (s.uval rb - s.uval rc)
  obtain ⟨hregs, htm, hbm, ⟨hcs, hcr⟩, hkerl, hcontrol, hmodel⟩ :=
    (s.setCurl (curlSqueeze s.cr.toNat s.cs (s.uval rb - s.uval rc)).2).onlyTM_writeT
      (s.uval ra + s.uval rc) _ _ hlen
  refine ⟨_, exec_csqueeze ho hL, ?_, hcr, hregs, htm, hbm, hkerl, hcontrol, hmodel⟩
  rw [State.readT_writeT_of_length _ _ _ _ hlen, hcs, State.setCurl_cs]

end Sys2Proof.Machine
end

section
/-! SUPPORT. The statements of spec/43_kerl.md: the hybrid sponge. First squeezing chunk by chunk and absorbing
by whole chunks, then one equation for each command that can fail, and last the statements about commands. -/

namespace Sys2Proof.Machine

open Sys2Proof

/-! ### Squeezing (R175, R178, R181) -/

theorem kerlSqueeze_chunks (p : Config.Params) (K : List Byte) (n : Nat) :
    kerlSqueeze p K (243 * n) = kerlSqueezeChunks p n K := by
  rw [kerlSqueeze, Nat.mul_div_cancel_left n (by decide)]

theorem kerlSqueeze_chunk (p : Config.Params) (K : List Byte) :
    (kerlSqueeze p K 243).1 = (kerlSqueeze1 p K).1 := List.append_nil _

theorem kerlSqueeze1_top (p : Config.Params) (K : List Byte) :
    (kerlSqueeze1 p K).1[242]? = some .zero := by
  simp [kerlSqueeze1, clearTop]

/-- The message left by a squeeze is the message re-seeded once for each chunk. -/
theorem kerlSqueezeChunks_snd (p : Config.Params) (n : Nat) (K : List Byte) :
    (kerlSqueezeChunks p n K).2 = (fun K => (kerlSqueeze1 p K).2)^[n] K := by
  induction n generalizing K with
  | zero => rfl
  | succ n ih => exact ih (kerlSqueeze1 p K).2

/-- Chunk `j` of a squeeze is squeezed from the message re-seeded `j` times. -/
theorem piece_kerlSqueezeChunks (p : Config.Params) {n j : Nat} (K : List Byte) (h : j < n) :
    piece 243 (kerlSqueezeChunks p n K).1 j
      = (kerlSqueeze1 p ((fun K => (kerlSqueeze1 p K).2)^[j] K)).1 := by
  induction n generalizing K j with
  | zero => omega
  | succ n ih =>
    have hone := kerlSqueeze1_fst_length p K
    cases j with
    | zero => exact piece_append_zero 243 _ _ hone
    | succ j => exact (piece_append_add 243 _ _ j hone).trans (ih (kerlSqueeze1 p K).2 (by omega))

/-! ### Absorbing (R171, R174) -/

theorem kerlAbsorb_eq_append_freshMessage (K : List Byte) (m : List Trit) :
    kerlAbsorb K m = K ++ freshMessage m := rfl

/-- Absorbing a region of whole chunks. -/
theorem kerlAbsorb_readT (K : List Byte) (s : State) (a : Nat) {n : Nat} (h : n % 243 = 0) :
    kerlAbsorb K (s.readT a n)
      = K ++ (List.range (n / 243)).flatMap fun j => t2b (s.readT (a + 243 * j) 243) := by
  simp only [kerlAbsorb, State.chunks243_readT s a n h, List.flatMap_map, t2b_clearTop]

/-- Settles O55: the message absorbed, the chains of a fragment and the chunks squeezed, in turn. -/
theorem kerlIgnoresTrit242 : Obligations.KerlIgnoresTrit242 := by
  refine ⟨fun K m m' hl hm ha => ?_, fun p nf sig sig' hs hs' ha => ?_, fun p K n j hj => ?_⟩
  · have hn : m.length = 243 * (m.length / 243) := by omega
    rw [kerlAbsorb_eq_append_freshMessage, kerlAbsorb_eq_append_freshMessage,
      (freshMessage_eq_iff _ m m' hn (hl.symm.trans hn)).mpr ha]
  · exact kerlDigest_congr p 27 _ _ (chainBlocks_length p _ sig hs) (chainBlocks_length p _ sig' hs')
      (chainBlocks_agreeOffTop p _ sig sig' hs hs' ha)
  · rw [kerlSqueeze_chunks]
    exact kerlSqueezeChunks_top p n K j hj

/-- Settles O56. -/
theorem kerlSpongeComposes : Obligations.KerlSpongeComposes := by
  refine fun p K => ⟨fun n n' => ?_, fun m m' hm => ?_, ?_⟩
  · simp only [kerlSqueeze_chunks, kerlSqueezeChunks_add]
  · exact (kerlAbsorb_append K m m' (m.length / 243) (by omega)).symm
  · rw [kerlSqueeze_chunk]
    exact b2t_t2b (kerlSqueeze1_fst_length p K) (kerlSqueeze1_top p K)

/-! ### The commands where no check fails (R180, R181) -/

theorem kerlChecks_pass {s : State} {b L o : Nat} (hlen : L % 243 = 0) (ho : o < L) (hoff : o % 243 = 0)
    (hL : b + L ≤ s.params.nt) : ∀ c ∈ kerlChecks s b L o, c.fails = false := by
  simp only [kerlChecks, multipleOf243, arrayInTM, List.forall_mem_cons, decide_eq_false_iff_not,
    not_or, not_not, not_le, not_lt]
  exact ⟨hlen, ⟨ho, hoff⟩, hL, fun _ h => absurd h List.not_mem_nil⟩

section Run

variable {ra rb rc : Reg} {s : State}

theorem exec_kabsorb (hlen : s.uval rb % 243 = 0) (ho : s.uval rc < s.uval rb)
    (hoff : s.uval rc % 243 = 0) (hL : s.uval ra + s.uval rb ≤ s.params.nt) :
    exec (.kabsorb ra rb rc) s
      = .next (s.setKerl (kerlAbsorb s.km
          (s.readT (s.uval ra + s.uval rc) (s.uval rb - s.uval rc)))) := by
  dsimp only [exec, execKabsorb]
  rw [checked_run (kerlChecks_pass hlen ho hoff hL)]

theorem exec_ksqueeze (hlen : s.uval rb % 243 = 0) (ho : s.uval rc < s.uval rb)
    (hoff : s.uval rc % 243 = 0) (hL : s.uval ra + s.uval rb ≤ s.params.nt) :
    exec (.ksqueeze ra rb rc) s
      = .next ((s.setKerl (kerlSqueeze s.params s.km (s.uval rb - s.uval rc)).2).writeT
          (s.uval ra + s.uval rc) (kerlSqueeze s.params s.km (s.uval rb - s.uval rc)).1) := by
  dsimp only [exec, execKsqueeze]
  rw [checked_run (kerlChecks_pass hlen ho hoff hL)]

end Run

/-! ### The statements about commands -/

/-- Settles O16: the region is a whole number of chunks, and each gives 48 bytes. -/
theorem kabsorbAppendsBlocks : Obligations.KabsorbAppendsBlocks := by
  intro ra rb rc s hlen ho hoff hL
  refine ⟨_, exec_kabsorb hlen ho hoff hL, ?_, s.onlyKerl_setKerl _⟩
  rw [State.setKerl_km, kerlAbsorb_readT _ _ _ (by omega)]

/-- Settles O17: the chunks written are the pieces of the squeeze, each from its own re-seeded message. -/
theorem ksqueezeEmitsChunks : Obligations.KsqueezeEmitsChunks := by
  refine ⟨fun ra rb rc s hlen ho hoff hL => ?_, fun d j hd hj => ?_⟩
  · have hsize := kerlSqueeze_length s.params s.km (s.uval rb - s.uval rc) (by omega)
    obtain ⟨hregs, htm, hbm, hcurl, hkerl, hcontrol, hmodel⟩ :=
      (s.setKerl (kerlSqueeze s.params s.km (s.uval rb - s.uval rc)).2).onlyTM_writeT
        (s.uval ra + s.uval rc) _ _ hsize
    refine ⟨_, exec_ksqueeze hlen ho hoff hL, fun j hj => ?_, ?_, ?_, hregs, htm, hbm, hcurl,
      hcontrol, hmodel⟩
    · rw [State.readT_writeT_part _ _ _ _ _ (by omega)]
      exact piece_kerlSqueezeChunks s.params s.km hj
    · exact hkerl.trans (kerlSqueezeChunks_snd s.params _ s.km)
    · exact (congrArg List.length hkerl).trans
        (kerlSqueezeChunks_snd_length s.params _ s.km (by omega))
  · exact ⟨(reseed_length _ d).trans hd, (reseed_length _ d).trans hd, reseed_reversed_getD d j hd hj,
      reseed_forward_getD d j (by omega)⟩

end Sys2Proof.Machine
end

section
/-! SUPPORT. The statements of spec/44_signing.md: the one-time-signature engine. First normalization, where
incrementing is reduced to decrementing the opposite values; then the subseed, the chains of a signature and
the way back from an address to the signature; then what a command reads from TM, one equation for each
command whose checks pass, and last the statements about commands. -/

namespace Sys2Proof.Machine

open Sys2Proof

/-! ### Normalization of one group (R201) -/

/-- A unit step lowers one element, below which all are at the bound already. -/
theorem decrementFirst_eq_set {v : List Int} (hb : ∀ a ∈ v, -13 ≤ a) (hex : ∃ a ∈ v, a > -13) :
    ∃ (k : Nat) (hk : k < v.length), (∀ i, i < k → v[i]? = some (-13)) ∧ -13 < v[k]
      ∧ decrementFirst v = v.set k (v[k] - 1) := by
  induction v with
  | nil => simp at hex
  | cons b v ih =>
    by_cases hgt : b > -13
    · exact ⟨0, by simp, by simp, hgt, by simp [decrementFirst, hgt]⟩
    · have hb13 : b = -13 := le_antisymm (not_lt.mp hgt) (hb b List.mem_cons_self)
      obtain ⟨k, hk, hlow, habove, hset⟩ := ih (fun a ha => hb a (List.mem_cons_of_mem b ha))
        (by simpa [hgt] using hex)
      refine ⟨k + 1, by simpa using hk, fun i hi => ?_, habove, by simp [decrementFirst, hgt, hset]⟩
      cases i with
      | zero => simp [hb13]
      | succ i => exact hlow i (by omega)

/-- What decrementing makes of `v`: there is a place below which all elements are driven to -13 and above
which all are those of `v`. -/
def DrivenDown (v w : List Int) : Prop :=
  ∃ j, j < v.length ∧ (∀ i, i < j → w[i]? = some (-13)) ∧ ∀ i, j < i → w[i]? = v[i]?

theorem DrivenDown.refl {v : List Int} (h : v ≠ []) : DrivenDown v v :=
  ⟨0, List.length_pos_iff.mpr h, fun _ hi => absurd hi (Nat.not_lt_zero _), fun _ _ => rfl⟩

/-- A unit step moves the place on to the element it lowers. -/
theorem DrivenDown.unitStep {v w : List Int} (h : DrivenDown v w) (hl : w.length = v.length)
    (hb : ∀ a ∈ w, -13 ≤ a) (hex : ∃ a ∈ w, a > -13) : DrivenDown v (decrementFirst w) := by
  obtain ⟨j, _, hbelow, habove⟩ := h
  obtain ⟨k, hk, hlow, hgt, hset⟩ := decrementFirst_eq_set hb hex
  have hjk : j ≤ k := by
    by_contra hkj
    have := hbelow k (by omega)
    rw [List.getElem?_eq_getElem hk] at this
    exact hgt.ne' (Option.some.inj this)
  refine ⟨k, hl ▸ hk, fun i hi => ?_, fun i hi => ?_⟩
  · rw [hset, List.getElem?_set_ne (by omega), hlow i hi]
  · rw [hset, List.getElem?_set_ne (by omega), habove i (by omega)]

theorem DrivenDown.unitSteps {v w : List Int} {n : Nat} (h : DrivenDown v w)
    (hl : w.length = v.length) (hb : ∀ a ∈ w, -13 ≤ a ∧ a ≤ 13) (hs : w.sum = n) :
    DrivenDown v (repeatedly decrementFirst n w) := by
  induction n generalizing w with
  | zero => exact h
  | succ n ih =>
    have hex := exists_above_of_sum_pos w (by omega)
    refine ih (h.unitStep hl (fun a ha => (hb a ha).1) hex) ?_ (decrementFirst_bounds w hb) ?_
    · rw [decrementFirst_length, hl]
    · rw [decrementFirst_sum w hex, hs]
      omega

theorem drivenDown_normalizeGroup {v : List Int} (hb : ∀ a ∈ v, -13 ≤ a ∧ a ≤ 13) (hs : 0 < v.sum) :
    DrivenDown v (normalizeGroup v) := by
  have hne : v ≠ [] := by rintro rfl; simp at hs
  rw [normalizeGroup, if_pos hs]
  exact (DrivenDown.refl hne).unitSteps rfl hb (by omega)

/-! ### Incrementing is decrementing the opposite values -/

theorem decrementFirst_neg (v : List Int) :
    decrementFirst (v.map Neg.neg) = (incrementFirst v).map Neg.neg := by
  induction v with
  | nil => rfl
  | cons a v ih =>
    simp only [List.map_cons, decrementFirst, incrementFirst]
    by_cases ha : a < 13
    · rw [if_pos ha, if_pos (by omega), List.map_cons]
      congr 1
      omega
    · rw [if_neg ha, if_neg (by omega), List.map_cons, ih]

theorem repeatedly_decrementFirst_neg (n : Nat) (v : List Int) :
    repeatedly decrementFirst n (v.map Neg.neg) = (repeatedly incrementFirst n v).map Neg.neg := by
  induction n generalizing v with
  | zero => rfl
  | succ n ih => rw [repeatedly, repeatedly, decrementFirst_neg, ih]

theorem normalizeGroup_neg {v : List Int} (hs : v.sum < 0) :
    normalizeGroup (v.map Neg.neg) = (normalizeGroup v).map Neg.neg := by
  have hneg : (v.map Neg.neg).sum = -v.sum := (List.sum_neg v).symm
  rw [normalizeGroup, normalizeGroup, hneg, if_pos (by omega), if_neg (by omega),
    repeatedly_decrementFirst_neg]

theorem normalizeGroup_getD_le {v : List Int} (hs : 0 < v.sum) (i : Nat) :
    (normalizeGroup v).getD i 0 ≤ v.getD i 0 := by
  rw [normalizeGroup, if_pos hs]
  exact repeatedly_decrementFirst_getD_le _ v i

theorem le_normalizeGroup_getD {v : List Int} (hs : v.sum < 0) (i : Nat) :
    v.getD i 0 ≤ (normalizeGroup v).getD i 0 := by
  rw [normalizeGroup, if_neg (by omega)]
  exact le_repeatedly_incrementFirst_getD _ v i

/-- Where the sum is negative, what is driven down is the opposite values. -/
theorem exists_driven_up {v : List Int} (hb : ∀ a ∈ v, -13 ≤ a ∧ a ≤ 13) (hs : v.sum < 0) :
    ∃ j, j < v.length ∧ (∀ i, i < j → (normalizeGroup v)[i]? = some 13)
      ∧ ∀ i, j < i → (normalizeGroup v)[i]? = v[i]? := by
  have hneg : (v.map Neg.neg).sum = -v.sum := (List.sum_neg v).symm
  have hbneg : ∀ a ∈ v.map Neg.neg, -13 ≤ a ∧ a ≤ 13 := by
    intro a ha
    obtain ⟨c, hc, rfl⟩ := List.mem_map.mp ha
    have := hb c hc
    omega
  obtain ⟨j, hj, hbelow, habove⟩ := drivenDown_normalizeGroup hbneg (by omega)
  rw [normalizeGroup_neg hs] at hbelow habove
  have hinj : Function.Injective (Option.map (Neg.neg : Int → Int)) :=
    Option.map_injective neg_injective
  refine ⟨j, by simpa using hj, fun i hi => hinj ?_, fun i hi => hinj ?_⟩
  · rw [← List.getElem?_map]
    exact hbelow i hi
  · rw [← List.getElem?_map, ← List.getElem?_map]
    exact habove i hi

/-! ### The three groups (R200, R201) -/

theorem groupOf_append_groups {w : List Int} (h : w.length = 81) :
    groupOf w 0 ++ groupOf w 1 ++ groupOf w 2 = w := by
  have hlast : (w.drop 54).take 27 = (w.drop 27).drop 27 := by
    rw [List.drop_drop, List.take_of_length_le (by simp [h])]
  calc groupOf w 0 ++ groupOf w 1 ++ groupOf w 2
      = w.take 27 ++ (w.drop 27).take 27 ++ (w.drop 54).take 27 := rfl
    _ = w := by rw [hlast, List.append_assoc, List.take_append_drop, List.take_append_drop]

theorem groupOf_normalize {h : List Trit} (hl : h.length = 243) {g : Nat} (hg : g < 3) :
    groupOf (normalize h) g = normalizeGroup (groupOf (tryteValues h) g) := by
  obtain ⟨h0, h1, h2⟩ := normalize_groups h hl
  interval_cases g
  · exact h0
  · exact h1
  · exact h2

theorem groupOf_normalize_sum {h : List Trit} (hl : h.length = 243) {g : Nat} (hg : g < 3) :
    (groupOf (normalize h) g).sum = 0 := by
  rw [groupOf_normalize hl hg]
  exact (normalizeGroup_spec _ fun a ha => tryteValues_bounds h a (groupOf_mem ha)).1

/-- A normalized hash, stored as trytes, reads as the same 81 values. -/
theorem tryteValues_valuesToTrits_normalize (h : List Trit) :
    tryteValues (valuesToTrits (normalize h)) = normalize h :=
  tryteValues_valuesToTrits _ (normalize_bounds h)

theorem normalize_idempotent {h : List Trit} (hl : h.length = 243) :
    normalize (valuesToTrits (normalize h)) = normalize h := by
  have hkept : ∀ g, g < 3 → normalizeGroup (groupOf (normalize h) g) = groupOf (normalize h) g :=
    fun g hg => normalizeGroup_of_sum_zero _ (groupOf_normalize_sum hl hg)
  rw [normalize, tryteValues_valuesToTrits_normalize, hkept 0 (by decide), hkept 1 (by decide),
    hkept 2 (by decide), groupOf_append_groups (normalize_length h hl)]

/-- Settles O58: a unit step lowers the first element that can be lowered, and incrementing is the same
for the opposite values. -/
theorem normalizeDrivesFirstElements : Obligations.NormalizeDrivesFirstElements := by
  refine ⟨fun v hl hb => ?_, fun h hl => ⟨fun g => groupOf_normalize hl, normalize_idempotent hl⟩⟩
  obtain ⟨hsum, hlen, hbounds⟩ := normalizeGroup_spec v hb
  refine ⟨hlen.trans hl, hsum, hbounds, normalizeGroup_of_sum_zero v, fun hs => ?_, fun hs => ?_⟩
  · obtain ⟨j, hj, hbelow, habove⟩ := drivenDown_normalizeGroup hb hs
    exact ⟨j, hl ▸ hj, fun i _ => ⟨hbelow i, normalizeGroup_getD_le hs i, habove i⟩⟩
  · obtain ⟨j, hj, hbelow, habove⟩ := exists_driven_up hb hs
    exact ⟨j, hl ▸ hj, fun i _ => ⟨hbelow i, le_normalizeGroup_getD hs i, habove i⟩⟩

/-! ### Key generation (R203) -/

/-- The sum of seed and index is as long as the padded seed: an index of 64 bits has at most 41 trits. -/
theorem subseed_length {seed : List Trit} {index : Int} (hseed : seed ≠ []) (hlow : -(2 ^ 63) ≤ index)
    (hhigh : index ≤ 2 ^ 63) : (subseed seed index).length = (padSeed seed).length := by
  have hpos := List.length_pos_iff.mpr hseed
  have hindex := intToTrits_length_le index hlow hhigh
  rw [subseed, tadd_length, padSeed_length]
  omega

theorem btValue_padSeed (seed : List Trit) : btValue (padSeed seed) = btValue seed := by
  rw [padSeed, btValue_append, btValue_zeros, mul_zero, add_zero]

/-- The subseed is the one sequence of its length whose value is seed plus index modulo a power of 3. -/
theorem eq_subseed {seed sub : List Trit} {index : Int} (hseed : seed ≠ []) (hlow : -(2 ^ 63) ≤ index)
    (hhigh : index ≤ 2 ^ 63) (hl : sub.length = (padSeed seed).length)
    (hv : (3 ^ sub.length : Int) ∣ btValue sub - (btValue seed + index)) : sub = subseed seed index := by
  have hlen := subseed_length hseed hlow hhigh
  rw [subseed, tadd_length] at hlen
  refine eq_tadd_of_modEq (hl.trans hlen.symm) ?_
  rw [hlen, ← hl, btValue_padSeed, btValue_intToTrits]
  exact (Int.modEq_of_dvd hv).symm

/-! ### The chain-length law (R212) -/

/-- An element that a list does not have reads as 0, which is in range too. -/
theorem getD_bounds {v : List Int} (h : ∀ a ∈ v, -13 ≤ a ∧ a ≤ 13) (i : Nat) :
    -13 ≤ v.getD i 0 ∧ v.getD i 0 ≤ 13 := by
  rcases lt_or_ge i v.length with hi | hi
  · rw [List.getD_eq_getElem _ _ hi]
    exact h _ (List.getElem_mem hi)
  · rw [List.getD_eq_default _ _ hi]
    decide

theorem signerChain_add_verifierChain {n : Int} (h1 : -13 ≤ n) (h2 : n ≤ 13) :
    (13 - n).toNat + (n + 13).toNat = 26 := by omega

/-- Running chains on the ends of chains adds up their lengths. -/
theorem chainBlocks_chainBlocks (p : Config.Params) (chain chain' : Nat → Nat) {t : List Trit}
    (ht : t.length = 6561) :
    chainBlocks p chain' (chainBlocks p chain t) = chainBlocks p (fun i => chain i + chain' i) t :=
  List.flatMap_congr fun i hi => by
    rw [piece_chainBlocks p chain t ht i (List.mem_range.mp hi), hashChain_add]

/-- A signature fragment digests as its key fragment, whatever the hash function. -/
theorem sigDigest_sigFrag (p : Config.Params) {nf : List Int} {kf : List Trit}
    (hnf : ∀ n ∈ nf, -13 ≤ n ∧ n ≤ 13) (hkf : kf.length = 6561) :
    sigDigest p nf (sigFrag p nf kf) = fragmentDigest p kf := by
  have hsum : ∀ i, (13 - nf.getD i 0).toNat + (nf.getD i 0 + 13).toNat = 26 := fun i =>
    signerChain_add_verifierChain (getD_bounds hnf i).1 (getD_bounds hnf i).2
  rw [sigDigest, sigFrag, chainBlocks_chainBlocks p _ _ hkf, fragmentDigest, funext hsum]

theorem fragmentDigest_length (p : Config.Params) (fragment : List Trit) :
    (fragmentDigest p fragment).length = 243 := kerlDigest_length p _

/-- A key of one fragment has one digest. -/
theorem digestsOf_fragment (p : Config.Params) {kf : List Trit} (hkf : kf.length = 6561) :
    digestsOf p kf = fragmentDigest p kf := by
  have hpiece : piece 6561 kf 0 = kf := List.take_of_length_le hkf.le
  simp [digestsOf, hkf, hpiece]

/-- Settles O59: the two chains add up to the 26 hashes of a key's digest. -/
theorem signatureDigestIsKeyDigest : Obligations.SignatureDigestIsKeyDigest := by
  refine ⟨fun n h1 h2 => by omega, fun p n b h1 h2 => ?_, fun p nf kf _ hnf hkf => ?_⟩
  · rw [← Function.iterate_add_apply, Nat.add_comm, signerChain_add_verifierChain h1 h2]
  · rw [sigDigest_sigFrag p hnf hkf, digestsOf_fragment p hkf]

/-! ### A signature made with a key (R216) -/

theorem sigFrag_piece_length (p : Config.Params) (nf : List Int) {key : List Trit} {n j : Nat}
    (hkey : key.length = 6561 * n) (hj : j < n) : (sigFrag p nf (piece 6561 key j)).length = 6561 :=
  sigFrag_length p nf _ (piece_length_of_whole 6561 n key hkey j hj)

theorem signatureOf_length (p : Config.Params) (h : List Trit) {key : List Trit} {n : Nat}
    (hkey : key.length = 6561 * n) : (signatureOf p key h).length = 6561 * n := by
  rw [signatureOf, hkey, Nat.mul_div_cancel_left n (by decide)]
  exact flatMap_range_length n 6561 _ fun j hj => sigFrag_piece_length p _ hkey hj

/-- Fragment `j` of a signature is made from fragment `j` of the key. -/
theorem piece_signatureOf (p : Config.Params) (h : List Trit) {key : List Trit} {n j : Nat}
    (hkey : key.length = 6561 * n) (hj : j < n) :
    piece 6561 (signatureOf p key h) j
      = sigFrag p (groupOf (normalize h) (j % 3)) (piece 6561 key j) := by
  rw [signatureOf, hkey, Nat.mul_div_cancel_left n (by decide)]
  exact piece_flatMap_range n 6561 _ (fun i hi => sigFrag_piece_length p _ hkey hi) j hj

/-- The verifier derives the digests of the key from a signature made with it. -/
theorem signatureDigests_signatureOf (p : Config.Params) (h : List Trit) {key : List Trit} {n : Nat}
    (hkey : key.length = 6561 * n) : signatureDigests p (signatureOf p key h) h = digestsOf p key := by
  rw [signatureDigests, digestsOf, signatureOf_length p h hkey, hkey,
    Nat.mul_div_cancel_left n (by decide)]
  refine List.flatMap_congr fun j hj => ?_
  rw [List.mem_range] at hj
  rw [piece_signatureOf p h hkey hj]
  exact sigDigest_sigFrag p (fun a ha => normalize_bounds h a (groupOf_mem ha))
    (piece_length_of_whole 6561 n key hkey j hj)

theorem validate_signatureOf (p : Config.Params) (h : List Trit) {key : List Trit} {n : Nat}
    (hkey : key.length = 6561 * n) : validate p (addressOf p key) (signatureOf p key h) h = true := by
  rw [validate_eq_true_iff, signatureDigests_signatureOf p h hkey, addressOf]

/-! ### Two signatures under one hash (R213, R216) -/

section TwoSignatures

variable {p : Config.Params} {frags frags' h : List Trit} {n : Nat}

/-- Where two verifications end in one address without a collision, the signatures agree off trit 242: the
links are followed back from the address to the digests, the ends of the chains and the fragments. -/
theorem CollisionFree.agreeOffTop (hcf : CollisionFree p frags frags' h)
    (hl : frags.length = 6561 * n) (hl' : frags'.length = 6561 * n)
    (he : kerlDigest p (signatureDigests p frags h) = kerlDigest p (signatureDigests p frags' h)) :
    AgreeOffTop frags frags' := by
  have hn : frags.length / 6561 = n := by omega
  have hn' : frags'.length / 6561 = n := by omega
  have hdigests : AgreeOffTop (signatureDigests p frags h) (signatureDigests p frags' h) :=
    agreeOffTop_of_kerlDigest_eq p n _ _ (by rw [signatureDigests_length, hn])
      (by rw [signatureDigests_length, hn']) hcf.address he
  refine agreeOffTop_of_pieces 6561 n (by decide) rfl frags frags' hl hl' fun j hj => ?_
  have hjn : j < frags.length / 6561 := by omega
  have ht := piece_length_of_whole 6561 n frags hl j hj
  have ht' := piece_length_of_whole 6561 n frags' hl' j hj
  have hpiece := hdigests.piece 243 rfl j
  rw [piece_signatureDigests p frags h j hjn, piece_signatureDigests p frags' h j (by omega)] at hpiece
  have hdigest := eq_of_agreeOffTop _ _ (kerlDigest_length p _) (kerlDigest_length p _)
    (kerlDigest_top p _) (kerlDigest_top p _) hpiece
  have hblocks := agreeOffTop_of_kerlDigest_eq p 27 _ _ (chainBlocks_length p _ _ ht)
    (chainBlocks_length p _ _ ht') (hcf.digests j hjn) hdigest
  exact agreeOffTop_of_chainBlocks p _ _ _ ht ht' (fun i k => hcf.chains j i k hjn) hblocks

/-- Signatures that agree off trit 242 have the same digests. -/
theorem AgreeOffTop.signatureDigests_eq (ha : AgreeOffTop frags frags')
    (hl : frags.length = 6561 * n) (hl' : frags'.length = 6561 * n) :
    signatureDigests p frags h = signatureDigests p frags' h := by
  rw [signatureDigests, signatureDigests, hl, hl', Nat.mul_div_cancel_left n (by decide)]
  refine List.flatMap_congr fun j hj => ?_
  rw [List.mem_range] at hj
  obtain ⟨_, hsigDigest, _⟩ := kerlIgnoresTrit242
  exact hsigDigest p _ _ _ (piece_length_of_whole 6561 n frags hl j hj)
    (piece_length_of_whole 6561 n frags' hl' j hj) (ha.piece 6561 rfl j)

end TwoSignatures

/-- Settles O60: a signature brings the verifier to the digests of the key, two signatures that reach one
address agree wherever the hash looks, and an address derived ends in 0. -/
theorem derivedSignaturesValidate : Obligations.DerivedSignaturesValidate := by
  refine ⟨fun p seed index sec h _ _ _ => ?_, fun p addr frags frags' h hwhole hlen _ hv => ?_,
    fun p addr frags h htop => ?_⟩
  · have hkey := keygen_length p seed index sec
    exact ⟨validate_signatureOf p h hkey, signatureOf_length p h hkey⟩
  · have hl : frags.length = 6561 * (frags.length / 6561) := by omega
    have hl' := hlen.trans hl
    rw [validate_eq_true_iff] at hv
    refine ⟨?_, fun ha => ?_⟩
    · rintro ⟨i, hi, hne⟩ hcf
      rw [← Bool.not_eq_true, validate_eq_true_iff, ← hv]
      exact fun he => hne (hcf.agreeOffTop hl hl' he.symm i hi)
    · rw [validate_eq_true_iff, ← hv, AgreeOffTop.signatureDigests_eq ha hl hl']
  · rw [← Bool.not_eq_true, validate_eq_true_iff]
    rintro rfl
    exact htop (kerlDigest_top p _)

/-! ### Fragments read from TM (R199, R200) -/

/-- Element `i` of a normalized fragment in TM. -/
theorem tryteValues_readT_getD (s : State) (a : Nat) {i : Nat} (hi : i < 27) :
    (tryteValues (s.readT a 81)).getD i 0
      = tryteValue (s.tmAt (a + 3 * i)) (s.tmAt (a + 3 * i + 1)) (s.tmAt (a + 3 * i + 2)) := by
  have hlt : i < (tryteValues (s.readT a 81)).length := by simpa using hi
  rw [List.getD_eq_getElem _ _ hlt, tryteValues_getElem]
  simp only [State.readT_getElem, Nat.add_assoc]

/-- The chains on the sub-blocks of a fragment in TM. -/
theorem chainBlocks_readT (p : Config.Params) (s : State) (a : Nat) {chain chain' : Nat → Nat}
    (hchain : ∀ i, i < 27 → chain i = chain' i) :
    chainBlocks p chain (s.readT a 6561)
      = (List.range 27).flatMap fun i => (kerlHash243 p)^[chain' i] (s.readT (a + 243 * i) 243) :=
  List.flatMap_congr fun i hi => by
    rw [List.mem_range] at hi
    rw [hashChain_iterate, hchain i hi, s.piece_readT a 6561 i 243 (by omega)]

/-- The digests of signature fragments in TM. -/
theorem signatureDigests_readT (p : Config.Params) (s : State) (a k : Nat) (h : List Trit) :
    signatureDigests p (s.readT a (6561 * k)) h
      = (List.range k).flatMap fun j =>
          sigDigest p (groupOf (normalize h) (j % 3)) (s.readT (a + 6561 * j) 6561) := by
  rw [signatureDigests, State.readT_length, Nat.mul_div_cancel_left k (by decide)]
  refine List.flatMap_congr fun j hj => ?_
  rw [List.mem_range] at hj
  rw [s.piece_readT _ _ _ _ (by omega)]

/-- A sequence is what a region holds when they agree cell by cell. -/
theorem eq_readT_iff (s : State) (a n : Nat) {l : List Trit} (hl : l.length = n) :
    l = s.readT a n ↔ ∀ i, i < n → l[i]? = some (s.tmAt (a + i)) := by
  constructor
  · rintro rfl i hi
    rw [List.getElem?_eq_getElem (by simpa using hi), State.readT_getElem]
  · intro h
    refine (s.readT_eq_of a n l hl fun i hi => ?_).symm
    exact ((List.getElem?_eq_some_iff.mp (h i hi)).2).symm

/-! ### The commands where no check fails (R202 to R214) -/

section Run

variable {ra rb rc rd re rf : Reg} {s : State}

theorem exec_keygen (hseed : s.uval rc ≠ 0) (hsec : s.uval re ≠ 0)
    (hsrc : s.uval rb + s.uval rc ≤ s.params.nt) (hdst : s.uval ra + 6561 * s.uval re ≤ s.params.nt) :
    exec (.keygen ra rb rc rd re) s
      = .next (s.writeT (s.uval ra)
          (keygen s.params (s.readT (s.uval rb) (s.uval rc)) (s.sval rd) (s.uval re))) := by
  dsimp only [exec, execKeygen]
  rw [checked_run (by simp [positive, hseed, hsec, hsrc, hdst])]

theorem exec_digests (hpos : s.uval rc ≠ 0) (hwhole : s.uval rc % 6561 = 0)
    (hsrc : s.uval rb + s.uval rc ≤ s.params.nt)
    (hdst : s.uval ra + 243 * (s.uval rc / 6561) ≤ s.params.nt) :
    exec (.digests ra rb rc) s
      = .next (s.writeT (s.uval ra) (digestsOf s.params (s.readT (s.uval rb) (s.uval rc)))) := by
  dsimp only [exec, execDigests]
  rw [checked_run (by simp [positiveMultipleOf6561, hpos, hwhole, hsrc, hdst])]

theorem exec_address (hpos : s.uval rc ≠ 0) (hwhole : s.uval rc % 243 = 0)
    (hsrc : s.uval rb + s.uval rc ≤ s.params.nt) (hdst : s.uval ra + 243 ≤ s.params.nt) :
    exec (.address ra rb rc) s
      = .next (s.writeT (s.uval ra) (kerlDigest s.params (s.readT (s.uval rb) (s.uval rc)))) := by
  dsimp only [exec, execAddress]
  rw [checked_run (by simp [positiveMultipleOf243, hpos, hwhole, hsrc, hdst])]

theorem exec_sigdigest (hnf : s.uval rb + 81 ≤ s.params.nt) (hsig : s.uval rc + 6561 ≤ s.params.nt)
    (hdst : s.uval ra + 243 ≤ s.params.nt) :
    exec (.sigdigest ra rb rc) s
      = .next (s.writeT (s.uval ra)
          (sigDigest s.params (tryteValues (s.readT (s.uval rb) 81)) (s.readT (s.uval rc) 6561))) := by
  dsimp only [exec, execSigdigest]
  rw [checked_run (by simp [hnf, hsig, hdst])]

theorem exec_sigfrag (hnf : s.uval rb + 81 ≤ s.params.nt) (hkey : s.uval rc + 6561 ≤ s.params.nt)
    (hdst : s.uval ra + 6561 ≤ s.params.nt) :
    exec (.sigfrag ra rb rc) s
      = .next (s.writeT (s.uval ra)
          (sigFrag s.params (tryteValues (s.readT (s.uval rb) 81)) (s.readT (s.uval rc) 6561))) := by
  dsimp only [exec, execSigfrag]
  rw [checked_run (by simp [hnf, hkey, hdst])]

theorem exec_normalize (hsrc : s.uval rb + 243 ≤ s.params.nt) (hdst : s.uval ra + 243 ≤ s.params.nt) :
    exec (.normalize ra rb) s
      = .next (s.writeT (s.uval ra) (valuesToTrits (normalize (s.readT (s.uval rb) 243)))) := by
  dsimp only [exec, execNormalize]
  rw [checked_run (by simp [hsrc, hdst])]

theorem exec_validate (hlen : s.uval rf = 243) (hpos : s.uval rd ≠ 0)
    (haddr : s.uval rb + 243 ≤ s.params.nt) (hfrags : s.uval rc + 6561 * s.uval rd ≤ s.params.nt)
    (hhash : s.uval re + 243 ≤ s.params.nt) :
    exec (.validate ra rb rc rd re rf) s
      = .next (s.setReg ra
          (if validate s.params (s.readT (s.uval rb) 243) (s.readT (s.uval rc) (6561 * s.uval rd))
            (s.readT (s.uval re) 243) then 1 else 0)) := by
  dsimp only [exec, execValidate]
  rw [checked_run (by simp [hashPresent, exactly243, positive, hlen, hpos, haddr, hfrags, hhash])]

end Run

/-! ### The statements about commands -/

/-- Settles O18: the sequence named is the subseed. -/
theorem keygenDerivesKey : Obligations.KeygenDerivesKey := by
  intro ra rb rc rd re s sub hseed hsec hsrc hdst hl hv
  have hpad : (padSeed (s.readT (s.uval rb) (s.uval rc))).length = sub.length := by
    rw [padSeed_length, State.readT_length, hl]
  have hne : s.readT (s.uval rb) (s.uval rc) ≠ [] := by
    rwa [ne_eq, ← List.length_eq_zero_iff, State.readT_length]
  obtain rfl := eq_subseed hne (BitVec.le_toInt _) (BitVec.toInt_lt).le hpad.symm hv
  have hkey := keygen_length s.params (s.readT (s.uval rb) (s.uval rc)) (s.sval rd) (s.uval re)
  refine ⟨_, exec_keygen hseed hsec hsrc hdst, ?_, s.onlyTM_writeT _ _ _ hkey⟩
  rw [State.readT_writeT_of_length _ _ _ _ hkey, keygen, hpad]

/-- Settles O19: the digests were written end to end, each of its own piece of the key. -/
theorem digestsHashEachFragment : Obligations.DigestsHashEachFragment := by
  intro ra rb rc s hpos hwhole hsrc hdst
  have hlen := digestsOf_length s.params (s.readT (s.uval rb) (s.uval rc))
  rw [State.readT_length] at hlen
  refine ⟨_, exec_digests hpos hwhole hsrc hdst, fun f hf => ?_, s.onlyTM_writeT _ _ _ hlen⟩
  rw [digestsOf, State.readT_length,
    State.readT_writeT_flatMap s _ (fun _ _ => fragmentDigest_length _ _) (by simpa using hf),
    List.getElem_range, State.piece_readT _ _ _ _ _ (by omega), fragmentDigest,
    chainBlocks_readT _ _ _ fun _ _ => rfl]

/-- Settles O20: the digest of a region of whole chunks. -/
theorem addressHashesDigests : Obligations.AddressHashesDigests := by
  intro ra rb rc s hpos hwhole hsrc hdst
  have hlen := kerlDigest_length s.params (s.readT (s.uval rb) (s.uval rc))
  refine ⟨_, exec_address hpos hwhole hsrc hdst, ?_, s.onlyTM_writeT _ _ _ hlen⟩
  rw [State.readT_writeT_of_length _ _ _ _ hlen, kerlDigest_eq, freshMessage,
    kerlAbsorb_readT [] s _ hwhole, List.nil_append]

/-- Settles O21: the verifier's chains on a fragment in TM. -/
theorem sigdigestRunsVerifierChains : Obligations.SigdigestRunsVerifierChains := by
  intro ra rb rc s hnf hsig hdst
  refine ⟨_, exec_sigdigest hnf hsig hdst, ?_, s.onlyTM_writeT _ _ _ (sigDigest_length _ _ _)⟩
  rw [State.readT_writeT_of_length _ _ _ _ (sigDigest_length _ _ _), sigDigest,
    chainBlocks_readT _ _ _ fun i hi => by rw [tryteValues_readT_getD s _ hi]]

/-- Settles O22: the signer's chains on a fragment in TM, each written in its place. -/
theorem sigfragRunsSignerChains : Obligations.SigfragRunsSignerChains := by
  intro ra rb rc s hnf hkey hdst
  have hkf := s.readT_length (s.uval rc) 6561
  have hlen := sigFrag_length s.params (tryteValues (s.readT (s.uval rb) 81)) _ hkf
  refine ⟨_, exec_sigfrag hnf hkey hdst, fun i hi => ?_, s.onlyTM_writeT _ _ _ hlen⟩
  rw [State.readT_writeT_part _ _ _ _ _ (by omega)]
  calc piece 243 (sigFrag s.params (tryteValues (s.readT (s.uval rb) 81)) (s.readT (s.uval rc) 6561)) i
      = hashChain s.params (13 - (tryteValues (s.readT (s.uval rb) 81)).getD i 0).toNat
          (piece 243 (s.readT (s.uval rc) 6561) i) := piece_chainBlocks s.params _ _ hkf i hi
    _ = _ := by
      rw [hashChain_iterate, tryteValues_readT_getD s _ hi, s.piece_readT _ _ _ _ (by omega)]

/-- Settles O23: the values written are read back, and those of each group were balanced. -/
theorem normalizeWritesBalancedGroups : Obligations.NormalizeWritesBalancedGroups := by
  intro ra rb s hsrc hdst
  have hhash := s.readT_length (s.uval rb) 243
  have hlen : (valuesToTrits (normalize (s.readT (s.uval rb) 243))).length = 243 := by
    rw [valuesToTrits_length, normalize_length _ hhash]
  have hread := State.readT_writeT_of_length s (s.uval ra) 243 _ hlen
  refine ⟨_, exec_normalize hsrc hdst, ?_, fun g hg => ?_, s.onlyTM_writeT _ _ _ hlen⟩
  · rw [hread, tryteValues_valuesToTrits_normalize]
  · rw [hread, tryteValues_valuesToTrits_normalize, groupOf_normalize_sum hhash hg]

/-- Settles O24: the address derived is compared with the one in TM cell by cell. -/
theorem validateWritesVerdict : Obligations.ValidateWritesVerdict := by
  intro ra rb rc rd re rf s hlen hpos haddr hfrags hhash
  refine ⟨_, exec_validate hlen hpos haddr hfrags hhash, ?_, ?_, s.onlyReg_setReg ra _⟩
  · rw [State.reg_setReg_same]
    exact ite_eq_or_eq _ _ _
  · rw [State.reg_setReg_same, ← signatureDigests_readT, ← eq_readT_iff s _ _ (kerlDigest_length _ _),
      ← validate_eq_true_iff, ite_eq_left_iff]
    simp

end Sys2Proof.Machine
end

section
/-! SUPPORT. The statements of spec/46_sequencing_and_system.md: one equation for a step with and without a
pending action, one for a write to `CMD` and one for the issue of a command word while READY, and last the
statement. -/

namespace Sys2Proof.Machine

open Sys2Proof

/-! ### The next action of the host (R221, R295) -/

theorem step_of_pending_nil {s : State} (h : s.pending = []) : step s = .next s := by
  rw [step, performNext, h]

theorem step_of_pending_cons {a : HostAction} {rest : List HostAction} {s : State}
    (h : s.pending = a :: rest) : step s = performAction a { s with pending := rest } := by
  rw [step, performNext, h]

/-! ### A write to `CMD` (R42) -/

theorem performAction_writeCmd (v : Word) (s : State) :
    performAction (.write 0x000 32 v) s = issueCommand (v.setWidth 32) s := by
  have hacc : accessAt s.params 0x000 32 = some (.csr .cmd) := accessAt_csr s.params (c := .cmd) rfl
  rw [performAction, hostWrite, hacc]
  rfl

theorem issueCommand_of_command {w : CommandWord} {i : Instr} {s : State} (hs : s.es = .ready)
    (hd : decode w = .command i) : issueCommand w s = exec i s := by
  simp only [issueCommand, hs, hd]

/-- Settles O35: an action taken off the list leaves the engine READY, and the word written to `CMD` then
runs the command it decodes to. -/
theorem stepRunsTheDecodedCommand : Obligations.StepRunsTheDecodedCommand := by
  refine ⟨fun a rest s hp => step_of_pending_cons hp, fun v rest i s hp hs hd => ?_,
    fun s hp => step_of_pending_nil hp⟩
  have hready : State.es { s with pending := rest } = .ready := hs
  calc step s
      = performAction (.write 0x000 32 v) { s with pending := rest } := step_of_pending_cons hp
    _ = issueCommand (v.setWidth 32) { s with pending := rest } := performAction_writeCmd v _
    _ = exec i { s with pending := rest } := issueCommand_of_command hready hd

end Sys2Proof.Machine
end

section
/-! SUPPORT. The statements of spec/60_exceptions.md: faults. First the rows of the table of R262 that the
shared checks are, then what a command with a given list of rows does (R264), and last the statements. -/

namespace Sys2Proof.Machine

open Sys2Proof

/-! ### A check as a row of the table (R262) -/

/-- The row of the table that a check is: its fault, where it fails. -/
def Check.fault (c : Check) : Option (Cause × Nat) := faultIf (c.fails = true) c.cause c.info

theorem Check.fault_mk (p : Prop) [Decidable p] (c : Cause) (n : Nat) :
    Check.fault ⟨decide p, c, n⟩ = faultIf p c n := by
  simp [Check.fault, faultIf]

section Rows

variable (s : State) (a b n L o : Nat)

@[simp] theorem fault_inTM : (inTM s a n).fault = faultIf (a + n > s.params.nt) .addr a :=
  Check.fault_mk _ _ _
@[simp] theorem fault_inBM : (inBM s a n).fault = faultIf (a + n > s.params.nb) .addr a :=
  Check.fault_mk _ _ _
@[simp] theorem fault_multipleOf3 : (multipleOf3 n).fault = faultIf (n % 3 ≠ 0) .len3 n :=
  Check.fault_mk _ _ _
@[simp] theorem fault_even : (even n).fault = faultIf (n % 2 ≠ 0) .lenOdd n :=
  Check.fault_mk _ _ _
@[simp] theorem fault_exactly243 : (exactly243 n).fault = faultIf (n ≠ 243) .len243 n :=
  Check.fault_mk _ _ _
@[simp] theorem fault_exactly48 : (exactly48 n).fault = faultIf (n ≠ 48) .len48 n :=
  Check.fault_mk _ _ _
@[simp] theorem fault_positiveMultipleOf243 :
    (positiveMultipleOf243 n).fault = faultIf (n = 0 ∨ n % 243 ≠ 0) .len243 n :=
  Check.fault_mk _ _ _
@[simp] theorem fault_positiveMultipleOf6561 :
    (positiveMultipleOf6561 n).fault = faultIf (n = 0 ∨ n % 6561 ≠ 0) .length n :=
  Check.fault_mk _ _ _
@[simp] theorem fault_hashPresent : (hashPresent n).fault = faultIf (n = 0) .noHash 0 :=
  Check.fault_mk _ _ _

/-- A count that is not positive is 0, and so is the `INFO` it gives (R204, R214). -/
@[simp] theorem fault_positive : (positive n).fault = faultIf (n = 0) .length 0 := by
  rw [positive, Check.fault_mk]
  unfold faultIf
  split
  · next h => rw [h]
  · rfl

theorem map_fault_curlChecks :
    (curlChecks s b L o).map Check.fault
      = [faultIf (o ≥ L) .offset o, faultIf (b + L > s.params.nt) .addr (b + o)] := by
  simp only [curlChecks, arrayInTM, List.map_cons, List.map_nil, Check.fault_mk]

theorem map_fault_kerlChecks :
    (kerlChecks s b L o).map Check.fault
      = [faultIf (L % 243 ≠ 0) .len243 L, faultIf (o ≥ L ∨ o % 243 ≠ 0) .offset o,
        faultIf (b + L > s.params.nt) .addr (b + o)] := by
  simp only [kerlChecks, multipleOf243, arrayInTM, List.map_cons, List.map_nil, Check.fault_mk]

end Rows

/-! ### The first bad element of a text in BM (R264, point 4) -/

/-- The first index in a list that is given by number is the first such number. -/
theorem findIdx?_map_range {α : Type} (bad : α → Bool) (f : Nat → α) (n : Nat) :
    ((List.range n).map f).findIdx? bad = (List.range n).find? fun j => bad (f j) := by
  ext j
  rw [List.findIdx?_eq_some_iff_getElem, List.find?_range_eq_some]
  simp

theorem firstNonSymbol_readB_eq_find? (s : State) (a n : Nat) :
    firstNonSymbol (s.readB a n) = (List.range n).find? fun j => !inAlphabet (s.bmAt (a + j)) :=
  findIdx?_map_range _ _ n

theorem firstLargeUnit_readB_eq_find? (s : State) (a n : Nat) :
    (codeUnits (s.readB a (2 * n))).findIdx? (fun u => decide (728 < u))
      = (List.range n).find? fun j => decide (s.codeUnitAt a j > 728) := by
  rw [codeUnits_readB]
  exact findIdx?_map_range _ _ n

/-! ### What a command with given rows does (R264) -/

/-- The outcome `out` is a next state with the control state and the model's own fields of `s`. -/
def CompletesFrom (s : State) (out : Host.Outcome State Fault Refusal) : Prop :=
  ∃ t, out = .next t ∧ SameControl s t ∧ SameModel s t

/-- The outcome `out` of the command `i` in `s` is what the rows `faults` ask for: the first fault among
them is raised, and without one the command completes. -/
def FollowsTable (i : Instr) (s : State) (faults : List (Option (Cause × Nat)))
    (out : Host.Outcome State Fault Refusal) : Prop :=
  match faults.findSome? id with
  | some (c, n) => out = raiseFault i c n s
  | none => CompletesFrom s out

section Following

variable {i : Instr} {s : State} {out : Host.Outcome State Fault Refusal}

theorem followsTable_nil (h : CompletesFrom s out) : FollowsTable i s [] out := h

/-- A command whose last row is a condition. -/
theorem followsTable_faultIf {p : Prop} [Decidable p] {c : Cause} {n : Nat}
    (hfault : p → out = raiseFault i c n s) (hnone : ¬ p → CompletesFrom s out) :
    FollowsTable i s [faultIf p c n] out := by
  unfold faultIf
  split
  · next h => exact hfault h
  · next h => exact hnone h

/-- A command whose last row looks for a bad element, which it finds at the index `found`. -/
theorem followsTable_firstBad {found : Option Nat} {n : Nat} {bad : Nat → Bool} {c : Cause}
    (hfound : found = (List.range n).find? bad)
    (hfault : ∀ j, found = some j → out = raiseFault i c j s)
    (hnone : found = none → CompletesFrom s out) : FollowsTable i s [firstBad n bad c] out := by
  subst hfound
  unfold firstBad
  cases h : (List.range n).find? bad with
  | some j => exact hfault j h
  | none => exact hnone h

/-- The rows of a checked command are its checks and the rows of what it then runs. -/
theorem followsTable_checked {cs : List Check} {run : State → Host.Outcome State Fault Refusal}
    {faults rest : List (Option (Cause × Nat))} (hrows : faults = cs.map Check.fault ++ rest)
    (hrun : FollowsTable i s rest (run s)) : FollowsTable i s faults (checked i cs run s) := by
  subst hrows
  induction cs with
  | nil => exact hrun
  | cons c cs ih =>
    rw [checked_cons]
    cases hc : c.fails with
    | true => simp [FollowsTable, Check.fault, faultIf, hc]
    | false => simpa [FollowsTable, Check.fault, faultIf, hc] using ih

end Following

/-! ### What completes (R264) -/

section Completion

variable (s : State) (d : Nat)

theorem completesFrom_setReg (r : Reg) (v : Word) : CompletesFrom s (.next (s.setReg r v)) :=
  ⟨_, rfl, (s.onlyReg_setReg r v).control, (s.onlyReg_setReg r v).model⟩

theorem completesFrom_writeT (v : List Trit) : CompletesFrom s (.next (s.writeT d v)) :=
  ⟨_, rfl, (s.onlyTM_writeT d _ v rfl).control, (s.onlyTM_writeT d _ v rfl).model⟩

theorem completesFrom_writeB (v : List Byte) : CompletesFrom s (.next (s.writeB d v)) :=
  ⟨_, rfl, (s.onlyBM_writeB d _ v rfl).control, (s.onlyBM_writeB d _ v rfl).model⟩

theorem completesFrom_setCurl (S : Vector Trit 729) : CompletesFrom s (.next (s.setCurl S)) :=
  ⟨_, rfl, (s.onlyCurl_setCurl S).control, (s.onlyCurl_setCurl S).model⟩

theorem completesFrom_setKerl (K : List Byte) : CompletesFrom s (.next (s.setKerl K)) :=
  ⟨_, rfl, (s.onlyKerl_setKerl K).control, (s.onlyKerl_setKerl K).model⟩

end Completion

/-- Each command follows its rows of the table (R262). The cases are by what the command writes; where a
text or a value is looked into, the last row is not among the checks. -/
theorem exec_followsTable (i : Instr) (s : State) :
    FollowsTable i s (faultTable i s) (exec i s) := by
  cases i with
  | li => exact followsTable_nil (completesFrom_setReg s _ _)
  | creset | cxform => exact followsTable_nil (completesFrom_setCurl s _)
  | kreset => exact followsTable_nil (completesFrom_setKerl s _)
  | cinit imm20 =>
    refine followsTable_faultIf (fun h => if_neg (Nat.not_le.mpr h)) fun h => ?_
    exact ⟨_, if_pos (Nat.not_lt.mp h), ⟨rfl, rfl, rfl, rfl, rfl, rfl⟩, ⟨rfl, rfl, rfl, rfl⟩⟩
  | try2t ra rb rc =>
    dsimp only [exec, execTry2t]
    refine followsTable_checked (by simp [faultTable])
      (followsTable_firstBad (c := .symbol)
        (firstNonSymbol_readB_eq_find? s (s.uval rb) (s.uval rc)) (fun j hj => by rw [hj]) fun h => ?_)
    rw [h]
    exact completesFrom_writeT s _ _
  | str2try ra rb rc =>
    dsimp only [exec, execStr2try]
    refine followsTable_checked (by simp [faultTable])
      (followsTable_firstBad (c := .codeUnit)
        (firstLargeUnit_readB_eq_find? s (s.uval rb) (s.uval rc)) (fun j hj => by rw [hj]) fun h => ?_)
    rw [h]
    exact completesFrom_writeB s _ _
  | try2str ra rb rc =>
    dsimp only [exec, execTry2str]
    refine followsTable_checked (by simp [faultTable])
      (followsTable_firstBad (c := .symbol)
        (firstNonSymbol_readB_eq_find? s (s.uval rb) (s.uval rc)) (fun j hj => by rw [hj]) fun h => ?_)
    rw [h]
    exact completesFrom_writeB s _ _
  | t2int ra rb rc =>
    dsimp only [exec, execT2int]
    refine followsTable_checked (by simp [faultTable])
      (followsTable_faultIf (fun h => if_pos h) fun h => ?_)
    rw [if_neg h]
    exact completesFrom_setReg s _ _
  | t2try | t2b =>
    dsimp only [exec, execT2try, execT2b]
    exact followsTable_checked (by simp [faultTable]) (followsTable_nil (completesFrom_writeB s _ _))
  | b2t | tadd | keygen | digests | address | sigdigest | sigfrag | normalize =>
    dsimp only [exec, execB2t, execTadd, execKeygen, execDigests, execAddress, execSigdigest,
      execSigfrag, execNormalize]
    exact followsTable_checked (by simp [faultTable]) (followsTable_nil (completesFrom_writeT s _ _))
  | validate =>
    dsimp only [exec, execValidate]
    exact followsTable_checked (by simp [faultTable]) (followsTable_nil (completesFrom_setReg s _ _))
  | cabsorb =>
    dsimp only [exec, execCabsorb]
    exact followsTable_checked (by simp [faultTable, map_fault_curlChecks])
      (followsTable_nil (completesFrom_setCurl s _))
  | kabsorb =>
    dsimp only [exec, execKabsorb]
    exact followsTable_checked (by simp [faultTable, map_fault_kerlChecks])
      (followsTable_nil (completesFrom_setKerl s _))
  | int2t | csqueeze | ksqueeze =>
    dsimp only [exec, execInt2t, execCsqueeze, execKsqueeze]
    exact followsTable_checked (by simp [faultTable, map_fault_curlChecks, map_fault_kerlChecks])
      (followsTable_nil ⟨_, rfl, ⟨rfl, rfl, rfl, rfl, rfl, rfl⟩, ⟨rfl, rfl, rfl, rfl⟩⟩)

/-- Settles O25: the first fault of the rows is raised, and what raises it takes the fault. -/
theorem commandsFaultByTheTable : Obligations.CommandsFaultByTheTable := by
  intro i s
  have h := exec_followsTable i s
  unfold FollowsTable at h
  unfold firstFault
  cases hf : (faultTable i s).findSome? id with
  | none => rwa [hf] at h
  | some f =>
    obtain ⟨c, n⟩ := f
    rw [hf] at h
    exact ⟨_, h, s.takesFault_enterFault (encode i) c n⟩

/-! ### Fault entry and the FAULTED state (R265 to R267) -/

/-- Settles O27: a command that does not raise a fault leaves the engine READY. -/
theorem faultsArePrecise : Obligations.FaultsArePrecise := by
  intro i s t hready h hfaulted
  obtain ⟨c, n, _, rfl⟩ | ⟨hes, _⟩ := (effect_of_exec h).fault_or_sameControl
  · obtain ⟨_, _, _, _, _, _, honly⟩ := s.takesFault_enterFault (encode i) c n
    exact honly
  · rw [hfaulted, hready] at hes
    cases hes

/-- Settles O26: fault entry takes the fault, and the port then reads `STATUS` and `CAUSE` from the state. -/
theorem faultEntryWritesFourRegisters : Obligations.FaultEntryWritesFourRegisters := by
  intro i c n s
  obtain ⟨hcause, hinfo, hecmd, hes, hdrop, hherr, honly⟩ := s.takesFault_enterFault (encode i) c n
  obtain ⟨_, herr, _, _⟩ := (s.enterFault (encode i) c n).status_bits
  refine ⟨_, raiseFault_eq i c n s, hcause, ?_, hecmd, hes, ?_,
    ⟨_, answers_csr _ (c := .cause) rfl rfl, causeCode_getElem? c⟩, hdrop, hherr, honly⟩
  · rw [hinfo, BitVec.toNat_ofNat]
  · rw [herr, hes]
    rfl

theorem issueCommand_of_faulted (w : CommandWord) {s : State} (hs : s.es = .faulted) :
    issueCommand w s = .next s.dropCommand := by
  simp only [issueCommand, hs]

/-- Settles O29: a write to `CMD` issues its word, which a FAULTED engine drops. -/
theorem faultedEngineDropsCommands : Obligations.FaultedEngineDropsCommands := by
  intro v s hs
  rw [step_withNext, performAction_writeCmd, issueCommand_of_faulted _ hs]
  rfl

end Sys2Proof.Machine
end

section
/-! SUPPORT. The statements of spec/70_reset_and_hazards.md: a step with an action pending performs it, and
every host action, a command word written to `CMD` included, answers a next state. -/

namespace Sys2Proof.Machine

open Sys2Proof

/-- Settles O36, by cases on the pending actions: with none left the block rests (R295), and what a host
action can do is always a next state, a raised fault too (R265, R306). -/
theorem everyStepCompletes : Obligations.EveryStepCompletes := by
  intro s
  cases hp : s.pending with
  | nil => exact ⟨s, step_of_pending_nil hp⟩
  | cons a rest =>
    obtain ⟨t, ht, _⟩ := performAction_effect a { s with pending := rest }
    exact ⟨t, (step_of_pending_cons hp).trans ht⟩

end Sys2Proof.Machine
end

section
/-! SUPPORT. The known values of the default hash (spec/43_kerl.md R172). -/

namespace Sys2Proof.Machine

open Sys2Proof

/-- A message shorter than the rate is one block with its padding, so that one permutation gives its hash. -/
theorem bytesValue_keccak384_of_short {M : List Byte} (h : M.length < 104) :
    bytesValue (keccak384 M) = KeccakEval.hashThen M 1 id := by
  rw [KeccakEval.hashThen_eq M 1 id (by rw [Nat.div_eq_of_lt h]), id_eq]

/-- Settles O57: the empty message and `abc` are one block each, whose hash the kernel works out. -/
theorem keccakKnownValues : Obligations.KeccakKnownValues := by
  constructor
  · rw [bytesValue_keccak384_of_short (by decide)]
    decide +kernel
  · rw [bytesValue_keccak384_of_short (by decide)]
    decide +kernel

end Sys2Proof.Machine
end
